-- ==== Sys2Proof/Word.lean ====
section
/-! DEFINITION. The word, byte and bit-sequence types of the block (00_scope.md R6, R9, R10). -/

namespace Sys2Proof

/-- The contents of a 64-bit host register, a frequency-table entry or a written command value
(00_scope.md R6). -/
abbrev Word := BitVec 64

/-- A symbol, or a byte of IN or OUT (00_scope.md R6). -/
abbrev Byte := BitVec 8

/-- A bit sequence, its first bit first (00_scope.md R10). -/
abbrev Bits := List Bool

/-- An array of 256 entries indexed by byte value (10_state.md R32, R35). -/
abbrev ByteTable (α : Type) := Vector α 256

end Sys2Proof
end

