-- ==== Sys2Proof/Syntax.lean ====
section
/-! DEFINITION. The commands of the block: one constructor per row of spec/opcode_table.json
(30_encoding.md R75), with the operand fields of its format (R71, R74). -/

namespace Sys2Proof

/-- A command word, decoded. -/
inductive Instr where
  /-- NOP, `nop` (40_control.md R90). -/
  | nop
  /-- ERR_CLEAR, `err.clear` (R91). -/
  | errClear
  /-- OUT_CLEAR, `out.clear` (R92). -/
  | outClear
  /-- BS_CLEAR, `bs.clear` (41_bitstream.md R101). -/
  | bsClear
  /-- BS_WRITE_BIT, `bs.wbit t` (R102). -/
  | bsWbit (t : Bool)
  /-- BS_WRITE_BITS, `bs.wbits cnt`, CNT a natural 0..63 (R103). -/
  | bsWbits (cnt : Nat)
  /-- BS_READ_BIT, `bs.rbit` (R104). -/
  | bsRbit
  /-- BS_READ_BITS, `bs.rbits cnt`, CNT a natural 0..63 (R105). -/
  | bsRbits (cnt : Nat)
  /-- BS_GET_BUFFER, `bs.getbuf` (R106). -/
  | bsGetbuf
  /-- BS_LOAD, `bs.load` (R107). -/
  | bsLoad
  /-- FA_ANALYZE, `fa.analyze` (42_frequency.md R130). -/
  | faAnalyze
  /-- FA_ACCUM, `fa.accum` (R131). -/
  | faAccum
  /-- FA_READ, `fa.read b` (R132). -/
  | faRead (b : Byte)
  /-- FA_TOTAL, `fa.total` (R133). -/
  | faTotal
  /-- HT_BUILD, `ht.build` (43_tree.md R144). -/
  | htBuild
  /-- HT_GEN_CODES, `ht.codes` (R145). -/
  | htCodes
  /-- CT_LEN, `ct.len b` (R147). -/
  | ctLen (b : Byte)
  /-- CT_WORD, `ct.word b, w`, W a natural 0..3 (R148). -/
  | ctWord (b : Byte) (w : Nat)
  /-- ENC_SYMBOL, `enc.sym b` (44_encdec.md R170). -/
  | encSym (b : Byte)
  /-- ENC_BLOCK, `enc.block` (R171). -/
  | encBlock
  /-- DEC_SYMBOL, `dec.sym` (R173). -/
  | decSym
  /-- DEC_BLOCK, `dec.block` (R174). -/
  | decBlock
  /-- HDR_WRITE, `hdr.write` (45_codec.md R192). -/
  | hdrWrite
  /-- HDR_PARSE, `hdr.parse` (R194). -/
  | hdrParse
  /-- CODEC_COMPRESS, `codec.compress` (R196). -/
  | codecCompress
  /-- CODEC_DECOMPRESS, `codec.decompress` (R197). -/
  | codecDecompress
  deriving DecidableEq, Repr

end Sys2Proof
end

