-- ==== Sys2Proof/WellFormed.lean ====
section
/-! DEFINITION. Which terms of `Instr` are commands a word can spell: the ranges of the operand fields
CNT and W (30_encoding.md R71, R74). A byte and a bit operand are in range by their types. -/

namespace Sys2Proof

/-- CNT is a 6-bit field. -/
def cntInRange (cnt : Nat) : Bool := decide (cnt < 64)

/-- W is a 2-bit field. -/
def wordIndexInRange (w : Nat) : Bool := decide (w < 4)

/-- The operands of a command fit the fields of its format (30_encoding.md R72). -/
def Instr.wellFormed : Instr → Bool
  | .bsWbits cnt => cntInRange cnt
  | .bsRbits cnt => cntInRange cnt
  | .ctWord _ w => wordIndexInRange w
  | .nop => true
  | .errClear => true
  | .outClear => true
  | .bsClear => true
  | .bsWbit _ => true
  | .bsRbit => true
  | .bsGetbuf => true
  | .bsLoad => true
  | .faAnalyze => true
  | .faAccum => true
  | .faRead _ => true
  | .faTotal => true
  | .htBuild => true
  | .htCodes => true
  | .ctLen _ => true
  | .encSym _ => true
  | .encBlock => true
  | .decSym => true
  | .decBlock => true
  | .hdrWrite => true
  | .hdrParse => true
  | .codecCompress => true
  | .codecDecompress => true

end Sys2Proof
end

