-- ==== Sys2Proof/Decode.lean ====
section
/-! DEFINITION. The command encoding (30_encoding.md R70 to R77): the decoder of a value written to
CMD, total and rejecting by name, and after it the encoder, from the same tables. -/

namespace Sys2Proof

/-- The five formats (30_encoding.md R72). -/
inductive Format where
  | N | T | C | B | W
  deriving DecidableEq, Repr

/-- The bits of a command word that must equal the opcode (the mask column of 30_encoding.md R72). -/
def Format.mask : Format → BitVec 32
  | .N => 0xFFFFFFFF#32
  | .T => 0xFFFEFFFF#32
  | .C => 0xFFFFC0FF#32
  | .B => 0xFF00FFFF#32
  | .W => 0xFC00FFFF#32

/-- The operand fields of a command word (30_encoding.md R71), read as R74 says. -/
structure Fields where
  cnt : Nat
  b : Byte
  w : Nat
  deriving DecidableEq, Repr

/-- CNT = v[13:8], B = v[23:16], W = v[25:24] (30_encoding.md R71, R73). -/
def fieldsOf (v : Word) : Fields :=
  { cnt := (v.extractLsb' 8 6).toNat, b := v.extractLsb' 16 8, w := (v.extractLsb' 24 2).toNat }

/-- The opcode map (30_encoding.md R75): an assigned opcode's format, and its command with the fields
`f`. The bit operand of BS_WRITE_BIT is B[0] (41_bitstream.md R102). -/
def opcodeMap (op : Nat) (f : Fields) : Option (Format × Instr) :=
  match op with
  | 0x00 => some (.N, .nop)
  | 0x01 => some (.N, .errClear)
  | 0x02 => some (.N, .outClear)
  | 0x10 => some (.N, .bsClear)
  | 0x11 => some (.T, .bsWbit (f.b.getLsbD 0))
  | 0x12 => some (.C, .bsWbits f.cnt)
  | 0x13 => some (.N, .bsRbit)
  | 0x14 => some (.C, .bsRbits f.cnt)
  | 0x15 => some (.N, .bsGetbuf)
  | 0x16 => some (.N, .bsLoad)
  | 0x20 => some (.N, .faAnalyze)
  | 0x21 => some (.N, .faAccum)
  | 0x22 => some (.B, .faRead f.b)
  | 0x23 => some (.N, .faTotal)
  | 0x30 => some (.N, .htBuild)
  | 0x31 => some (.N, .htCodes)
  | 0x32 => some (.B, .ctLen f.b)
  | 0x33 => some (.W, .ctWord f.b f.w)
  | 0x40 => some (.B, .encSym f.b)
  | 0x41 => some (.N, .encBlock)
  | 0x42 => some (.N, .decSym)
  | 0x43 => some (.N, .decBlock)
  | 0x50 => some (.N, .hdrWrite)
  | 0x51 => some (.N, .hdrParse)
  | 0x60 => some (.N, .codecCompress)
  | 0x61 => some (.N, .codecDecompress)
  | _ => none

/-- Why a value written to CMD is no command (30_encoding.md R76). All three raise ILLEGAL_COMMAND. -/
inductive Illegal where
  /-- CMD[63:32] is not zero. -/
  | highBitsSet
  /-- The opcode is not in the map of R75. -/
  | unassignedOpcode
  /-- A bit outside the fields of the opcode's format is 1. -/
  | reservedBitSet
  deriving DecidableEq, Repr

/-- The decoder of 30_encoding.md R73, total on any 64-bit value. -/
def decode (v : Word) : Except Illegal Instr :=
  if v.extractLsb' 32 32 ≠ 0#32 then .error .highBitsSet
  else
    match opcodeMap (v.extractLsb' 0 8).toNat (fieldsOf v) with
    | none => .error .unassignedOpcode
    | some (fmt, i) =>
      if v.extractLsb' 0 32 &&& fmt.mask ≠ (v.extractLsb' 0 8).setWidth 32 then
        .error .reservedBitSet
      else .ok i

/-- A word of format N: `000000000000000000000000oooooooo` (30_encoding.md R72). -/
def wordN (op : BitVec 8) : Word := (0#24 ++ op).setWidth 64

/-- A word of format T: `000000000000000t00000000oooooooo`. -/
def wordT (op : BitVec 8) (t : Bool) : Word := (0#15 ++ BitVec.ofBool t ++ 0#8 ++ op).setWidth 64

/-- A word of format C: `000000000000000000ccccccoooooooo`. -/
def wordC (op : BitVec 8) (cnt : Nat) : Word := (0#18 ++ BitVec.ofNat 6 cnt ++ op).setWidth 64

/-- A word of format B: `00000000bbbbbbbb00000000oooooooo`. -/
def wordB (op : BitVec 8) (b : Byte) : Word := (0#8 ++ b ++ 0#8 ++ op).setWidth 64

/-- A word of format W: `000000wwbbbbbbbb00000000oooooooo`. -/
def wordW (op : BitVec 8) (b : Byte) (w : Nat) : Word :=
  (0#6 ++ BitVec.ofNat 2 w ++ b ++ 0#8 ++ op).setWidth 64

/-- The value a host writes to CMD for a well-formed command (30_encoding.md R72, R75, R78). -/
def encode : Instr → Word
  | .nop => wordN 0x00#8
  | .errClear => wordN 0x01#8
  | .outClear => wordN 0x02#8
  | .bsClear => wordN 0x10#8
  | .bsWbit t => wordT 0x11#8 t
  | .bsWbits cnt => wordC 0x12#8 cnt
  | .bsRbit => wordN 0x13#8
  | .bsRbits cnt => wordC 0x14#8 cnt
  | .bsGetbuf => wordN 0x15#8
  | .bsLoad => wordN 0x16#8
  | .faAnalyze => wordN 0x20#8
  | .faAccum => wordN 0x21#8
  | .faRead b => wordB 0x22#8 b
  | .faTotal => wordN 0x23#8
  | .htBuild => wordN 0x30#8
  | .htCodes => wordN 0x31#8
  | .ctLen b => wordB 0x32#8 b
  | .ctWord b w => wordW 0x33#8 b w
  | .encSym b => wordB 0x40#8 b
  | .encBlock => wordN 0x41#8
  | .decSym => wordN 0x42#8
  | .decBlock => wordN 0x43#8
  | .hdrWrite => wordN 0x50#8
  | .hdrParse => wordN 0x51#8
  | .codecCompress => wordN 0x60#8
  | .codecDecompress => wordN 0x61#8

/-- The 64-bit value whose low `nbits` bits are the bits of `w` and whose other bits are 0: the CMD
value of an instruction that spec/opcode_table.json gives `nbits` bits (log entry 16). -/
def commandValue (nbits w : Nat) : Word := BitVec.ofNat 64 (w % 2 ^ nbits)

/-- The command the decoder reads from an instruction whose bits are `w`, numbered as
spec/opcode_table.json numbers them; every bit above `nbits`, CMD[63:32] among them, is 0. -/
def decodeTableWord (nbits w : Nat) : Option Instr :=
  match decode (commandValue nbits w) with
  | .ok i => some i
  | .error _ => none

end Sys2Proof
end

