-- ==== Sys2Proof/Config.lean ====
section
/-! DEFINITION. What an implementation fixes (the three capacities) and the values the spec leaves
free (buffer bytes whose contents are unspecified). -/

namespace Sys2Proof

/-- The implementation parameters of the block (00_scope.md R5, 92_eei_decisions.md D8, `OPEN`). They
are data that a model takes as an argument: `Machine.State` carries them and no step changes them. -/
structure Capacities where
  /-- IN_CAP, the byte capacity of IN. -/
  inCap : Nat
  /-- OUT_CAP, the byte capacity of OUT. -/
  outCap : Nat
  /-- BS_CAP_BITS, the bit capacity of the BitStream buffer. -/
  bsCapBits : Nat
  deriving DecidableEq, Repr

/-- The ranges 00_scope.md R5 gives the parameters. -/
abbrev Capacities.legal (c : Capacities) : Prop :=
  (1 ≤ c.inCap ∧ c.inCap ≤ 2 ^ 64 - 1) ∧ (1 ≤ c.outCap ∧ c.outCap ≤ 2 ^ 64 - 1) ∧
  (8 ≤ c.bsCapBits ∧ c.bsCapBits ≤ 2 ^ 64 - 1 ∧ 8 ∣ c.bsCapBits)

/-- The capacities of `State.reset`: those the conventions of 95_test_vectors.md name. DESIGN CHOICE,
unsafe (log entry 1): the spec leaves them open, and no statement rests on these values. -/
def Config.defaultCapacities : Capacities :=
  { inCap := 4096, outCap := 4096, bsCapBits := 1048576 }

/-- What a host read of IN byte `a` returns while that byte is unwritten since power-up: a FREE VALUE
(10_state.md R42). Only the address decides it, because nothing but a host write changes an IN byte.
DESIGN CHOICE, safe (log entry 6). -/
opaque Config.freeInByte : Nat → Byte

/-- What a host read of OUT byte `a` at or above OUT_LEN returns: a FREE VALUE
(93_implementation_defined.md U5). Its first argument is `State.epoch`, so that two reads with no
write between return one value (20_memory.md R61) and nothing else is known. DESIGN CHOICE, safe
(log entry 7). -/
opaque Config.freeOutByte : Nat → Nat → Byte

end Sys2Proof
end

