-- ==== Sys2Proof/Machine/State.lean ====
section
/-! DEFINITION. The state of the block (10_state.md R20), the host's pending actions, and the reasons
a step can stop. All of it is plain data. -/

namespace Sys2Proof.Machine

/-- The values of STATUS.ERR (60_exceptions.md R220). Codes 10 to 255 are never written, so there is
no constructor for them. -/
inductive Err where
  /-- Code 0: no error. -/
  | none
  /-- Code 1 (R221). -/
  | outOfRange
  /-- Code 2 (R222). -/
  | endOfStream
  /-- Code 3 (R223). -/
  | malformedHeader
  /-- Code 4 (R224). -/
  | corruptPayload
  /-- Code 5 (R225). -/
  | emptyFreqTable
  /-- Code 6 (R226). -/
  | codeTableMiss
  /-- Code 7 (R227). -/
  | illegalCommand
  /-- Code 8 (R228). -/
  | capacityExceeded
  /-- Code 9 (R229). -/
  | noTree
  deriving DecidableEq, Repr

/-- Why the model stops with a fault. -/
inductive Fault where
  /-- A command read the IN byte at this address, which the host never wrote. Raised by every command
  that reads IN (20_memory.md R51), through `Machine.inRead`. The spec itself asks for this fault
  (93_implementation_defined.md U4). Safe: the hardware goes on with an unspecified value. -/
  | unwrittenInput (address : Nat)
  deriving DecidableEq, Repr

/-- Why the model has no step for a host action. -/
inductive Refusal where
  /-- An instruction that has no meaning yet; raised by `exec` alone. Safe. -/
  | notModelled (mnemonic : String)
  /-- A register access of another width than 8 bytes (20_memory.md R57); raised by
  `Machine.perform`. Safe: the spec defines no effect and asks for a refusal
  (93_implementation_defined.md U6). -/
  | registerWidth (bytes : Nat)
  /-- A register access at an offset that is no multiple of 8 (R57, U6); raised by
  `Machine.perform`. Safe. -/
  | registerUnaligned (offset : Nat)
  /-- A register access outside the 0x100 bytes of the window (20_memory.md R62, U6); raised by
  `Machine.perform`. Safe. -/
  | registerOutsideWindow (offset : Nat)
  /-- A host access to IN at or above IN_CAP (10_state.md R40, U6); raised by `Machine.perform`. Safe. -/
  | inputAddress (address : Nat)
  /-- A host access to OUT at or above OUT_CAP (10_state.md R40, U6); raised by `Machine.perform`. Safe. -/
  | outputAddress (address : Nat)
  /-- Any other host access outside the forms of 10_state.md R40 (a write to OUT, a wide access to IN
  or OUT; U6); raised by `Machine.perform`. Safe. -/
  | undefinedHostAccess
  deriving DecidableEq, Repr

/-- The tree type of 10_state.md R33. A frequency is a natural here; that each fits a u64 is part of
`Machine.StateInv` (log entry 8). -/
inductive HTree where
  | leaf (sym : Byte) (freq : Nat)
  | node (freq : Nat) (left right : HTree)
  deriving DecidableEq, Repr

/-- The root of 10_state.md R33: `None`; `Wrap(freq, Leaf(sym, leafFreq))`; `Full(Node(freq, left,
right))`, so that the root of a full tree is a node by its type. -/
inductive Root where
  | none
  | wrap (freq : Nat) (sym : Byte) (leafFreq : Nat)
  | full (freq : Nat) (left right : HTree)
  deriving DecidableEq, Repr

/-- A byte buffer: (address, byte) pairs for the bytes written since power-up, in the canonical form
`Mem.wf` (strictly rising addresses). An address that is not listed reads as no value, so a byte once
written stays listed. -/
abbrev Mem := List Host.Cell

/-- The frequency table FT (10_state.md R32). -/
abbrev FreqTable := ByteTable Word

/-- The code table CT (10_state.md R35). -/
abbrev CodeTable := ByteTable (Option Bits)

/-- The host actions (10_state.md R40). A register access carries its width in bytes, so that the
accesses 20_memory.md R57 leaves undefined can be written down and refused. -/
inductive HostAction where
  /-- The reset action (70_reset_and_hazards.md R250). -/
  | reset
  /-- `write_reg(off, v)`, defined for `bytes = 8`. -/
  | writeReg (bytes off : Nat) (v : Word)
  /-- `read_reg(off)`, defined for `bytes = 8`. -/
  | readReg (bytes off : Nat)
  /-- `write_in(a, x)`. -/
  | writeIn (a : Nat) (x : Byte)
  /-- `read_in(a)`. -/
  | readIn (a : Nat)
  /-- `read_out(a)`. -/
  | readOut (a : Nat)
  /-- Any other access to the block's spaces (a write to OUT, a wide access to IN or OUT). -/
  | other
  deriving DecidableEq, Repr

/-- What the last host read returned. -/
inductive Reply where
  | none
  | word (v : Word)
  | byte (x : Byte)
  deriving DecidableEq, Repr

/-- The state of the block, its parameters, and the host beside it. -/
structure State where
  /-- IN_CAP, OUT_CAP and BS_CAP_BITS (00_scope.md R5); no step changes them. -/
  caps : Capacities
  /-- OPND (10_state.md R22). -/
  opnd : Word
  /-- RES (R23). -/
  res : Word
  /-- STATUS.ERR (R25). -/
  err : Err
  /-- IN_LEN (R26). -/
  inLen : Word
  /-- OUT_LEN (R31), a natural. -/
  outLen : Nat
  /-- BS, the written bits; BS_WR is its length (R27, R28). -/
  bs : Bits
  /-- BS_RD (R29), a natural. -/
  bsRd : Nat
  /-- FT (R32). -/
  ft : FreqTable
  /-- TREE (R33). -/
  tree : Root
  /-- CT (R35). -/
  ct : CodeTable
  /-- IN: the bytes the host has written since power-up (R36, R42). -/
  inBuf : Mem
  /-- OUT: the bytes the block has written since power-up (R37). -/
  outBuf : Mem
  /-- The host's actions still to come, oldest first (the model's own field, log entry 2). -/
  host : List HostAction
  /-- What the last host read returned (the model's own field, log entry 3). -/
  reply : Reply
  /-- Advanced by every host action but a read (the model's own field, log entry 7). -/
  epoch : Nat
  deriving DecidableEq, Repr

/-- The state after power-up with the capacities `c` (10_state.md R41, R42). -/
def State.powerUp (c : Capacities) : State :=
  { caps := c
    opnd := 0#64
    res := 0#64
    err := .none
    inLen := 0#64
    outLen := 0
    bs := []
    bsRd := 0
    ft := Vector.replicate 256 0#64
    tree := .none
    ct := Vector.replicate 256 Option.none
    inBuf := []
    outBuf := []
    host := []
    reply := .none
    epoch := 0 }

/-- The machine right after power-up reset (10_state.md R41). The capacities are a DESIGN CHOICE, unsafe
(log entry 1). -/
def State.reset : State := State.powerUp Config.defaultCapacities

end Sys2Proof.Machine
end

