-- ==== Sys2Proof/Machine/Flags.lean ====
section
/-! DEFINITION. The STATUS register and the other registers that are views of the state: error codes
(60_exceptions.md R220), TV (10_state.md R25) and BS_WR (R28). The block has no condition codes. -/

namespace Sys2Proof.Machine

/-- The code of an error kind (60_exceptions.md R220). -/
def Err.code : Err → BitVec 8
  | .none => 0#8
  | .outOfRange => 1#8
  | .endOfStream => 2#8
  | .malformedHeader => 3#8
  | .corruptPayload => 4#8
  | .emptyFreqTable => 5#8
  | .codeTableMiss => 6#8
  | .illegalCommand => 7#8
  | .capacityExceeded => 8#8
  | .noTree => 9#8

/-- STATUS.TV: 1 exactly when TREE is not None (10_state.md R25). -/
def State.tv (s : State) : Bool :=
  match s.tree with
  | .none => false
  | .wrap _ _ _ => true
  | .full _ _ _ => true

/-- STATUS: ERR in bits [7:0], TV in bit [8], 0 above (10_state.md R25). -/
def State.status (s : State) : Word := (0#55 ++ BitVec.ofBool s.tv ++ s.err.code : BitVec 64)

/-- BS_WR, the number of bits written: `len(BS) = BS_WR` (10_state.md R27, R28). -/
def State.bsWr (s : State) : Nat := s.bs.length

end Sys2Proof.Machine
end

