-- ==== Sys2Proof/Machine/Operands.lean ====
section
/-! DEFINITION. The operand forms: bit sequences and their values (00_scope.md R10), the byte view of
the BitStream (20_memory.md R55), little-endian integers (R56), tables indexed by a byte, and the
register operands (30_encoding.md R74). -/

namespace Sys2Proof.Machine

/-- `bits_msb(v, n)` of 00_scope.md R10: `[v[n-1], ..., v[0]]`. -/
def bitsMsb (v : Nat) : Nat → Bits
  | 0 => []
  | n + 1 => v.testBit n :: bitsMsb v n

/-- `val_msb(s)` of 00_scope.md R10: the value of a bit sequence, its first bit the most significant. -/
def valMsb (s : Bits) : Nat := s.foldl (fun acc b => 2 * acc + b.toNat) 0

/-- `b(i)` of 20_memory.md R55: the bit at position `i`, 0 at and past the end. -/
def bitOrZero (s : Bits) (i : Nat) : Bool := s.getD i false

/-- Byte `j` of the byte view of a bit sequence (20_memory.md R55): position `8j + k` at bit `7 - k`. -/
def packByte (s : Bits) (j : Nat) : Byte :=
  BitVec.ofNat 8 (valMsb ((List.range 8).map fun k => bitOrZero s (8 * j + k)))

/-- `bytes(BS)` of 20_memory.md R55: the `ceil(len / 8)` bytes covering a bit sequence. -/
def packBytes (s : Bits) : List Byte := (List.range ((s.length + 7) / 8)).map (packByte s)

/-- The bits of a byte list, each byte's most significant bit first (41_bitstream.md R107). -/
def unpackBytes (l : List Byte) : Bits := l.flatMap fun x => bitsMsb x.toNat 8

/-- `le_bytes_n(v)` of 00_scope.md R11. -/
def leBytes (v : Nat) : Nat → List Byte
  | 0 => []
  | n + 1 => BitVec.ofNat 8 v :: leBytes (v / 2 ^ 8) n

/-- `le_u32` and `le_u64` of 00_scope.md R11, on the bytes read: the first byte is the least
significant. -/
def leNat : List Byte → Nat
  | [] => 0
  | x :: xs => x.toNat + 2 ^ 8 * leNat xs

/-- The entry of byte `b`. -/
def lookup {α : Type} (t : ByteTable α) (b : Byte) : α := t[b.toNat]'b.isLt

/-- The table with the entry of byte `b` replaced. -/
def update {α : Type} (t : ByteTable α) (b : Byte) (x : α) : ByteTable α := t.set b.toNat x b.isLt

/-- The table with `f` applied to every entry. -/
def mapTable {α β : Type} (f : α → β) (t : ByteTable α) : ByteTable β :=
  ⟨(t.toList.map f).toArray, by simp⟩

/-- The byte values in ascending order, the iteration order of FT (10_state.md R32). -/
def allBytes : List Byte := (List.range 256).map (BitVec.ofNat 8)

/-- The value operand of BS_WRITE_BITS: OPND[31:0] (41_bitstream.md R103). -/
def State.opndValue (s : State) : Nat := (s.opnd.extractLsb' 0 32).toNat

/-- The offset operand of BS_LOAD and the count operand of DEC_BLOCK: OPND as an unsigned number
(41_bitstream.md R107, 44_encdec.md R174). -/
def State.opndNat (s : State) : Nat := s.opnd.toNat

/-- IN_LEN as an unsigned number (10_state.md R26). -/
def State.inLenNat (s : State) : Nat := s.inLen.toNat

end Sys2Proof.Machine
end

