-- ==== Sys2Proof/Machine/Ops.lean ====
section
/-! DEFINITION. The shared operations: the byte buffers IN and OUT, the outcome of a command and of the
steps it is made of, raising and clearing an error (60_exceptions.md section 2 and 3), OutAppend, and
the accesses to the BitStream. -/

namespace Sys2Proof.Machine

/-! ### Byte buffers -/

/-- The canonical form of a buffer: strictly rising addresses. -/
abbrev Mem.wf (m : Mem) : Prop := m.Pairwise fun x y => x.1 < y.1

/-- The byte at an address, if it has been written since power-up. -/
def Mem.read : Mem → Nat → Option Byte
  | [], _ => Option.none
  | c :: m, a => if c.1 = a then some c.2 else Mem.read m a

/-- Write one byte, keeping the addresses strictly rising. -/
def Mem.write : Mem → Nat → Byte → Mem
  | [], a, x => [(a, x)]
  | c :: m, a, x =>
    if a < c.1 then (a, x) :: c :: m
    else if a = c.1 then (a, x) :: m
    else c :: Mem.write m a x

/-- Write a byte list at consecutive addresses from `a` on. -/
def Mem.writeList (m : Mem) (a : Nat) : List Byte → Mem
  | [] => m
  | x :: xs => Mem.writeList (Mem.write m a x) (a + 1) xs

/-! ### The outcome of a step of a command -/

/-- Why an operation gives no result: it raises an error of the block, or it faults the model. -/
inductive Halt where
  | err (e : Err)
  | fault (f : Fault)
  deriving DecidableEq, Repr

/-- How a command, or a part of one, ends. `raised e s` ends with error `e` and leaves the state `s`
(60_exceptions.md R233); STATUS.ERR is written once, at the end, by `Run.outcome`. -/
inductive Run where
  | done (s : State)
  | raised (e : Err) (s : State)
  | stopped (f : Fault)
  deriving DecidableEq, Repr

/-- A primitive command as a step: on an error nothing of it is applied (60_exceptions.md R232). -/
def primitive (r : Except Halt State) (s : State) : Run :=
  match r with
  | .ok s' => .done s'
  | .error (.err e) => .raised e s
  | .error (.fault f) => .stopped f

/-- One step, then the next; the first error ends the sequence (60_exceptions.md R233). -/
def Run.andThen (r : Run) (k : State → Run) : Run :=
  match r with
  | .done s => k s
  | .raised e s => .raised e s
  | .stopped f => .stopped f

/-- A failed composite command sets OUT_LEN to 0 (60_exceptions.md R234). -/
def Run.clearOutOnError (r : Run) : Run :=
  match r with
  | .done s => .done s
  | .raised e s => .raised e { s with outLen := 0 }
  | .stopped f => .stopped f

/-- TAKING AN ERROR, the block's only "trap entry": STATUS.ERR <- code and nothing else
(60_exceptions.md R231, R239). -/
def State.raiseError (s : State) (e : Err) : State := { s with err := e }

/-- THE RETURN FROM AN ERROR: STATUS.ERR <- 0 and nothing else (60_exceptions.md R236). -/
def State.clearError (s : State) : State := { s with err := .none }

/-- What the machine answers when a command ends. An error is a next state. -/
def Run.outcome (r : Run) : Host.Outcome State Fault Refusal :=
  match r with
  | .done s => .next s
  | .raised e s => .next (s.raiseError e)
  | .stopped f => .fault f

/-! ### IN -/

/-- `InRead(a)` (00_scope.md R11): a byte the host never wrote faults the model
(93_implementation_defined.md U4). -/
def inRead (s : State) (a : Nat) : Except Halt Byte :=
  match Mem.read s.inBuf a with
  | some x => .ok x
  | Option.none => .error (.fault (.unwrittenInput a))

/-- The `n` bytes of IN from address `a` on, read in ascending order (20_memory.md R51). -/
def inReadList (s : State) : Nat → Nat → Except Halt (List Byte)
  | _, 0 => .ok []
  | a, n + 1 =>
    match inRead s a with
    | .error h => .error h
    | .ok x =>
      match inReadList s (a + 1) n with
      | .error h => .error h
      | .ok xs => .ok (x :: xs)

/-! ### OUT -/

/-- `OutAppend(L)` (20_memory.md R54): all or nothing. -/
def outAppend (l : List Byte) (s : State) : Except Halt State :=
  if s.outLen + l.length > s.caps.outCap then .error (.err .capacityExceeded)
  else
    .ok { s with
      outBuf := Mem.writeList s.outBuf s.outLen l
      outLen := s.outLen + l.length }

/-! ### The BitStream -/

/-- Append bits at BS_WR, refused whole when they do not fit (41_bitstream.md R100, 60_exceptions.md
R228). BS_RD does not move. -/
def appendBits (l : Bits) (s : State) : Except Halt State :=
  if s.bsWr + l.length > s.caps.bsCapBits then .error (.err .capacityExceeded)
  else .ok { s with bs := s.bs ++ l }

/-- The bits from BS_RD up to BS_WR, in the order reads take them. -/
def State.unread (s : State) : Bits := s.bs.drop s.bsRd

/-- The empty stream with both cursors at 0 (41_bitstream.md R101). -/
def clearStream (s : State) : State := { s with bs := [], bsRd := 0 }

/-- `load_from_buffer` on IN[off .. IN_LEN-1] (41_bitstream.md R107): BS_LOAD takes `off` from OPND,
CODEC_DECOMPRESS from the header (45_codec.md R197). -/
def loadStream (off : Nat) (s : State) : Except Halt State :=
  if s.inLenNat > s.caps.inCap then .error (.err .outOfRange)
  else if off > s.inLenNat then .error (.err .outOfRange)
  else if 8 * (s.inLenNat - off) > s.caps.bsCapBits then .error (.err .capacityExceeded)
  else
    match inReadList s off (s.inLenNat - off) with
    | .error h => .error h
    | .ok l => .ok { s with bs := unpackBytes l, bsRd := 0 }

/-! ### FT -/

/-- The frequency sum, as an unbounded natural (10_state.md R32). -/
def freqSum (t : FreqTable) : Nat := (t.toList.map BitVec.toNat).sum

/-- The bytes of the entries that are not 0 in a list of entries, the first that of byte `i`. -/
def keysFrom : Nat → List Word → List Byte
  | _, [] => []
  | i, f :: l => if f = 0#64 then keysFrom (i + 1) l else BitVec.ofNat 8 i :: keysFrom (i + 1) l

/-- The keys of a table in its iteration order, ascending byte value (10_state.md R32). -/
def keys (t : FreqTable) : List Byte := keysFrom 0 t.toList

/-- The table with every entry 0. -/
def emptyFreq : FreqTable := Vector.replicate 256 0#64

/-! ### CT -/

/-- The table with every entry none. -/
def emptyCodes : CodeTable := Vector.replicate 256 Option.none

end Sys2Proof.Machine
end

