-- ==== Sys2Proof/Machine/BitStream.lean ====
section
/-! DEFINITION. The BitStream commands (41_bitstream.md). Each is atomic (R100). -/

namespace Sys2Proof.Machine

/-- BS_CLEAR (41_bitstream.md R101). -/
def execBsClear (s : State) : Host.Outcome State Fault Refusal := (Run.done (clearStream s)).outcome

/-- BS_WRITE_BIT: append the bit t (R102). -/
def execBsWbit (t : Bool) (s : State) : Host.Outcome State Fault Refusal :=
  (primitive (appendBits [t] s) s).outcome

/-- BS_WRITE_BITS: append the low CNT bits of OPND[31:0], bit CNT-1 first (R103). -/
def writeBits (cnt : Nat) (s : State) : Except Halt State :=
  if cnt > 32 then .error (.err .outOfRange) else appendBits (bitsMsb s.opndValue cnt) s

/-- BS_WRITE_BITS (R103). -/
def execBsWbits (cnt : Nat) (s : State) : Host.Outcome State Fault Refusal :=
  (primitive (writeBits cnt s) s).outcome

/-- BS_READ_BIT: RES <- the bit at BS_RD (R104). No bit stands at BS_RD exactly when BS_RD has reached
BS_WR (log entry 14). -/
def readBit (s : State) : Except Halt State :=
  match s.bs[s.bsRd]? with
  | Option.none => .error (.err .endOfStream)
  | some b => .ok { s with res := BitVec.ofNat 64 b.toNat, bsRd := s.bsRd + 1 }

/-- BS_READ_BIT (R104). -/
def execBsRbit (s : State) : Host.Outcome State Fault Refusal := (primitive (readBit s) s).outcome

/-- BS_READ_BITS: RES <- the value of the CNT bits at BS_RD, the first the most significant; both
checks are made before any bit is consumed (R105). -/
def readBits (cnt : Nat) (s : State) : Except Halt State :=
  if cnt > 32 then .error (.err .outOfRange)
  else if s.bsRd + cnt > s.bsWr then .error (.err .endOfStream)
  else
    .ok { s with
      res := BitVec.ofNat 64 (valMsb (s.unread.take cnt))
      bsRd := s.bsRd + cnt }

/-- BS_READ_BITS (R105). -/
def execBsRbits (cnt : Nat) (s : State) : Host.Outcome State Fault Refusal :=
  (primitive (readBits cnt s) s).outcome

/-- BS_GET_BUFFER: append bytes(BS) to OUT; the stream and its cursors do not change (R106). -/
def getBuffer (s : State) : Except Halt State := outAppend (packBytes s.bs) s

/-- BS_GET_BUFFER (R106). -/
def execBsGetbuf (s : State) : Host.Outcome State Fault Refusal := (primitive (getBuffer s) s).outcome

/-- BS_LOAD: load IN[OPND .. IN_LEN-1] (R107). -/
def execBsLoad (s : State) : Host.Outcome State Fault Refusal :=
  (primitive (loadStream s.opndNat s) s).outcome

end Sys2Proof.Machine
end

