-- ==== Sys2Proof/Machine/EncDec.lean ====
section
/-! DEFINITION. The symbol encoder and decoder (44_encdec.md). -/

namespace Sys2Proof.Machine

/-- ENC_SYMBOL: append the code of b (44_encdec.md R170). -/
def encodeSymbol (b : Byte) (s : State) : Except Halt State :=
  match lookup s.ct b with
  | Option.none => .error (.err .codeTableMiss)
  | some c => appendBits c s

/-- ENC_SYMBOL (R170). -/
def execEncSym (b : Byte) (s : State) : Host.Outcome State Fault Refusal :=
  (primitive (encodeSymbol b s) s).outcome

/-- One step of ENC_BLOCK's loop: ENC_SYMBOL with b = InRead(a) (R171). -/
def encodeAt (a : Nat) (s : State) : Except Halt State :=
  match inRead s a with
  | .error h => .error h
  | .ok b => encodeSymbol b s

/-- ENC_BLOCK's loop over `n` addresses from `a` on, ascending (R171). -/
def encodeLoop : Nat → Nat → State → Run
  | 0, _, s => .done s
  | n + 1, a, s => (primitive (encodeAt a s) s).andThen (encodeLoop n (a + 1))

/-- ENC_BLOCK: a block command over IN[0 .. IN_LEN-1] (R171). -/
def encodeBlock (s : State) : Run :=
  if s.inLenNat > s.caps.inCap then .raised .outOfRange s else encodeLoop s.inLenNat 0 s

/-- ENC_BLOCK (R171). -/
def execEncBlock (s : State) : Host.Outcome State Fault Refusal := (encodeBlock s).outcome

/-- The traversal of 44_encdec.md R172 from a node over the unread bits: right on 1, left on 0, to a
leaf. It gives the leaf's byte and the number of bits read, or nothing when the bits end first. -/
def traverse : HTree → Bits → Option (Byte × Nat)
  | .leaf b _, _ => some (b, 0)
  | .node _ _ _, [] => Option.none
  | .node _ l r, bit :: rest =>
    match (match bit with | true => traverse r rest | false => traverse l rest) with
    | Option.none => Option.none
    | some (b, n) => some (b, n + 1)

/-- The traversal from a root: the wrapper reads one bit of any value (44_encdec.md R172). A model of
R172 may leave out the `no child on the required side` arm, which no built tree reaches
(93_implementation_defined.md U13). -/
def traverseRoot : Root → Bits → Option (Byte × Nat)
  | .none, _ => Option.none
  | .wrap _ _ _, [] => Option.none
  | .wrap _ b _, _ :: _ => some (b, 1)
  | .full f l r, bits => traverse (.node f l r) bits

/-- `decode_one()` (44_encdec.md R172): the decoded byte and the number of bits it consumed. An error
consumes no bit. -/
def decodeOne (s : State) : Except Halt (Byte × Nat) :=
  if s.tv then
    match traverseRoot s.tree s.unread with
    | Option.none => .error (.err .corruptPayload)
    | some r => .ok r
  else .error (.err .noTree)

/-- DEC_SYMBOL: RES <- the decoded byte (R173). -/
def decodeSymbol (s : State) : Except Halt State :=
  match decodeOne s with
  | .error h => .error h
  | .ok (b, n) => .ok { s with res := b.setWidth 64, bsRd := s.bsRd + n }

/-- DEC_SYMBOL (R173). -/
def execDecSym (s : State) : Host.Outcome State Fault Refusal := (primitive (decodeSymbol s) s).outcome

/-- One step of DEC_BLOCK's loop: decode a symbol and append it to OUT; a symbol that does not fit
consumes no bit (R174). -/
def decodeAppend (s : State) : Except Halt State :=
  match decodeOne s with
  | .error h => .error h
  | .ok (b, n) => outAppend [b] { s with bsRd := s.bsRd + n }

/-- DEC_BLOCK's loop of `k` symbols (R174), also that of CODEC_DECOMPRESS (45_codec.md R197). -/
def decodeLoop : Nat → State → Run
  | 0, s => .done s
  | k + 1, s => (primitive (decodeAppend s) s).andThen (decodeLoop k)

/-- DEC_BLOCK: a block command of OPND symbols; NO_TREE is checked before the loop (R174). -/
def decodeBlock (s : State) : Run :=
  if s.tv then decodeLoop s.opndNat s else .raised .noTree s

/-- DEC_BLOCK (R174). -/
def execDecBlock (s : State) : Host.Outcome State Fault Refusal := (decodeBlock s).outcome

end Sys2Proof.Machine
end

