-- ==== Sys2Proof/Machine/Frequency.lean ====
section
/-! DEFINITION. The frequency-analyser commands (42_frequency.md). Counts are unbounded naturals inside
a command and 64-bit entries in FT. -/

namespace Sys2Proof.Machine

/-- Count one byte. -/
def countByte (t : ByteTable Nat) (b : Byte) : ByteTable Nat := update t b (lookup t b + 1)

/-- Count a byte list, in one pass (42_frequency.md R130, R131). -/
def countBytes (t : ByteTable Nat) (l : List Byte) : ByteTable Nat := l.foldl countByte t

/-- The table that counts start from in FA_ANALYZE. -/
def zeroCounts : ByteTable Nat := Vector.replicate 256 0

/-- A frequency table's entries as naturals. -/
def countsOf (t : FreqTable) : ByteTable Nat := mapTable BitVec.toNat t

/-- Counts stored as 64-bit entries; the commands store only counts that fit (00_scope.md R9; log
entry 11). -/
def storeCounts (t : ByteTable Nat) : FreqTable := mapTable (BitVec.ofNat 64) t

/-- IN[0 .. IN_LEN-1], checked against IN_CAP first (60_exceptions.md R221). -/
def inputBytes (s : State) : Except Halt (List Byte) :=
  if s.inLenNat > s.caps.inCap then .error (.err .outOfRange) else inReadList s 0 s.inLenNat

/-- FA_ANALYZE (R130). -/
def analyze (s : State) : Except Halt State :=
  match inputBytes s with
  | .error h => .error h
  | .ok l => .ok { s with ft := storeCounts (countBytes zeroCounts l) }

/-- FA_ANALYZE (R130). -/
def execFaAnalyze (s : State) : Host.Outcome State Fault Refusal := (primitive (analyze s) s).outcome

/-- FA_ACCUM: the counts of one more chunk, refused when the new sum does not fit a u64 (R131). -/
def accumulate (s : State) : Except Halt State :=
  match inputBytes s with
  | .error h => .error h
  | .ok l =>
    if (countBytes (countsOf s.ft) l).toList.sum > 2 ^ 64 - 1 then .error (.err .capacityExceeded)
    else .ok { s with ft := storeCounts (countBytes (countsOf s.ft) l) }

/-- FA_ACCUM (R131). -/
def execFaAccum (s : State) : Host.Outcome State Fault Refusal := (primitive (accumulate s) s).outcome

/-- FA_READ: RES <- FT[b] (R132). -/
def execFaRead (b : Byte) (s : State) : Host.Outcome State Fault Refusal :=
  (Run.done { s with res := lookup s.ft b }).outcome

/-- FA_TOTAL: RES <- the sum of FT, which fits RES (R133, 10_state.md R32). -/
def execFaTotal (s : State) : Host.Outcome State Fault Refusal :=
  (Run.done { s with res := BitVec.ofNat 64 (freqSum s.ft) }).outcome

end Sys2Proof.Machine
end

