-- ==== Sys2Proof/Machine/TreeBuilder.lean ====
section
/-! DEFINITION. The tree builder and the code-table generator (43_tree.md). -/

namespace Sys2Proof.Machine

/-- The frequency of a node (43_tree.md R142). -/
def HTree.freq : HTree → Nat
  | .leaf _ f => f
  | .node f _ _ => f

/-- A node in the priority structure, with its sequence number (43_tree.md R141). -/
structure QEntry where
  seq : Nat
  tree : HTree
  deriving DecidableEq, Repr

/-- The key order of 43_tree.md R141: lower frequency first, then lower sequence number. -/
def QEntry.before (x y : QEntry) : Bool :=
  decide (x.tree.freq < y.tree.freq) || (decide (x.tree.freq = y.tree.freq) && decide (x.seq < y.seq))

/-- Insert into a queue kept in key order, so that its head is the node with the least key. -/
def enqueue (x : QEntry) : List QEntry → List QEntry
  | [] => [x]
  | y :: q => if x.before y then x :: y :: q else y :: enqueue x q

/-- The leaves of a table in iteration order, numbered from `i` on (43_tree.md R140). -/
def leavesFrom (t : FreqTable) (i : Nat) : List Byte → List QEntry
  | [] => []
  | b :: l => { seq := i, tree := .leaf b (lookup t b).toNat } :: leavesFrom t (i + 1) l

/-- The priority structure HT_BUILD starts with (43_tree.md R140, R141). -/
def seedQueue (t : FreqTable) : List QEntry := (leavesFrom t 0 (keys t)).foldr enqueue []

/-- The merge of the two nodes removed first (43_tree.md R142): the first is the left child. -/
def mergeNodes (x y : HTree) : HTree := .node (x.freq + y.freq) x y

/-- A tree as a root: a single leaf is wrapped (43_tree.md R143). -/
def HTree.toRoot : HTree → Root
  | .leaf b f => .wrap f b f
  | .node f l r => .full f l r

/-- The merge loop (43_tree.md R142), `seq` the next unused sequence number. `fuel` bounds the nodes in
the queue: every merge takes two and puts one back. -/
def mergeLoop : Nat → Nat → List QEntry → Root
  | 0, _, _ => .none
  | _ + 1, _, [] => .none
  | _ + 1, _, [x] => x.tree.toRoot
  | fuel + 1, seq, x :: y :: q =>
    mergeLoop fuel (seq + 1) (enqueue { seq := seq, tree := mergeNodes x.tree y.tree } q)

/-- The tree of a table (43_tree.md R144); none exactly for the table with no key. -/
def treeOf (t : FreqTable) : Root := mergeLoop (keys t).length (keys t).length (seedQueue t)

/-- HT_BUILD: TREE <- the tree of FT, and the old code table is discarded (43_tree.md R144). -/
def buildTree (s : State) : Except Halt State :=
  match keys s.ft with
  | [] => .error (.err .emptyFreqTable)
  | _ :: _ => .ok { s with tree := treeOf s.ft, ct := emptyCodes }

/-- HT_BUILD (R144). -/
def execHtBuild (s : State) : Host.Outcome State Fault Refusal := (primitive (buildTree s) s).outcome

/-- The walk of 43_tree.md R145: the codes of the leaves below a node reached by the path `p`. -/
def walk : HTree → Bits → CodeTable → CodeTable
  | .leaf b _, p, c => update c b (some p)
  | .node _ l r, p, c => walk r (p ++ [true]) (walk l (p ++ [false]) c)

/-- The code table of a root (43_tree.md R145). -/
def codesOf : Root → CodeTable
  | .none => emptyCodes
  | .wrap _ b _ => update emptyCodes b (some [false])
  | .full _ l r => walk r [true] (walk l [false] emptyCodes)

/-- HT_GEN_CODES: CT <- the codes of TREE (R145). -/
def generateCodes (s : State) : State := { s with ct := codesOf s.tree }

/-- HT_GEN_CODES (R145). -/
def execHtCodes (s : State) : Host.Outcome State Fault Refusal := (Run.done (generateCodes s)).outcome

/-- The length of a table entry, 0 for none (43_tree.md R147). -/
def codeLength : Option Bits → Nat
  | Option.none => 0
  | some c => c.length

/-- `c(i)` of 43_tree.md R148: a code's bit `i`, 0 past its end and for no code. -/
def codeBit : Option Bits → Nat → Bool
  | Option.none, _ => false
  | some c, i => bitOrZero c i

/-- CT_LEN: RES <- the length of the code of b (R147). -/
def execCtLen (b : Byte) (s : State) : Host.Outcome State Fault Refusal :=
  (Run.done { s with res := BitVec.ofNat 64 (codeLength (lookup s.ct b)) }).outcome

/-- Bits 64w to 64w+63 of a code, the first at bit 63 (43_tree.md R148). -/
def codeWord (c : Option Bits) (w : Nat) : Word :=
  BitVec.ofNat 64 (valMsb ((List.range 64).map fun k => codeBit c (64 * w + k)))

/-- CT_WORD: RES <- 64 bits of the code of b, left-aligned (R148). -/
def execCtWord (b : Byte) (w : Nat) (s : State) : Host.Outcome State Fault Refusal :=
  (Run.done { s with res := codeWord (lookup s.ct b) w }).outcome

end Sys2Proof.Machine
end

