-- ==== Sys2Proof/Machine/Codec.lean ====
section
/-! DEFINITION. The container header and the codec sequencer (45_codec.md). -/

namespace Sys2Proof.Machine

/-- One header entry: the byte value, then its frequency as a little-endian u64 (45_codec.md R190). -/
def headerEntry (t : FreqTable) (b : Byte) : List Byte := b :: leBytes (lookup t b).toNat 8

/-- `hdr(FT)` (45_codec.md R191): the symbol count as a little-endian u32, then the entries in
ascending byte order. -/
def header (t : FreqTable) : List Byte :=
  leBytes (keys t).length 4 ++ (keys t).flatMap (headerEntry t)

/-- HDR_WRITE: append hdr(FT) to OUT (R192). -/
def writeHeader (s : State) : Except Halt State := outAppend (header s.ft) s

/-- HDR_WRITE (R192). -/
def execHdrWrite (s : State) : Host.Outcome State Fault Refusal := (primitive (writeHeader s) s).outcome

/-- The entry loop of `parse_header()` (45_codec.md R193): `k` entries left, the next at IN address `a`,
`t` the table and `sum` the frequency sum so far. -/
def parseEntries (s : State) : Nat → Nat → FreqTable → Nat → Except Halt FreqTable
  | 0, _, t, _ => .ok t
  | k + 1, a, t, sum =>
    match inRead s a with
    | .error h => .error h
    | .ok b =>
      match inReadList s (a + 1) 8 with
      | .error h => .error h
      | .ok l =>
        if leNat l = 0 then .error (.err .malformedHeader)
        else if lookup t b ≠ 0#64 then .error (.err .malformedHeader)
        else if sum + leNat l > 2 ^ 64 - 1 then .error (.err .malformedHeader)
        else parseEntries s k (a + 9) (update t b (BitVec.ofNat 64 (leNat l))) (sum + leNat l)

/-- `parse_header()` (45_codec.md R193): the table and the header length `4 + 9k`. -/
def parseHeader (s : State) : Except Halt (FreqTable × Nat) :=
  if s.inLenNat < 4 then .error (.err .malformedHeader)
  else
    match inReadList s 0 4 with
    | .error h => .error h
    | .ok c =>
      if leNat c > 256 then .error (.err .malformedHeader)
      else if s.inLenNat < 4 + 9 * leNat c then .error (.err .malformedHeader)
      else
        match parseEntries s (leNat c) 4 emptyFreq 0 with
        | .error h => .error h
        | .ok t => .ok (t, 4 + 9 * leNat c)

/-- HDR_PARSE: FT <- the header's table, RES <- the header's length (R194). -/
def readHeader (s : State) : Except Halt State :=
  if s.inLenNat > s.caps.inCap then .error (.err .outOfRange)
  else
    match parseHeader s with
    | .error h => .error h
    | .ok (t, h) => .ok { s with ft := t, res := BitVec.ofNat 64 h }

/-- HDR_PARSE (R194). -/
def execHdrParse (s : State) : Host.Outcome State Fault Refusal := (primitive (readHeader s) s).outcome

/-- RES <- OUT_LEN, the last step of a composite command (45_codec.md R196, R197). -/
def resOutLen (s : State) : State := { s with res := BitVec.ofNat 64 s.outLen }

/-- Steps 2 to 4 of `compress`, once FA_ANALYZE has found a symbol (45_codec.md R196). -/
def compressSymbols (s : State) : Run :=
  (primitive (buildTree s) s).andThen fun s2 =>
  (Run.done (clearStream (generateCodes s2))).andThen fun s3 =>
  (encodeBlock s3).andThen fun s4 =>
  (primitive (writeHeader s4) s4).andThen fun s5 =>
  (primitive (getBuffer s5) s5).andThen fun s6 =>
  .done (resOutLen s6)

/-- The steps of CODEC_COMPRESS from OUT_LEN = 0 on (45_codec.md R196). -/
def compressSteps (s : State) : Run :=
  if s.inLenNat > s.caps.inCap then .raised .outOfRange s
  else
    (primitive (analyze s) s).andThen fun s1 =>
      match keys s1.ft with
      | [] => .done { s1 with res := 0#64 }
      | _ :: _ => compressSymbols s1

/-- CODEC_COMPRESS (R196): a composite command (R195). -/
def execCodecCompress (s : State) : Host.Outcome State Fault Refusal :=
  (compressSteps { s with outLen := 0 }).clearOutOnError.outcome

/-- Steps 2 to 4 of `decompress` on input that is not empty (45_codec.md R197). The payload starts at
the header's length, which HDR_PARSE has left in RES. -/
def decompressSymbols (s : State) : Run :=
  (primitive (readHeader s) s).andThen fun s1 =>
  (primitive (buildTree s1) s1).andThen fun s2 =>
  (primitive (loadStream s1.res.toNat s2) s2).andThen fun s3 =>
  (decodeLoop (freqSum s1.ft) s3).andThen fun s4 =>
  .done (resOutLen s4)

/-- The steps of CODEC_DECOMPRESS from OUT_LEN = 0 on (45_codec.md R197). -/
def decompressSteps (s : State) : Run :=
  if s.inLenNat > s.caps.inCap then .raised .outOfRange s
  else if s.inLenNat = 0 then .done { s with res := 0#64 }
  else decompressSymbols s

/-- CODEC_DECOMPRESS (R197): a composite command (R195). -/
def execCodecDecompress (s : State) : Host.Outcome State Fault Refusal :=
  (decompressSteps { s with outLen := 0 }).clearOutOnError.outcome

end Sys2Proof.Machine
end

