-- ==== Sys2Proof/Machine/Control.lean ====
section
/-! DEFINITION. The control commands (40_control.md). -/

namespace Sys2Proof.Machine

/-- NOP: no effect (40_control.md R90). -/
def execNop (s : State) : Host.Outcome State Fault Refusal := (Run.done s).outcome

/-- ERR_CLEAR: STATUS.ERR <- 0 (R91). -/
def execErrClear (s : State) : Host.Outcome State Fault Refusal := (Run.done s.clearError).outcome

/-- OUT_CLEAR: OUT_LEN <- 0; OUT's bytes are not changed (R92). -/
def execOutClear (s : State) : Host.Outcome State Fault Refusal :=
  (Run.done { s with outLen := 0 }).outcome

end Sys2Proof.Machine
end

