-- ==== Sys2Proof/Machine/Dispatch.lean ====
section
/-! DEFINITION. exec: one arm per command, each one direct call of its meaning. -/

namespace Sys2Proof.Machine

def exec (i : Instr) (s : State) : Host.Outcome State Fault Refusal :=
  match i with
  | .nop => Sys2Proof.Machine.execNop s
  | .errClear => Sys2Proof.Machine.execErrClear s
  | .outClear => Sys2Proof.Machine.execOutClear s
  | .bsClear => Sys2Proof.Machine.execBsClear s
  | .bsWbit t => Sys2Proof.Machine.execBsWbit t s
  | .bsWbits cnt => Sys2Proof.Machine.execBsWbits cnt s
  | .bsRbit => Sys2Proof.Machine.execBsRbit s
  | .bsRbits cnt => Sys2Proof.Machine.execBsRbits cnt s
  | .bsGetbuf => Sys2Proof.Machine.execBsGetbuf s
  | .bsLoad => Sys2Proof.Machine.execBsLoad s
  | .faAnalyze => Sys2Proof.Machine.execFaAnalyze s
  | .faAccum => Sys2Proof.Machine.execFaAccum s
  | .faRead b => Sys2Proof.Machine.execFaRead b s
  | .faTotal => Sys2Proof.Machine.execFaTotal s
  | .htBuild => Sys2Proof.Machine.execHtBuild s
  | .htCodes => Sys2Proof.Machine.execHtCodes s
  | .ctLen b => Sys2Proof.Machine.execCtLen b s
  | .ctWord b w => Sys2Proof.Machine.execCtWord b w s
  | .encSym b => Sys2Proof.Machine.execEncSym b s
  | .encBlock => Sys2Proof.Machine.execEncBlock s
  | .decSym => Sys2Proof.Machine.execDecSym s
  | .decBlock => Sys2Proof.Machine.execDecBlock s
  | .hdrWrite => Sys2Proof.Machine.execHdrWrite s
  | .hdrParse => Sys2Proof.Machine.execHdrParse s
  | .codecCompress => Sys2Proof.Machine.execCodecCompress s
  | .codecDecompress => Sys2Proof.Machine.execCodecDecompress s

end Sys2Proof.Machine
end

