-- ==== Sys2Proof/Machine/HostPort.lean ====
section
/-! DEFINITION. The host's side of the block: the register window (10_state.md R21), executing the
value written to CMD (30_encoding.md R73), the host actions (10_state.md R40) and the command value
that stands in for a fetched instruction. -/

namespace Sys2Proof.Machine

/-- Execution of a host write of `v` to CMD (30_encoding.md R73). While STATUS.ERR is not 0, every value
but exactly 1 is dropped undecoded (60_exceptions.md R235). -/
def executeCommand (v : Word) (s : State) : Host.Outcome State Fault Refusal :=
  if s.err ≠ .none then
    if v = 1#64 then exec .errClear s else .next s
  else
    match decode v with
    | .error _ => (Run.raised .illegalCommand s).outcome
    | .ok i => exec i s

/-- The value of the register at an offset of the window (10_state.md R21); CMD and the reserved offsets
read as 0. -/
def registerValue (off : Nat) (s : State) : Word :=
  match off with
  | 0x08 => s.opnd
  | 0x10 => s.res
  | 0x18 => s.status
  | 0x20 => s.inLen
  | 0x28 => BitVec.ofNat 64 s.outLen
  | 0x30 => BitVec.ofNat 64 s.bsWr
  | 0x38 => BitVec.ofNat 64 s.bsRd
  | _ => 0#64

/-- A host write to the register at an offset of the window (10_state.md R21, R40): a write to a
read-only register or a reserved offset is ignored. -/
def writeRegister (off : Nat) (v : Word) (s : State) : Host.Outcome State Fault Refusal :=
  match off with
  | 0x00 => executeCommand v s
  | 0x08 => .next { s with opnd := v }
  | 0x20 => .next { s with inLen := v }
  | _ => .next s

/-- Whether a register access has the one defined form: 8 bytes, aligned, inside the window
(20_memory.md R57, R62). -/
def registerAccess (bytes off : Nat) : Option Refusal :=
  if bytes ≠ 8 then some (.registerWidth bytes)
  else if off % 8 ≠ 0 then some (.registerUnaligned off)
  else if off ≥ 0x100 then some (.registerOutsideWindow off)
  else Option.none

/-- The reset action (70_reset_and_hazards.md R250, R251): every piece of state at its value of
10_state.md R41, but the bytes of IN and OUT. The capacities are fixed for the machine, and the host's
own fields are not the block's. -/
def resetAction (s : State) : State :=
  { State.powerUp s.caps with
    inBuf := s.inBuf
    outBuf := s.outBuf
    host := s.host
    reply := s.reply
    epoch := s.epoch }

/-- Advance the counter that free OUT bytes are taken from (log entry 7). -/
def State.tick (s : State) : State := { s with epoch := s.epoch + 1 }

/-- `read_in(a)`: an unwritten byte gives a free value (10_state.md R40, R42; log entry 6). -/
def hostReadIn (a : Nat) (s : State) : Byte :=
  match Mem.read s.inBuf a with
  | some x => x
  | Option.none => Config.freeInByte a

/-- `read_out(a)`: defined only below OUT_LEN, a free value at and above it (10_state.md R37, R40,
93_implementation_defined.md U5; log entry 7). -/
def hostReadOut (a : Nat) (s : State) : Byte :=
  if a < s.outLen then
    match Mem.read s.outBuf a with
    | some x => x
    | Option.none => Config.freeOutByte s.epoch a
  else Config.freeOutByte s.epoch a

/-- One host action (10_state.md R40). -/
def perform (act : HostAction) (s : State) : Host.Outcome State Fault Refusal :=
  match act with
  | .reset => .next (resetAction s).tick
  | .writeReg bytes off v =>
    match registerAccess bytes off with
    | some r => .refused r
    | Option.none => writeRegister off v s.tick
  | .readReg bytes off =>
    match registerAccess bytes off with
    | some r => .refused r
    | Option.none => .next { s with reply := .word (registerValue off s) }
  | .writeIn a x =>
    if a < s.caps.inCap then .next { s with inBuf := Mem.write s.inBuf a x }.tick
    else .refused (.inputAddress a)
  | .readIn a =>
    if a < s.caps.inCap then .next { s with reply := .byte (hostReadIn a s) }
    else .refused (.inputAddress a)
  | .readOut a =>
    if a < s.caps.outCap then .next { s with reply := .byte (hostReadOut a s) }
    else .refused (.outputAddress a)
  | .other => .refused .undefinedHostAccess

/-- The host's next action, or idling when the host has none pending (10_state.md R40,
70_reset_and_hazards.md R252; log entry 2). -/
def hostStep (s : State) : Host.Outcome State Fault Refusal :=
  match s.host with
  | [] => .next s
  | act :: rest => perform act { s with host := rest }

/-- `s` with a host write of `v` to CMD as its next action. -/
def queueCommand (v : Word) (s : State) : State := { s with host := .writeReg 8 0x00 v :: s.host }

end Sys2Proof.Machine
end

