-- ==== Sys2Proof/Machine/Step.lean ====
section
/-! DEFINITION. The step relation: one step per host action (10_state.md R40). -/

namespace Sys2Proof.Machine

/-- One step of the machine. -/
def step (s : State) : Host.Outcome State Fault Refusal := hostStep s

/-- `s` with the instruction of `nbits` bits `w` as the host's next command: the block fetches nothing
(20_memory.md R67), a command reaches it only as a host write to CMD (log entries 2 and 16). -/
def State.withFetchWord (s : State) (nbits w : Nat) : State := queueCommand (commandValue nbits w) s

end Sys2Proof.Machine
end

