-- ==== Sys2Proof/Machine/Assembler.lean ====
section
/-! DEFINITION. The lines of a host program and the host actions they stand for (30_encoding.md R78 to
R80). Machine/HostText.lean reads the characters of a line. -/

namespace Sys2Proof.Machine

/-- The registers a `rd` line names (10_state.md R21). -/
inductive HostRegister where
  | cmd | opnd | res | status | inLen | outLen | bsWr | bsRd
  deriving DecidableEq, Repr

/-- The offset of a register in the window (10_state.md R21). -/
def HostRegister.offset : HostRegister → Nat
  | .cmd => 0x00
  | .opnd => 0x08
  | .res => 0x10
  | .status => 0x18
  | .inLen => 0x20
  | .outLen => 0x28
  | .bsWr => 0x30
  | .bsRd => 0x38

/-- A line of a host program (30_encoding.md R78 to R80). -/
inductive HostLine where
  /-- A command line: a mnemonic with its operands (R78). -/
  | command (i : Instr)
  /-- `cmd <v>` (R78). -/
  | cmd (v : Word)
  /-- `opnd <v>` (R79). -/
  | opnd (v : Word)
  /-- `inlen <n>` (R79). -/
  | inlen (n : Word)
  /-- `in <a>: <x0> <x1> ...` (R79). -/
  | input (a : Nat) (l : List Byte)
  /-- `rd <reg>` (R79). -/
  | rd (r : HostRegister)
  /-- `out? <a> <n>` (R79). -/
  | output (a n : Nat)
  /-- `reset` (R79). -/
  | reset
  /-- `bs.wbits.v <cnt>, <v>` (R80). -/
  | wbitsValue (cnt : Nat) (v : Word)
  /-- `bs.wbyte <v>` (R80). -/
  | wbyte (v : Word)
  /-- `bs.load.at <off>` (R80). -/
  | loadAt (off : Word)
  /-- `dec.block.n <n>` (R80). -/
  | decBlockN (n : Word)
  /-- `in.set <x0> ... <xm>` (R80). -/
  | inSet (l : List Byte)
  /-- `ht.prepare` (R80). -/
  | htPrepare
  deriving DecidableEq, Repr

/-- A host write of a 64-bit value to the register at an offset (10_state.md R40). -/
def writeTo (off : Nat) (v : Word) : HostAction := .writeReg 8 off v

/-- The action a command line stands for (30_encoding.md R78). -/
def issue (i : Instr) : HostAction := writeTo 0x00 (encode i)

/-- `in <a>: ...` as host actions, in ascending address order (R79). -/
def writeInputs (a : Nat) : List Byte → List HostAction
  | [] => []
  | x :: l => .writeIn a x :: writeInputs (a + 1) l

/-- The host actions a line stands for (30_encoding.md R78 to R80). -/
def HostLine.expand : HostLine → List HostAction
  | .command i => [issue i]
  | .cmd v => [writeTo 0x00 v]
  | .opnd v => [writeTo 0x08 v]
  | .inlen n => [writeTo 0x20 n]
  | .input a l => writeInputs a l
  | .rd r => [.readReg 8 r.offset]
  | .output a n => (List.range n).map fun k => .readOut (a + k)
  | .reset => [.reset]
  | .wbitsValue cnt v => [writeTo 0x08 v, issue (.bsWbits cnt)]
  | .wbyte v => [writeTo 0x08 v, issue (.bsWbits 8)]
  | .loadAt off => [writeTo 0x08 off, issue .bsLoad]
  | .decBlockN n => [writeTo 0x08 n, issue .decBlock]
  | .inSet l => writeInputs 0 l ++ [writeTo 0x20 (BitVec.ofNat 64 l.length)]
  | .htPrepare => [issue .htBuild, issue .htCodes]

/-- The host actions of a program, its lines in order. -/
def expandProgram (l : List HostLine) : List HostAction := l.flatMap HostLine.expand

/-- The mnemonic of a command (30_encoding.md R75). -/
def mnemonic : Instr → String
  | .nop => "nop"
  | .errClear => "err.clear"
  | .outClear => "out.clear"
  | .bsClear => "bs.clear"
  | .bsWbit _ => "bs.wbit"
  | .bsWbits _ => "bs.wbits"
  | .bsRbit => "bs.rbit"
  | .bsRbits _ => "bs.rbits"
  | .bsGetbuf => "bs.getbuf"
  | .bsLoad => "bs.load"
  | .faAnalyze => "fa.analyze"
  | .faAccum => "fa.accum"
  | .faRead _ => "fa.read"
  | .faTotal => "fa.total"
  | .htBuild => "ht.build"
  | .htCodes => "ht.codes"
  | .ctLen _ => "ct.len"
  | .ctWord _ _ => "ct.word"
  | .encSym _ => "enc.sym"
  | .encBlock => "enc.block"
  | .decSym => "dec.sym"
  | .decBlock => "dec.block"
  | .hdrWrite => "hdr.write"
  | .hdrParse => "hdr.parse"
  | .codecCompress => "codec.compress"
  | .codecDecompress => "codec.decompress"

/-- The operands of a command as its line spells them (30_encoding.md R78). -/
def operands : Instr → List Nat
  | .bsWbit t => [t.toNat]
  | .bsWbits cnt => [cnt]
  | .bsRbits cnt => [cnt]
  | .faRead b => [b.toNat]
  | .ctLen b => [b.toNat]
  | .ctWord b w => [b.toNat, w]
  | .encSym b => [b.toNat]
  | .nop => []
  | .errClear => []
  | .outClear => []
  | .bsClear => []
  | .bsRbit => []
  | .bsGetbuf => []
  | .bsLoad => []
  | .faAnalyze => []
  | .faAccum => []
  | .faTotal => []
  | .htBuild => []
  | .htCodes => []
  | .encBlock => []
  | .decSym => []
  | .decBlock => []
  | .hdrWrite => []
  | .hdrParse => []
  | .codecCompress => []
  | .codecDecompress => []

end Sys2Proof.Machine
end

