-- ==== Sys2Proof/Machine/HostText.lean ====
section
/-! DEFINITION. The characters of a host program (30_encoding.md R78 to R80): one action per line, `;`
starts a comment. A line is read into a `HostLine`, whose actions `HostLine.expand` gives. What the spec
leaves open of the written form is chosen in log entry 15. -/

namespace Sys2Proof.Machine

/-! ### Words of a line -/

/-- The word read so far, if there is one. -/
def flushToken (cur : List Char) : List (List Char) := if cur = [] then [] else [cur]

/-- The words of a line up to its comment (R78): blanks and commas separate words, a colon is a word of
its own, and a quoted character is one word. -/
def tokenize (cur : List Char) : List Char → List (List Char)
  | [] => flushToken cur
  | '\'' :: c :: '\'' :: rest => flushToken cur ++ ['\'', c, '\''] :: tokenize [] rest
  | c :: rest =>
    if c = ';' then flushToken cur
    else if c = ' ' ∨ c = ',' ∨ c = '\t' then flushToken cur ++ tokenize [] rest
    else if c = ':' then flushToken cur ++ [':'] :: tokenize [] rest
    else tokenize (cur ++ [c]) rest

/-! ### Numbers -/

/-- The value of a digit, at most 15. -/
def digitValue (c : Char) : Option Nat :=
  if '0'.toNat ≤ c.toNat ∧ c.toNat ≤ '9'.toNat then some (c.toNat - '0'.toNat)
  else if 'A'.toNat ≤ c.toNat ∧ c.toNat ≤ 'F'.toNat then some (c.toNat - 'A'.toNat + 10)
  else if 'a'.toNat ≤ c.toNat ∧ c.toNat ≤ 'f'.toNat then some (c.toNat - 'a'.toNat + 10)
  else none

/-- Read digits of a base, `acc` the value so far. -/
def readDigits (base acc : Nat) : List Char → Option Nat
  | [] => some acc
  | c :: rest =>
    match digitValue c with
    | none => none
    | some d => if d < base then readDigits base (base * acc + d) rest else none

/-- A number operand (R78): decimal, hexadecimal after `0x` (00_scope.md R9), binary after `0b`, or a
quoted character for its ASCII code. -/
def readNumber : List Char → Option Nat
  | ['\'', c, '\''] => if c.toNat < 128 then some c.toNat else none
  | '0' :: 'x' :: d :: rest => readDigits 16 0 (d :: rest)
  | '0' :: 'b' :: d :: rest => readDigits 2 0 (d :: rest)
  | d :: rest => readDigits 10 0 (d :: rest)
  | [] => none

/-- A byte of an `in` line, in hexadecimal (R79). -/
def readByte : List Char → Option Byte
  | [] => none
  | d :: rest =>
    match readDigits 16 0 (d :: rest) with
    | none => none
    | some v => if v < 256 then some (BitVec.ofNat 8 v) else none

/-- The bytes of an `in` line. -/
def readBytes : List (List Char) → Option (List Byte)
  | [] => some []
  | t :: rest =>
    match readByte t, readBytes rest with
    | some x, some l => some (x :: l)
    | _, _ => none

/-- The operands of a command line. -/
def readNumbers : List (List Char) → Option (List Nat)
  | [] => some []
  | t :: rest =>
    match readNumber t, readNumbers rest with
    | some v, some l => some (v :: l)
    | _, _ => none

/-- A value that a 64-bit register can hold. -/
def asWord (v : Nat) : Option Word := if v < 2 ^ 64 then some (BitVec.ofNat 64 v) else none

/-- A byte operand, 0 to 255 (R78). -/
def asByte (v : Nat) : Option Byte := if v < 2 ^ 8 then some (BitVec.ofNat 8 v) else none

/-! ### Lines -/

/-- The command a mnemonic and its operands spell, each operand in the range R78 gives it. -/
def readCommand (name : String) (ops : List Nat) : Option Instr :=
  match name, ops with
  | "nop", [] => some .nop
  | "err.clear", [] => some .errClear
  | "out.clear", [] => some .outClear
  | "bs.clear", [] => some .bsClear
  | "bs.wbit", [t] => if t < 2 then some (.bsWbit (t == 1)) else none
  | "bs.wbits", [cnt] => if cntInRange cnt then some (.bsWbits cnt) else none
  | "bs.rbit", [] => some .bsRbit
  | "bs.rbits", [cnt] => if cntInRange cnt then some (.bsRbits cnt) else none
  | "bs.getbuf", [] => some .bsGetbuf
  | "bs.load", [] => some .bsLoad
  | "fa.analyze", [] => some .faAnalyze
  | "fa.accum", [] => some .faAccum
  | "fa.read", [b] => (asByte b).map .faRead
  | "fa.total", [] => some .faTotal
  | "ht.build", [] => some .htBuild
  | "ht.codes", [] => some .htCodes
  | "ct.len", [b] => (asByte b).map .ctLen
  | "ct.word", [b, w] => if wordIndexInRange w then (asByte b).map (.ctWord · w) else none
  | "enc.sym", [b] => (asByte b).map .encSym
  | "enc.block", [] => some .encBlock
  | "dec.sym", [] => some .decSym
  | "dec.block", [] => some .decBlock
  | "hdr.write", [] => some .hdrWrite
  | "hdr.parse", [] => some .hdrParse
  | "codec.compress", [] => some .codecCompress
  | "codec.decompress", [] => some .codecDecompress
  | _, _ => none

/-- A register by its name (10_state.md R21). -/
def readRegister (name : String) : Option HostRegister :=
  match name with
  | "CMD" => some .cmd
  | "OPND" => some .opnd
  | "RES" => some .res
  | "STATUS" => some .status
  | "IN_LEN" => some .inLen
  | "OUT_LEN" => some .outLen
  | "BS_WR" => some .bsWr
  | "BS_RD" => some .bsRd
  | _ => none

/-- A line whose operands are numbers: raw command values, host actions, pseudo-instructions and command
lines (30_encoding.md R78, R79, R80). -/
def readNumberLine (name : String) (ops : List Nat) : Option HostLine :=
  match name, ops with
  | "cmd", [v] => (asWord v).map .cmd
  | "opnd", [v] => (asWord v).map .opnd
  | "inlen", [n] => (asWord n).map .inlen
  | "out?", [a, n] => some (.output a n)
  | "reset", [] => some .reset
  | "bs.wbits.v", [cnt, v] => if cntInRange cnt then (asWord v).map (.wbitsValue cnt) else none
  | "bs.wbyte", [v] => (asWord v).map .wbyte
  | "bs.load.at", [off] => (asWord off).map .loadAt
  | "dec.block.n", [n] => (asWord n).map .decBlockN
  | "ht.prepare", [] => some .htPrepare
  | _, _ => (readCommand name ops).map .command

/-- A line from its words (R78 to R80). -/
def readWords : List (List Char) → Option HostLine
  | [] => none
  | name :: args =>
    match String.ofList name, args with
    | "in", a :: [':'] :: l =>
      match readNumber a, readBytes l with
      | some n, some bytes => some (.input n bytes)
      | _, _ => none
    | "in.set", l => (readBytes l).map .inSet
    | "rd", [r] => (readRegister (String.ofList r)).map .rd
    | n, l =>
      match readNumbers l with
      | some ops => readNumberLine n ops
      | none => none

/-- The host actions of one line of text: none for a blank line or a comment, and no program at all for
a line that is not in the syntax. -/
def assembleLine (text : List Char) : Option (List HostAction) :=
  match tokenize [] text with
  | [] => some []
  | words => (readWords words).map HostLine.expand

/-- The host actions of a program, its lines in order (R78). -/
def assemble : List (List Char) → Option (List HostAction)
  | [] => some []
  | line :: rest =>
    match assembleLine line, assemble rest with
    | some l, some m => some (l ++ m)
    | _, _ => none

end Sys2Proof.Machine
end

