-- ==== Sys2Proof/Safety.lean ====
section
/-! DEFINITION. The terms claims use: the invariant the spec gives the state (10_state.md R30 to R35),
what a tree's leaves and depth are, when the input of a command is ready, and which commands are
primitive, block or composite. -/

namespace Sys2Proof.Machine

/-! ### Trees (10_state.md R34) -/

/-- The leaves of a tree from left to right, with their frequencies. -/
def HTree.leaves : HTree → List (Byte × Nat)
  | .leaf b f => [(b, f)]
  | .node _ l r => l.leaves ++ r.leaves

/-- Every node's frequency is the sum of its children's (R34 b). -/
def HTree.sumsOk : HTree → Bool
  | .leaf _ _ => true
  | .node f l r => decide (f = l.freq + r.freq) && l.sumsOk && r.sumsOk

/-- The number of branches on the longest path (R34 c). -/
def HTree.depth : HTree → Nat
  | .leaf _ _ => 0
  | .node _ l r => max l.depth r.depth + 1

/-- The number of `Node`s (R34 c). -/
def HTree.nodes : HTree → Nat
  | .leaf _ _ => 0
  | .node _ l r => l.nodes + r.nodes + 1

/-- The leaves under a root. -/
def Root.leaves : Root → List (Byte × Nat)
  | .none => []
  | .wrap _ b f => [(b, f)]
  | .full _ l r => l.leaves ++ r.leaves

/-- The frequency of a root, 0 for no tree. -/
def Root.freq : Root → Nat
  | .none => 0
  | .wrap f _ _ => f
  | .full f _ _ => f

/-- The sums of R34 (b): a wrapper's frequency is its child's. -/
def Root.sumsOk : Root → Bool
  | .none => true
  | .wrap f _ g => decide (f = g)
  | .full f l r => (HTree.node f l r).sumsOk

/-- The symbols of a root, left to right. -/
def Root.symbols (r : Root) : List Byte := r.leaves.map Prod.fst

/-- The tree invariants that do not mention FT (10_state.md R34): no symbol in two leaves, the sums, no
leaf of frequency 0, and frequencies that fit a u64 (43_tree.md R142). -/
abbrev Root.wf (r : Root) : Prop :=
  r.symbols.Nodup ∧ r.sumsOk = true ∧ (∀ x ∈ r.leaves, x.2 ≠ 0) ∧ r.freq ≤ 2 ^ 64 - 1

/-- The subtree a path of branches leads to: right on 1, left on 0 (43_tree.md R145). -/
def HTree.follow : HTree → Bits → Option HTree
  | t, [] => some t
  | .leaf _ _, _ :: _ => Option.none
  | .node _ l _, false :: p => l.follow p
  | .node _ _ r, true :: p => r.follow p

/-- The path of branches `p` from the root ends at the leaf of byte `b`; the wrapper's one leaf stands
on its 0 side (43_tree.md R143, R145). -/
def Root.leadsTo : Root → Bits → Byte → Prop
  | .none, _, _ => False
  | .wrap _ c _, p, b => p = [false] ∧ c = b
  | .full f l r, p, b => ∃ g, (HTree.node f l r).follow p = some (.leaf b g)

/-- The path of bits `p` decodes to the byte `b`: the path to its leaf in a full tree, any one bit under
a wrapper (44_encdec.md R172). -/
def Root.reads : Root → Bits → Byte → Prop
  | .none, _, _ => False
  | .wrap _ c _, p, b => p.length = 1 ∧ c = b
  | .full f l r, p, b => ∃ g, (HTree.node f l r).follow p = some (.leaf b g)

/-- The bits decode, symbol by symbol and to their end, to the byte list `out` (44_encdec.md R172,
R174). -/
def Root.spells (r : Root) (bits : Bits) (out : List Byte) : Prop :=
  ∃ ps : List Bits, ps.flatten = bits ∧ List.Forall₂ r.reads ps out

/-- What the order of removals gives at every node (43_tree.md R141, R142): the left child is the
lighter one, and of two children of equal frequency a leaf on the right stands beside a leaf of a lower
byte on the left. -/
def HTree.mergeOrdered : HTree → Prop
  | .leaf _ _ => True
  | .node _ l r =>
    (l.freq < r.freq ∨
      (l.freq = r.freq ∧ ∀ b g, r = .leaf b g → ∃ a h, l = .leaf a h ∧ a.toNat < b.toNat)) ∧
    l.mergeOrdered ∧ r.mergeOrdered

/-- The key order of the priority structure (43_tree.md R141), as a proposition. -/
def QEntry.precedes (x y : QEntry) : Prop :=
  x.tree.freq < y.tree.freq ∨ (x.tree.freq = y.tree.freq ∧ x.seq < y.seq)

/-- The nodes HT_BUILD starts with (43_tree.md R140): the leaves of the bytes that occur, in ascending
byte order, with the sequence numbers 0, 1, .... -/
def seeds (t : FreqTable) : List QEntry :=
  (allBytes.filter fun b => lookup t b ≠ 0#64).zipIdx.map fun x =>
    { seq := x.2, tree := .leaf x.1 (lookup t x.1).toNat }

/-- The merge step of 43_tree.md R142 as a relation: the nodes of a priority structure, listed in any
order, merge to a tree, `seq` the next unused sequence number. Of all nodes `x` has the least key, and
`y` the least of those left; `x` becomes the left child and `y` the right one of a node that goes back
in with the number `seq`. -/
inductive MergesTo : Nat → List QEntry → HTree → Prop where
  | last (seq : Nat) (x : QEntry) : MergesTo seq [x] x.tree
  | merge {seq : Nat} {q rest : List QEntry} {x y : QEntry} {t : HTree} (nodes : q.Perm (x :: y :: rest))
      (least : ∀ z ∈ y :: rest, x.precedes z) (next : ∀ z ∈ rest, y.precedes z)
      (merged : MergesTo (seq + 1)
        ({ seq := seq, tree := .node (x.tree.freq + y.tree.freq) x.tree y.tree } :: rest) t) :
      MergesTo seq q t

/-- The frequencies of all `Node`s, added up (43_tree.md R146 d). -/
def HTree.nodeFreqs : HTree → Nat
  | .leaf _ _ => 0
  | .node f l r => f + l.nodeFreqs + r.nodeFreqs

/-! ### Codes (43_tree.md R146) -/

/-- No code of the table is a prefix of another byte's code (43_tree.md R146 b). -/
def prefixFree (c : CodeTable) : Prop :=
  ∀ a b : Byte, a ≠ b → ∀ p q : Bits, lookup c a = some p → lookup c b = some q → ¬ p <+: q

/-- The codes of a byte list, one after the other; a byte with no code adds none. -/
def encodeAll (c : CodeTable) (l : List Byte) : Bits := l.flatMap fun b => (lookup c b).getD []

/-! ### Buffers and byte lists -/

/-- The buffer holds the byte list `l` from address `off` on. -/
abbrev holds (m : Mem) (off : Nat) (l : List Byte) : Prop :=
  ∀ k (h : k < l.length), Mem.read m (off + k) = some l[k]

/-- The number of bytes equal to `b` at addresses 0 to n-1 of a buffer. -/
def occurrences (m : Mem) (b : Byte) : Nat → Nat
  | 0 => 0
  | n + 1 => occurrences m b n + (if Mem.read m n = some b then 1 else 0)

/-- The state after the host has written a byte list at the start of IN, and its length to IN_LEN. -/
def withInput (l : List Byte) (s : State) : State :=
  { s with inBuf := Mem.writeList s.inBuf 0 l, inLen := BitVec.ofNat 64 l.length }

/-! ### Containers (45_codec.md R190, R191) -/

/-- The frequency table of a byte list. Irreducible, so that no proof unfolds its 256 entries by
accident: proofs use `lookup_freqOf`. -/
@[irreducible] def freqOf (l : List Byte) : FreqTable :=
  Vector.ofFn fun i : Fin 256 => BitVec.ofNat 64 (l.count (BitVec.ofNat 8 i.val))

/-- The table of a list of header entries. -/
def tableOf (l : List (Byte × Word)) : FreqTable := l.foldr (fun e t => update t e.1 e.2) emptyFreq

/-- The bytes of a header with these entries, in this order (45_codec.md R190). -/
def entryBytes (l : List (Byte × Word)) : List Byte :=
  leBytes l.length 4 ++ l.flatMap fun e => e.1 :: leBytes e.2.toNat 8

/-- The entries HDR_PARSE accepts (45_codec.md R193). -/
abbrev goodEntries (l : List (Byte × Word)) : Prop :=
  (l.map Prod.fst).Nodup ∧ (∀ e ∈ l, e.2 ≠ 0#64) ∧
  (l.map fun e => e.2.toNat).sum ≤ 2 ^ 64 - 1

/-- The payload bits of a byte list: its bytes' codes, in the tree of its own frequencies. -/
def payloadBits (l : List Byte) : Bits := encodeAll (codesOf (treeOf (freqOf l))) l

/-- The container of a byte list that is not empty (45_codec.md R190, R196). -/
def container (l : List Byte) : List Byte := header (freqOf l) ++ packBytes (payloadBits l)

/-! ### The invariant -/

/-- What holds of the state after every host action (10_state.md R30, R31, R32, R34, R35). -/
structure StateInv (s : State) : Prop where
  /-- The capacities lie in the ranges of 00_scope.md R5. -/
  caps : s.caps.legal
  /-- `BS_RD <= BS_WR` (10_state.md R30). -/
  readCursor : s.bsRd ≤ s.bsWr
  /-- `BS_WR <= BS_CAP_BITS` (R30). -/
  writeCursor : s.bsWr ≤ s.caps.bsCapBits
  /-- `OUT_LEN <= OUT_CAP` (R31). -/
  outLen : s.outLen ≤ s.caps.outCap
  /-- OUT[0 .. OUT_LEN-1] holds written bytes (R37). -/
  outWritten : ∀ a < s.outLen, (Mem.read s.outBuf a).isSome
  /-- The frequency sum fits a u64 (R32). -/
  freq : freqSum s.ft ≤ 2 ^ 64 - 1
  /-- The tree invariants (R34). -/
  tree : s.tree.wf
  /-- CT is empty, or holds the codes of the tree (R35, 43_tree.md R144, R145). -/
  codes : s.ct = emptyCodes ∨ s.ct = codesOf s.tree
  /-- IN keeps its canonical form inside IN_CAP (R36). -/
  input : Mem.wf s.inBuf ∧ ∀ c ∈ s.inBuf, c.1 < s.caps.inCap
  /-- OUT keeps its canonical form inside OUT_CAP (R37). -/
  output : Mem.wf s.outBuf ∧ ∀ c ∈ s.outBuf, c.1 < s.caps.outCap

/-! ### When a command can read its input -/

/-- IN_LEN is at most IN_CAP and the host has written IN[off .. IN_LEN-1]
(70_reset_and_hazards.md R253). -/
abbrev InputReady (off : Nat) (s : State) : Prop :=
  s.inLenNat ≤ s.caps.inCap ∧ ∀ a, off ≤ a → a < s.inLenNat → (Mem.read s.inBuf a).isSome

/-- `a` is the first byte of IN[off .. IN_LEN-1] that the host never wrote. -/
abbrev firstUnwritten (off a : Nat) (s : State) : Prop :=
  off ≤ a ∧ a < s.inLenNat ∧ Mem.read s.inBuf a = Option.none ∧
  ∀ b, off ≤ b → b < a → (Mem.read s.inBuf b).isSome

/-- `parse_header()` comes to the unwritten byte `a` of IN (45_codec.md R193): one of the count, or one
of an entry in front of which every byte is written and every entry is well formed. -/
def headerStopsAt (a : Nat) (s : State) : Prop :=
  4 ≤ s.inLenNat ∧
  ((a < 4 ∧ firstUnwritten 0 a s) ∨
    ∃ (k : Nat) (l : List (Byte × Word)), k ≤ 256 ∧ 4 + 9 * k ≤ s.inLenNat ∧ l.length < k ∧
      goodEntries l ∧ holds s.inBuf 0 (leBytes k 4 ++ l.flatMap fun e => e.1 :: leBytes e.2.toNat 8) ∧
      a < 4 + 9 * (l.length + 1) ∧ firstUnwritten (4 + 9 * l.length) a s)

/-! ### Sequences of commands -/

/-- A piece of a split write (41_bitstream.md R108 b): one bit, or a value and a count. -/
abbrev Piece := Bool ⊕ (Word × Nat)

/-- The bits a piece stands for, in the order they are written. -/
def pieceBits : Piece → Bits
  | .inl t => [t]
  | .inr (v, cnt) => (List.range cnt).map fun k => v.getLsbD (cnt - 1 - k)

/-- The command that writes a piece, OPND set for it. -/
def writePiece (p : Piece) (s : State) : Host.Outcome State Fault Refusal :=
  match p with
  | .inl t => exec (.bsWbit t) s
  | .inr (v, cnt) => exec (.bsWbits cnt) { s with opnd := v }

/-- The next state of a command that ends without an error. -/
def succeeded (r : Host.Outcome State Fault Refusal) : Option State :=
  match r with
  | .next t => if t.err = .none then some t else Option.none
  | .fault _ => Option.none
  | .refused _ => Option.none

/-- Write the pieces one after the other. -/
def writePieces : List Piece → State → Option State
  | [], s => some s
  | p :: ps, s => (succeeded (writePiece p s)).bind (writePieces ps)

/-- Read with BS_READ_BITS at the counts given, collecting RES after each. -/
def readPieces : List Nat → State → Option (List Word × State)
  | [], s => some ([], s)
  | c :: cs, s =>
    (succeeded (exec (.bsRbits c) s)).bind fun t =>
      (readPieces cs t).map fun r => (t.res :: r.1, r.2)

/-- FA_ACCUM on each chunk, written into IN before it (42_frequency.md R134). -/
def accumulateChunks : List (List Byte) → State → Option State
  | [], s => some s
  | c :: cs, s => (succeeded (exec .faAccum (withInput c s))).bind (accumulateChunks cs)

/-! ### Illegal values (30_encoding.md R76) -/

/-- The values that are no command: bits [63:32] not zero, an opcode outside the map of R75, or a 1 in a
bit outside the fields of the opcode's format (R72). -/
abbrev illegalValue (v : Word) : Prop :=
  v.extractLsb' 32 32 ≠ 0#32 ∨
  (v.extractLsb' 0 8).toNat ∉ [0x00, 0x01, 0x02, 0x10, 0x11, 0x12, 0x13, 0x14, 0x15, 0x16, 0x20,
    0x21, 0x22, 0x23, 0x30, 0x31, 0x32, 0x33, 0x40, 0x41, 0x42, 0x43, 0x50, 0x51, 0x60, 0x61] ∨
  ((v.extractLsb' 0 8).toNat ∉ [0x11, 0x12, 0x14, 0x22, 0x32, 0x33, 0x40] ∧
    v.extractLsb' 8 24 ≠ 0#24) ∨
  ((v.extractLsb' 0 8).toNat = 0x11 ∧ (v.extractLsb' 8 8 ≠ 0#8 ∨ v.extractLsb' 17 15 ≠ 0#15)) ∨
  ((v.extractLsb' 0 8).toNat ∈ [0x12, 0x14] ∧ v.extractLsb' 14 18 ≠ 0#18) ∨
  ((v.extractLsb' 0 8).toNat ∈ [0x22, 0x32, 0x40] ∧
    (v.extractLsb' 8 8 ≠ 0#8 ∨ v.extractLsb' 24 8 ≠ 0#8)) ∨
  ((v.extractLsb' 0 8).toNat = 0x33 ∧ (v.extractLsb' 8 8 ≠ 0#8 ∨ v.extractLsb' 26 6 ≠ 0#6))

/-! ### Kinds of commands (00_scope.md section 5) -/

/-- Block and composite commands; every other command is primitive (60_exceptions.md R232). -/
def isSequence : Instr → Bool
  | .encBlock => true
  | .decBlock => true
  | .codecCompress => true
  | .codecDecompress => true
  | _ => false

/-- The composite commands. -/
def isComposite : Instr → Bool
  | .codecCompress => true
  | .codecDecompress => true
  | _ => false

end Sys2Proof.Machine
end

