-- ==== Sys2Proof/Certificates/Slice0/Obligations.lean ====
section
/-! DEFINITION. The statements for the provers. Each is a `Prop`; nothing is proved here. -/

open Sys2Proof Sys2Proof.Machine

/-! ### Encoding (30_encoding.md) -/

/-- Decoding the encoding of a well-formed command gives it back, with every operand value its field
admits (R71, R72, R75). -/
def Obligations.DecodeOfEncodeIsIdentity : Prop :=
  ∀ i : Instr, i.wellFormed = true → decode (encode i) = .ok i

/-- A value written to CMD that decodes is the one encoding of its command: no set bit is ignored
(R72, R73). -/
def Obligations.DecodedValueIsTheEncoding : Prop :=
  ∀ (v : Word) (i : Instr), decode v = .ok i → i.wellFormed = true ∧ encode i = v

/-- The illegal values written to CMD are exactly those of R76: a high half that is not 0, an
unassigned opcode, or a 1 outside the fields of the opcode's format. -/
def Obligations.IllegalValuesAreThoseOfTheSpec : Prop :=
  ∀ v : Word, (∃ r, decode v = .error r) ↔ illegalValue v

/-- Words spelled from the encodings of R72 and the examples of the command rules decode to their
commands. -/
def Obligations.SpelledWordsDecode : Prop :=
  decode 0x0000000000000000#64 = .ok .nop ∧
  decode 0x0000000000010011#64 = .ok (.bsWbit true) ∧
  decode 0x0000000000000812#64 = .ok (.bsWbits 8) ∧
  decode 0x0000000000002014#64 = .ok (.bsRbits 32) ∧
  decode 0x0000000000410022#64 = .ok (.faRead 0x41#8) ∧
  decode 0x0000000000000031#64 = .ok .htCodes ∧
  decode 0x0000000002A50033#64 = .ok (.ctWord 0xA5#8 2) ∧
  decode 0x0000000000420040#64 = .ok (.encSym 0x42#8) ∧
  decode 0x0000000000000061#64 = .ok .codecDecompress

/-- The command lines of the assembler (R78): a well-formed command's mnemonic and operands read back as
that command, and every line that is read spells its command exactly, with operands in range. -/
def Obligations.CommandLinesSpellTheirCommands : Prop :=
  (∀ i : Instr, i.wellFormed = true → readCommand (mnemonic i) (operands i) = some i) ∧
  ∀ (name : String) (ops : List Nat) (i : Instr), readCommand name ops = some i →
    mnemonic i = name ∧ operands i = ops ∧ i.wellFormed = true

/-! ### The step (10_state.md R40, 30_encoding.md R73) -/

/-- A step whose host action writes to CMD a value that decodes runs exactly the decoded command: `exec`
on the state with that action consumed. The same holds of a word placed by `withFetchWord`, and of the
action a command line stands for (R73, R78). -/
def Obligations.StepRunsTheDecodedCommand : Prop :=
  (∀ (s : State) (rest : List HostAction) (v : Word) (i : Instr), s.err = .none → decode v = .ok i →
    s.host = .writeReg 8 0x00 v :: rest →
    step s = exec i { s with host := rest, epoch := s.epoch + 1 }) ∧
  (∀ (s : State) (nbits w : Nat) (i : Instr), s.err = .none → decodeTableWord nbits w = some i →
    step (s.withFetchWord nbits w) = exec i { s with epoch := s.epoch + 1 }) ∧
  (∀ (s : State) (rest : List HostAction) (i : Instr), s.err = .none → i.wellFormed = true →
    s.host = (HostLine.command i).expand ++ rest →
    step s = exec i { s with host := rest, epoch := s.epoch + 1 })

/-- The sticky error (60_exceptions.md R235): while STATUS.ERR is not 0 every CMD value but 1 is
dropped and changes nothing, and register writes, IN writes and reads are not affected. -/
def Obligations.PendingErrorDropsCommands : Prop :=
  ∀ (s : State) (rest : List HostAction), s.err ≠ .none →
    (∀ v : Word, v ≠ 1#64 → s.host = .writeReg 8 0x00 v :: rest →
      step s = .next { s with host := rest, epoch := s.epoch + 1 }) ∧
    (∀ v : Word, s.host = .writeReg 8 0x08 v :: rest →
      step s = .next { s with host := rest, epoch := s.epoch + 1, opnd := v }) ∧
    (∀ v : Word, s.host = .writeReg 8 0x20 v :: rest →
      step s = .next { s with host := rest, epoch := s.epoch + 1, inLen := v }) ∧
    (∀ (a : Nat) (x : Byte), a < s.caps.inCap → s.host = .writeIn a x :: rest →
      ∃ t, step s = .next t ∧ t.err = s.err ∧ Mem.read t.inBuf a = some x ∧
        ∀ b, b ≠ a → Mem.read t.inBuf b = Mem.read s.inBuf b) ∧
    (∀ off : Nat, off % 8 = 0 → off < 0x100 → s.host = .readReg 8 off :: rest →
      step s = .next { s with host := rest, reply := .word (registerValue off s) }) ∧
    (∀ (a : Nat) (x : Byte), a < s.caps.inCap → Mem.read s.inBuf a = some x →
      s.host = .readIn a :: rest → step s = .next { s with host := rest, reply := .byte x }) ∧
    (∀ (a : Nat) (x : Byte), a < s.caps.outCap → a < s.outLen → Mem.read s.outBuf a = some x →
      s.host = .readOut a :: rest → step s = .next { s with host := rest, reply := .byte x })

/-- ERR_CLEAR is the only way back from an error except reset, and it changes nothing but STATUS.ERR
(60_exceptions.md R236). -/
def Obligations.OnlyErrClearAndResetClearAnError : Prop :=
  (∀ (s : State) (rest : List HostAction), s.host = .writeReg 8 0x00 1#64 :: rest →
    step s = .next { s with host := rest, epoch := s.epoch + 1, err := .none }) ∧
  (∀ s t : State, s.err ≠ .none → step s = .next t → t.err ≠ s.err →
    t.err = .none ∧ ∃ rest, s.host = .writeReg 8 0x00 1#64 :: rest ∨ s.host = .reset :: rest)

/-- An illegal command (bits [63:32] not zero, an unassigned opcode, or a reserved bit set) changes
nothing but STATUS.ERR, which becomes ILLEGAL_COMMAND (60_exceptions.md R227). -/
def Obligations.IllegalCommandChangesOnlyErr : Prop :=
  ∀ (s : State) (rest : List HostAction) (v : Word), s.err = .none → illegalValue v →
    s.host = .writeReg 8 0x00 v :: rest →
    step s = .next { s with host := rest, epoch := s.epoch + 1, err := .illegalCommand }

/-- The register window (10_state.md R21): what a read of each offset returns, that reserved offsets
and CMD read 0, that a write changes OPND or IN_LEN and at every other offset but CMD nothing, and that
every register reads 0 after power-up. -/
def Obligations.RegisterWindowIsAsMapped : Prop :=
  (∀ (s : State) (rest : List HostAction) (off : Nat), StateInv s → off % 8 = 0 → off < 0x100 →
    s.host = .readReg 8 off :: rest →
    ∃ v : Word, step s = .next { s with host := rest, reply := .word v } ∧
      (off = 0x00 → v = 0#64) ∧ (off = 0x08 → v = s.opnd) ∧ (off = 0x10 → v = s.res) ∧
      (off = 0x18 → v = s.status) ∧ (off = 0x20 → v = s.inLen) ∧ (off = 0x28 → v.toNat = s.outLen) ∧
      (off = 0x30 → v.toNat = s.bs.length) ∧ (off = 0x38 → v.toNat = s.bsRd) ∧
      (0x40 ≤ off → v = 0#64)) ∧
  (∀ (s : State) (rest : List HostAction) (off : Nat) (v : Word), off % 8 = 0 → off < 0x100 →
    off ≠ 0x00 → s.host = .writeReg 8 off v :: rest →
    step s = .next { s with
      host := rest
      epoch := s.epoch + 1
      opnd := if off = 0x08 then v else s.opnd
      inLen := if off = 0x20 then v else s.inLen }) ∧
  (∀ (c : Capacities) (off : Nat), registerValue off (State.powerUp c) = 0#64)

/-- The STATUS register (10_state.md R25, 60_exceptions.md R220): the code of each error kind in bits
[7:0], TV in bit 8 exactly when TREE is not None, 0 above. -/
def Obligations.StatusHoldsErrAndTreeValid : Prop :=
  ∀ s : State,
    ((s.err = .none → s.status.extractLsb' 0 8 = 0#8) ∧
     (s.err = .outOfRange → s.status.extractLsb' 0 8 = 1#8) ∧
     (s.err = .endOfStream → s.status.extractLsb' 0 8 = 2#8) ∧
     (s.err = .malformedHeader → s.status.extractLsb' 0 8 = 3#8) ∧
     (s.err = .corruptPayload → s.status.extractLsb' 0 8 = 4#8) ∧
     (s.err = .emptyFreqTable → s.status.extractLsb' 0 8 = 5#8) ∧
     (s.err = .codeTableMiss → s.status.extractLsb' 0 8 = 6#8) ∧
     (s.err = .illegalCommand → s.status.extractLsb' 0 8 = 7#8) ∧
     (s.err = .capacityExceeded → s.status.extractLsb' 0 8 = 8#8) ∧
     (s.err = .noTree → s.status.extractLsb' 0 8 = 9#8)) ∧
    (s.status.getLsbD 8 = true ↔ s.tree ≠ .none) ∧
    (∀ k, 9 ≤ k → s.status.getLsbD k = false)

/-- Host reads have no side effect and repeat; host writes to OPND, IN_LEN and IN are idempotent, and no
write but one to CMD has an effect beyond the written location (20_memory.md R61). -/
def Obligations.HostReadsArePureAndWritesIdempotent : Prop :=
  (∀ (s t : State) (act : HostAction) (rest : List HostAction),
    (∃ n off, act = .readReg n off) ∨ (∃ a, act = .readIn a) ∨ (∃ a, act = .readOut a) →
    s.host = act :: act :: rest → step s = .next t →
    t = { s with host := act :: rest, reply := t.reply } ∧ step t = .next { t with host := rest }) ∧
  (∀ (s t : State) (act : HostAction) (rest : List HostAction),
    (∃ n off v, act = .writeReg n off v ∧ off ≠ 0x00) ∨ (∃ a x, act = .writeIn a x) →
    s.host = act :: act :: rest → step s = .next t →
    t = { s with
      host := act :: rest, epoch := s.epoch + 1, opnd := t.opnd, inLen := t.inLen, inBuf := t.inBuf } ∧
    step t = .next { t with host := rest, epoch := t.epoch + 1 } ∧
    (∀ n off v, act = .writeReg n off v →
      t.inBuf = s.inBuf ∧ (off ≠ 0x08 → t.opnd = s.opnd) ∧ (off ≠ 0x20 → t.inLen = s.inLen)) ∧
    (∀ a x, act = .writeIn a x → t.opnd = s.opnd ∧ t.inLen = s.inLen ∧
      ∀ b, b ≠ a → Mem.read t.inBuf b = Mem.read s.inBuf b))

/-- The host's buffer accesses (10_state.md R40): write_in changes one byte of IN, read_in of a written
byte and read_out below OUT_LEN return the byte, and every access outside the forms of R40 is refused
under its own name (20_memory.md R57, 93_implementation_defined.md U6). The refusal of an offset outside
the window is the model's reading (log entry 9). -/
def Obligations.HostAccessesOfBuffersAndRefusals : Prop :=
  ∀ (s : State) (rest : List HostAction),
    (∀ a x, a < s.caps.inCap → s.host = .writeIn a x :: rest →
      ∃ t, step s = .next t ∧
        t = { s with host := rest, epoch := s.epoch + 1, inBuf := t.inBuf } ∧
        ∀ b, Mem.read t.inBuf b = if b = a then some x else Mem.read s.inBuf b) ∧
    (∀ a x, a < s.caps.inCap → Mem.read s.inBuf a = some x → s.host = .readIn a :: rest →
      step s = .next { s with host := rest, reply := .byte x }) ∧
    (∀ a, StateInv s → a < s.outLen → s.host = .readOut a :: rest →
      ∃ x, Mem.read s.outBuf a = some x ∧
        step s = .next { s with host := rest, reply := .byte x }) ∧
    (∀ n off v, n ≠ 8 → (s.host = .writeReg n off v :: rest ∨ s.host = .readReg n off :: rest) →
      step s = .refused (.registerWidth n)) ∧
    (∀ off v, off % 8 ≠ 0 → (s.host = .writeReg 8 off v :: rest ∨ s.host = .readReg 8 off :: rest) →
      step s = .refused (.registerUnaligned off)) ∧
    (∀ off v, off % 8 = 0 → 0x100 ≤ off →
      (s.host = .writeReg 8 off v :: rest ∨ s.host = .readReg 8 off :: rest) →
      step s = .refused (.registerOutsideWindow off)) ∧
    (∀ a x, s.caps.inCap ≤ a → (s.host = .writeIn a x :: rest ∨ s.host = .readIn a :: rest) →
      step s = .refused (.inputAddress a)) ∧
    (∀ a, s.caps.outCap ≤ a → s.host = .readOut a :: rest → step s = .refused (.outputAddress a)) ∧
    (s.host = .other :: rest → step s = .refused .undefinedHostAccess)

/-- Reset (70_reset_and_hazards.md R250, R251, 10_state.md R41): every piece of state takes its reset
value, the bytes of IN and OUT stay; the same values stand after power-up. -/
def Obligations.ResetRestoresTheResetValues : Prop :=
  (∀ (s : State) (rest : List HostAction), s.host = .reset :: rest →
    ∃ t, step s = .next t ∧ t.opnd = 0#64 ∧ t.res = 0#64 ∧ t.err = .none ∧ t.status = 0#64 ∧
      t.inLen = 0#64 ∧ t.outLen = 0 ∧ t.bs = [] ∧ t.bsRd = 0 ∧ (∀ b, lookup t.ft b = 0#64) ∧
      t.tree = .none ∧ (∀ b, lookup t.ct b = Option.none) ∧
      t.inBuf = s.inBuf ∧ t.outBuf = s.outBuf ∧ t.caps = s.caps ∧ t.host = rest) ∧
  (∀ c : Capacities, (State.powerUp c).opnd = 0#64 ∧ (State.powerUp c).res = 0#64 ∧
    (State.powerUp c).status = 0#64 ∧ (State.powerUp c).inLen = 0#64 ∧ (State.powerUp c).outLen = 0 ∧
    (State.powerUp c).bs = [] ∧ (State.powerUp c).bsRd = 0 ∧
    (∀ b, lookup (State.powerUp c).ft b = 0#64) ∧ (State.powerUp c).tree = .none ∧
    (∀ b, lookup (State.powerUp c).ct b = Option.none) ∧
    (∀ a, Mem.read (State.powerUp c).inBuf a = Option.none))

/-! ### The invariant (10_state.md R30 to R35) -/

/-- The invariant holds after power-up with any capacities the spec allows, and of `State.reset`, whose
capacities are the model's choice (log entry 1). -/
def Obligations.InvariantHoldsAtReset : Prop :=
  (∀ c : Capacities, c.legal → StateInv (State.powerUp c)) ∧ StateInv State.reset

/-- Every step keeps the invariant: the cursor order (R30), OUT_LEN within OUT (R31), a frequency sum
that fits a u64 (R32), a tree with the properties of R34, a code table that is empty or the tree's
(R35), and buffers in canonical form. -/
def Obligations.EveryStepKeepsTheInvariant : Prop :=
  ∀ s t : State, StateInv s → step s = .next t → StateInv t

/-- In every state that meets the invariant the code table is a prefix code, and every code has 1 to
255 bits (10_state.md R35, 43_tree.md R146 b). -/
def Obligations.CodeTableIsAlwaysAPrefixCode : Prop :=
  ∀ s : State, StateInv s →
    prefixFree s.ct ∧ ∀ b p, lookup s.ct b = some p → 1 ≤ p.length ∧ p.length ≤ 255

/-! ### Whole-machine rules -/

/-- A command never ends in a refusal, and in a fault only at a byte of IN below IN_LEN that the host
never wrote; so every command, and every value written to CMD, runs from power-up (70_reset_and_hazards.md
R253, 10_state.md R42). That such a byte is a fault is the spec's treatment U4. -/
def Obligations.OnlyUnwrittenInputFaults : Prop :=
  (∀ (i : Instr) (s : State),
    (∃ t, exec i s = .next t) ∨
    ∃ a, exec i s = .fault (.unwrittenInput a) ∧ a < s.inLenNat ∧ Mem.read s.inBuf a = Option.none) ∧
  (∀ (c : Capacities) (i : Instr), ∃ t, exec i (State.powerUp c) = .next t) ∧
  (∀ (c : Capacities) (v : Word),
    ∃ t, step { State.powerUp c with host := [.writeReg 8 0x00 v] } = .next t)

/-- Where a command faults (93_implementation_defined.md U4), for every command that reads IN
(20_memory.md R51): FA_ANALYZE, FA_ACCUM and CODEC_COMPRESS at the first byte of IN[0 .. IN_LEN-1] that was
never written, BS_LOAD at the first of IN[OPND .. IN_LEN-1], ENC_BLOCK at the first when every byte in front
has a code that fits, HDR_PARSE and CODEC_DECOMPRESS at the first of a header that is well formed in front of
it, CODEC_DECOMPRESS at the first of the payload. That HDR_PARSE checks an entry before it reads the next is
the model's reading (log entry 12). -/
def Obligations.UnwrittenInputStopsTheReader : Prop :=
  ∀ (s : State) (a : Nat), s.inLenNat ≤ s.caps.inCap →
    (firstUnwritten 0 a s →
      exec .faAnalyze s = .fault (.unwrittenInput a) ∧ exec .faAccum s = .fault (.unwrittenInput a) ∧
      exec .codecCompress s = .fault (.unwrittenInput a)) ∧
    (firstUnwritten s.opnd.toNat a s → 8 * (s.inLenNat - s.opnd.toNat) ≤ s.caps.bsCapBits →
      exec .bsLoad s = .fault (.unwrittenInput a)) ∧
    (∀ l : List Byte, l.length = a → holds s.inBuf 0 l → firstUnwritten 0 a s →
      (∀ b ∈ l, (lookup s.ct b).isSome) →
      s.bs.length + (encodeAll s.ct l).length ≤ s.caps.bsCapBits →
      exec .encBlock s = .fault (.unwrittenInput a)) ∧
    (headerStopsAt a s →
      exec .hdrParse s = .fault (.unwrittenInput a) ∧
      exec .codecDecompress s = .fault (.unwrittenInput a)) ∧
    (∀ l : List (Byte × Word), l ≠ [] → goodEntries l → holds s.inBuf 0 (entryBytes l) →
      firstUnwritten (entryBytes l).length a s →
      8 * (s.inLenNat - (entryBytes l).length) ≤ s.caps.bsCapBits →
      exec .codecDecompress s = .fault (.unwrittenInput a))

/-- No command writes what is the host's: OPND (10_state.md R22), IN_LEN (R26), IN (20_memory.md R51);
nor the capacities, the pending actions, the last reply and the epoch. -/
def Obligations.CommandsLeaveHostStateAlone : Prop :=
  ∀ (i : Instr) (s t : State), exec i s = .next t →
    t.opnd = s.opnd ∧ t.inLen = s.inLen ∧ t.inBuf = s.inBuf ∧ t.caps = s.caps ∧ t.host = s.host ∧
    t.reply = s.reply ∧ t.epoch = s.epoch

/-- Primitive commands are atomic: one that raises an error changes STATUS.ERR alone
(60_exceptions.md R232). -/
def Obligations.PrimitiveErrorsAreAtomic : Prop :=
  ∀ (i : Instr) (s t : State), isSequence i = false → s.err = .none → exec i s = .next t →
    t.err ≠ .none → t = { s with err := t.err }

/-- A failed composite command leaves OUT_LEN = 0, whatever step failed, and a failed CODEC_COMPRESS leaves
RES as it was; a failed block command keeps the effects of the steps in front of the failing one, so
ENC_BLOCK the codes it appended and DEC_BLOCK the bytes (60_exceptions.md R233, R234, 45_codec.md R196). -/
def Obligations.FailedCompositeClearsOutLen : Prop :=
  ∀ (i : Instr) (s t : State), s.err = .none → exec i s = .next t → t.err ≠ .none →
    (isComposite i = true → t.outLen = 0) ∧
    (isComposite i = false → s.outLen ≤ t.outLen) ∧
    (i = .codecCompress → t.res = s.res) ∧
    (i = .encBlock → s.inLenNat ≤ s.caps.inCap →
      ∃ (l : List Byte) (b : Byte), holds s.inBuf 0 (l ++ [b]) ∧ l.length < s.inLenNat ∧
        (∀ c ∈ l, (lookup s.ct c).isSome) ∧
        t = { s with bs := s.bs ++ encodeAll s.ct l, err := t.err } ∧
        (lookup s.ct b = Option.none ∧ t.err = .codeTableMiss ∨
          ∃ p, lookup s.ct b = some p ∧ s.caps.bsCapBits < t.bs.length + p.length ∧
            t.err = .capacityExceeded)) ∧
    (i = .decBlock → s.tree ≠ .none →
      ∃ (bits : Bits) (out : List Byte), s.tree.spells bits out ∧ bits <+: s.bs.drop s.bsRd ∧
        out.length < s.opnd.toNat ∧
        t = { s with
          bsRd := s.bsRd + bits.length, outLen := s.outLen + out.length, outBuf := t.outBuf, err := t.err } ∧
        holds t.outBuf s.outLen out ∧
        (∀ a, a < s.outLen → Mem.read t.outBuf a = Mem.read s.outBuf a) ∧
        (t.err = .corruptPayload ∧ (∀ p b, s.tree.reads p b → ¬ p <+: t.bs.drop t.bsRd) ∨
          t.err = .capacityExceeded ∧ s.caps.outCap ≤ t.outLen ∧
            ∃ p b, s.tree.reads p b ∧ p <+: t.bs.drop t.bsRd))

/-- RES is written only by the commands of 10_state.md R23, and a command that fails leaves it, but for
CODEC_DECOMPRESS, whose HDR_PARSE step may have written it. -/
def Obligations.OnlyTheNamedCommandsWriteRes : Prop :=
  ∀ (i : Instr) (s t : State), exec i s = .next t →
    ((i ≠ .bsRbit ∧ (∀ cnt, i ≠ .bsRbits cnt) ∧ (∀ b, i ≠ .faRead b) ∧ i ≠ .faTotal ∧
      (∀ b, i ≠ .ctLen b) ∧ (∀ b w, i ≠ .ctWord b w) ∧ i ≠ .decSym ∧ i ≠ .hdrParse ∧
      i ≠ .codecCompress ∧ i ≠ .codecDecompress) → t.res = s.res) ∧
    (i ≠ .codecDecompress → s.err = .none → t.err ≠ .none → t.res = s.res)

/-- The stream and its cursors (10_state.md R27, R28, R29): only BS_CLEAR, BS_LOAD and the composites
change a bit below BS_WR; only the named commands move BS_WR; only the named commands move BS_RD. -/
def Obligations.OnlyTheNamedCommandsMoveTheStream : Prop :=
  ∀ (i : Instr) (s t : State), exec i s = .next t →
    ((i ≠ .bsClear ∧ i ≠ .bsLoad ∧ i ≠ .codecCompress ∧ i ≠ .codecDecompress) → s.bs <+: t.bs) ∧
    ((i ≠ .bsClear ∧ i ≠ .bsLoad ∧ (∀ b, i ≠ .bsWbit b) ∧ (∀ cnt, i ≠ .bsWbits cnt) ∧
      (∀ b, i ≠ .encSym b) ∧ i ≠ .encBlock ∧ i ≠ .codecCompress ∧ i ≠ .codecDecompress) →
      t.bs = s.bs) ∧
    ((i ≠ .bsClear ∧ i ≠ .bsLoad ∧ i ≠ .bsRbit ∧ (∀ cnt, i ≠ .bsRbits cnt) ∧ i ≠ .decSym ∧
      i ≠ .decBlock ∧ i ≠ .codecCompress ∧ i ≠ .codecDecompress) → t.bsRd = s.bsRd)

/-- FT, TREE and CT are written only by the commands of 10_state.md R32, R33 and R35: nothing refreshes
a derived table (70_reset_and_hazards.md R255). -/
def Obligations.OnlyTheNamedCommandsWriteTables : Prop :=
  ∀ (i : Instr) (s t : State), exec i s = .next t → i ≠ .codecCompress → i ≠ .codecDecompress →
    ((i ≠ .faAnalyze ∧ i ≠ .faAccum ∧ i ≠ .hdrParse) → t.ft = s.ft) ∧
    (i ≠ .htBuild → t.tree = s.tree) ∧
    ((i ≠ .htBuild ∧ i ≠ .htCodes) → t.ct = s.ct)

/-- OUT is append-only between clears (10_state.md R31, 20_memory.md R52): only the named commands touch
it, OUT_CLEAR changes no byte, and a command that is not OUT_CLEAR or a composite never shortens it or
changes a byte below OUT_LEN. -/
def Obligations.OutIsAppendOnly : Prop :=
  ∀ (i : Instr) (s t : State), exec i s = .next t →
    ((i ≠ .outClear ∧ i ≠ .bsGetbuf ∧ i ≠ .decBlock ∧ i ≠ .hdrWrite ∧ i ≠ .codecCompress ∧
      i ≠ .codecDecompress) → t.outLen = s.outLen ∧ t.outBuf = s.outBuf) ∧
    (i = .outClear → t.outBuf = s.outBuf) ∧
    ((i ≠ .outClear ∧ i ≠ .codecCompress ∧ i ≠ .codecDecompress) →
      s.outLen ≤ t.outLen ∧ ∀ a, a < s.outLen → Mem.read t.outBuf a = Mem.read s.outBuf a)

/-! ### Control and BitStream commands (40_control.md, 41_bitstream.md) -/

/-- NOP changes nothing, ERR_CLEAR only STATUS.ERR, OUT_CLEAR only OUT_LEN, BS_CLEAR only the stream and
its cursors (R90, R91, R92, R101). -/
def Obligations.ControlCommandsAndClear : Prop :=
  ∀ s : State,
    exec .nop s = .next s ∧
    exec .errClear s = .next { s with err := .none } ∧
    exec .outClear s = .next { s with outLen := 0 } ∧
    exec .bsClear s = .next { s with bs := [], bsRd := 0 }

/-- BS_WRITE_BIT appends its bit or raises CAPACITY_EXCEEDED (R102); BS_READ_BIT gives the bit at BS_RD
or raises END_OF_STREAM (R104). -/
def Obligations.SingleBitWriteAndRead : Prop :=
  (∀ (t : Bool) (s : State),
    (s.bs.length + 1 ≤ s.caps.bsCapBits →
      exec (.bsWbit t) s = .next { s with bs := s.bs ++ [t] }) ∧
    (s.caps.bsCapBits < s.bs.length + 1 →
      exec (.bsWbit t) s = .next { s with err := .capacityExceeded })) ∧
  (∀ s : State,
    (∀ h : s.bsRd < s.bs.length,
      exec .bsRbit s = .next { s with
        res := if s.bs[s.bsRd] = true then 1#64 else 0#64
        bsRd := s.bsRd + 1 }) ∧
    (s.bsRd = s.bs.length → exec .bsRbit s = .next { s with err := .endOfStream }))

/-- BS_WRITE_BITS appends OPND[CNT-1], ..., OPND[0]; OUT_OF_RANGE for CNT above 32 comes before
CAPACITY_EXCEEDED (R103, 60_exceptions.md R237). -/
def Obligations.WriteBitsAppendsTheLowBitsOfOpnd : Prop :=
  ∀ (cnt : Nat) (s : State),
    (cnt ≤ 32 → s.bs.length + cnt ≤ s.caps.bsCapBits →
      exec (.bsWbits cnt) s = .next { s with
        bs := s.bs ++ (List.range cnt).map fun k => s.opnd.getLsbD (cnt - 1 - k) }) ∧
    (32 < cnt → exec (.bsWbits cnt) s = .next { s with err := .outOfRange }) ∧
    (cnt ≤ 32 → s.caps.bsCapBits < s.bs.length + cnt →
      exec (.bsWbits cnt) s = .next { s with err := .capacityExceeded })

/-- BS_READ_BITS composes RES from the CNT bits at BS_RD, the first the most significant, RES[63:CNT] = 0;
OUT_OF_RANGE comes before END_OF_STREAM, which consumes nothing (R105). -/
def Obligations.ReadBitsComposesMsbFirst : Prop :=
  ∀ (cnt : Nat) (s : State),
    (cnt ≤ 32 → s.bsRd + cnt ≤ s.bs.length →
      ∃ v : Word, exec (.bsRbits cnt) s = .next { s with res := v, bsRd := s.bsRd + cnt } ∧
        (∀ k, k < cnt → v.getLsbD (cnt - 1 - k) = s.bs.getD (s.bsRd + k) false) ∧
        (∀ k, cnt ≤ k → v.getLsbD k = false)) ∧
    (32 < cnt → exec (.bsRbits cnt) s = .next { s with err := .outOfRange }) ∧
    (cnt ≤ 32 → s.bs.length < s.bsRd + cnt →
      exec (.bsRbits cnt) s = .next { s with err := .endOfStream })

/-- BS_GET_BUFFER appends ceil(BS_WR / 8) bytes to OUT, stream position 8j + k at bit 7 - k of byte j and
0 past the end; nothing else changes (R106, 20_memory.md R54, R55). -/
def Obligations.GetBufferPacksMsbFirst : Prop :=
  ∀ s : State,
    (s.outLen + (s.bs.length + 7) / 8 ≤ s.caps.outCap →
      ∃ t, exec .bsGetbuf s = .next t ∧
        t = { s with outBuf := t.outBuf, outLen := s.outLen + (s.bs.length + 7) / 8 } ∧
        (∀ a, a < s.outLen ∨ s.outLen + (s.bs.length + 7) / 8 ≤ a →
          Mem.read t.outBuf a = Mem.read s.outBuf a) ∧
        (∀ j, j < (s.bs.length + 7) / 8 →
          ∃ x : Byte, Mem.read t.outBuf (s.outLen + j) = some x ∧
            ∀ k, k < 8 → x.getLsbD (7 - k) = s.bs.getD (8 * j + k) false)) ∧
    (s.caps.outCap < s.outLen + (s.bs.length + 7) / 8 →
      exec .bsGetbuf s = .next { s with err := .capacityExceeded })

/-- BS_LOAD replaces the stream by the bits of IN[OPND .. IN_LEN-1], each byte's most significant bit
first, with BS_WR at the whole byte length and BS_RD = 0; its errors in order (R107). -/
def Obligations.LoadReplacesTheStream : Prop :=
  ∀ s : State,
    (InputReady s.opnd.toNat s → s.opnd.toNat ≤ s.inLenNat →
      8 * (s.inLenNat - s.opnd.toNat) ≤ s.caps.bsCapBits →
      ∃ t, exec .bsLoad s = .next t ∧ t = { s with bs := t.bs, bsRd := 0 } ∧
        t.bs.length = 8 * (s.inLenNat - s.opnd.toNat) ∧
        ∀ i, i < 8 * (s.inLenNat - s.opnd.toNat) →
          ∃ x : Byte, Mem.read s.inBuf (s.opnd.toNat + i / 8) = some x ∧
            t.bs[i]? = some (x.getLsbD (7 - i % 8))) ∧
    (s.caps.inCap < s.inLenNat ∨ s.inLenNat < s.opnd.toNat →
      exec .bsLoad s = .next { s with err := .outOfRange }) ∧
    (s.inLenNat ≤ s.caps.inCap → s.opnd.toNat ≤ s.inLenNat →
      s.caps.bsCapBits < 8 * (s.inLenNat - s.opnd.toNat) →
      exec .bsLoad s = .next { s with err := .capacityExceeded })

/-- Writing a bit sequence in any split with BS_WRITE_BIT and BS_WRITE_BITS from BS_RD = BS_WR, then
reading its length in any split, gives it back piece by piece (R108 b). -/
def Obligations.SplitWritesReadBackInAnySplit : Prop :=
  ∀ (pieces : List Piece) (counts : List Nat) (s : State),
    s.err = .none → s.bsRd = s.bs.length → (∀ v cnt, .inr (v, cnt) ∈ pieces → cnt ≤ 32) →
    (∀ c ∈ counts, c ≤ 32) → counts.sum = (pieces.flatMap pieceBits).length →
    s.bs.length + counts.sum ≤ s.caps.bsCapBits →
    ∃ t u rs, writePieces pieces s = some t ∧ t.bs = s.bs ++ pieces.flatMap pieceBits ∧
      readPieces counts t = some (rs, u) ∧ u.bs = t.bs ∧ u.bsRd = u.bs.length ∧
      rs.length = counts.length ∧ (∀ x ∈ rs.zip counts, x.1.toNat < 2 ^ x.2) ∧
      ((rs.zip counts).flatMap fun x => pieceBits (.inr (x.1, x.2))) = pieces.flatMap pieceBits

/-- BS_GET_BUFFER followed by BS_LOAD of its bytes gives the stream and its zero padding (R108 c). -/
def Obligations.GetBufferThenLoadPads : Prop :=
  ∀ s t u : State, s.err = .none → exec .bsGetbuf s = .next t → t.err = .none →
    u.opnd = 0#64 → u.inLenNat = (s.bs.length + 7) / 8 → u.inLenNat ≤ u.caps.inCap →
    8 * u.inLenNat ≤ u.caps.bsCapBits →
    (∀ j, j < u.inLenNat → Mem.read u.inBuf j = Mem.read t.outBuf (s.outLen + j)) →
    exec .bsLoad u = .next { u with
      bs := s.bs ++ List.replicate ((8 - s.bs.length % 8) % 8) false
      bsRd := 0 }

/-! ### Frequency commands (42_frequency.md) -/

/-- FA_ANALYZE: FT[b] becomes the number of bytes b in IN[0 .. IN_LEN-1], and the sum IN_LEN; OUT_OF_RANGE
when IN_LEN > IN_CAP (R130). -/
def Obligations.AnalyzeCountsTheInput : Prop :=
  ∀ s : State,
    (InputReady 0 s →
      ∃ t, exec .faAnalyze s = .next t ∧ t = { s with ft := t.ft } ∧
        (∀ b, (lookup t.ft b).toNat = occurrences s.inBuf b s.inLenNat) ∧
        freqSum t.ft = s.inLenNat) ∧
    (s.caps.inCap < s.inLenNat → exec .faAnalyze s = .next { s with err := .outOfRange })

/-- FA_ACCUM adds the counts of IN[0 .. IN_LEN-1] to FT, or raises CAPACITY_EXCEEDED when the new sum does
not fit a u64 (R131). -/
def Obligations.AccumulateAddsTheCounts : Prop :=
  ∀ s : State,
    (InputReady 0 s → freqSum s.ft + s.inLenNat ≤ 2 ^ 64 - 1 →
      ∃ t, exec .faAccum s = .next t ∧ t = { s with ft := t.ft } ∧
        ∀ b, (lookup t.ft b).toNat = (lookup s.ft b).toNat + occurrences s.inBuf b s.inLenNat) ∧
    (s.caps.inCap < s.inLenNat → exec .faAccum s = .next { s with err := .outOfRange }) ∧
    (InputReady 0 s → 2 ^ 64 - 1 < freqSum s.ft + s.inLenNat →
      exec .faAccum s = .next { s with err := .capacityExceeded })

/-- FA_READ gives FT[b], and FA_TOTAL the sum of the 256 entries, which fits RES (R132, R133). -/
def Obligations.FrequencyReads : Prop :=
  (∀ (b : Byte) (s : State),
    ∃ v : Word, exec (.faRead b) s = .next { s with res := v } ∧ some v = s.ft[b.toNat]?) ∧
  (∀ s : State, StateInv s →
    ∃ v : Word, exec .faTotal s = .next { s with res := v } ∧
      v.toNat = ((List.range 256).map fun k => (s.ft[k]?.getD 0#64).toNat).sum)

/-- Chunked counting (R134): FA_ACCUM on every chunk adds the counts of their concatenation, so from an
empty table, or after FA_ANALYZE on the first chunk, FT holds the counts of all of them, in any order of
the chunks. -/
def Obligations.ChunkedCountingMatchesTheWhole : Prop :=
  (∀ (cs : List (List Byte)) (s : State), s.err = .none → (∀ c ∈ cs, c.length ≤ s.caps.inCap) →
    freqSum s.ft + cs.flatten.length ≤ 2 ^ 64 - 1 →
    ∃ t, accumulateChunks cs s = some t ∧
      ∀ b, (lookup t.ft b).toNat = (lookup s.ft b).toNat + cs.flatten.count b) ∧
  (∀ (c : List Byte) (cs : List (List Byte)) (s : State), s.err = .none →
    (∀ d ∈ c :: cs, d.length ≤ s.caps.inCap) → (c :: cs).flatten.length ≤ 2 ^ 64 - 1 →
    ∃ t u, exec .faAnalyze (withInput c s) = .next t ∧ accumulateChunks cs t = some u ∧
      u.ft = freqOf (c :: cs).flatten)

/-! ### Tree and code table (43_tree.md) -/

/-- HT_BUILD: one leaf per key with its frequency, every node the sum of its children, the frequency sum
at the root, the wrapper exactly for one key, n - 1 nodes and depth at most n - 1 otherwise, and an empty
CT; EMPTY_FREQ_TABLE changes nothing else (R140 to R144, 10_state.md R34). -/
def Obligations.BuildMakesTheTreeOfTheTable : Prop :=
  ∀ s : State,
    ((∃ b, lookup s.ft b ≠ 0#64) →
      ∃ r c, exec .htBuild s = .next { s with tree := r, ct := c } ∧
        (∀ b, lookup c b = Option.none) ∧
        r.leaves.Perm ((keys s.ft).map fun b => (b, (lookup s.ft b).toNat)) ∧
        r.sumsOk = true ∧ r.freq = freqSum s.ft ∧
        ((keys s.ft).length = 1 ↔ ∃ f b g, r = .wrap f b g) ∧
        (2 ≤ (keys s.ft).length → ∃ f x y, r = .full f x y ∧
          (HTree.node f x y).nodes = (keys s.ft).length - 1 ∧
          (HTree.node f x y).depth ≤ (keys s.ft).length - 1)) ∧
    ((∀ b, lookup s.ft b = 0#64) → exec .htBuild s = .next { s with err := .emptyFreqTable })

/-- HT_BUILD merges in the order of R141 and R142: from the leaves numbered in ascending byte order, the node
with the least (frequency, sequence number) is removed first and becomes the left child, the least one left
the right child, and their parent goes back in with the next number. That order determines the tree, so of
two equal frequencies none is free to go first (R140, R141, R142, 93_implementation_defined.md U1). So at
every node the left child has the lower frequency, or the frequencies are equal and a leaf on the right
stands beside a leaf of a lower byte value on the left. -/
def Obligations.BuildMergesInKeyOrder : Prop :=
  ∀ s : State, 2 ≤ (seeds s.ft).length →
    ∃ (f : Nat) (l r : HTree),
      exec .htBuild s = .next { s with tree := .full f l r, ct := emptyCodes } ∧
      MergesTo (seeds s.ft).length (seeds s.ft) (.node f l r) ∧
      (∀ t, MergesTo (seeds s.ft).length (seeds s.ft) t → t = .node f l r) ∧
      (HTree.node f l r).mergeOrdered

/-- HT_GEN_CODES: the code of a byte is the path from the root to its leaf, left 0 and right 1, the
wrapped symbol's is `0`, and a byte without a leaf has none (R145). -/
def Obligations.CodesAreTheTreePaths : Prop :=
  ∀ s : State, s.tree.symbols.Nodup →
    ∃ c, exec .htCodes s = .next { s with ct := c } ∧
      ∀ b p, lookup c b = some p ↔ s.tree.leadsTo p b

/-- The code table of a built tree (R146 a, b): a code for exactly the keys, no code a prefix of another,
length 1 to n - 1 for n >= 2 keys, and the code `0` for one key. -/
def Obligations.BuiltCodesArePrefixFree : Prop :=
  ∀ s t u : State, (∃ b, lookup s.ft b ≠ 0#64) → exec .htBuild s = .next t →
    exec .htCodes t = .next u →
    (∀ b, (lookup u.ct b).isSome ↔ lookup s.ft b ≠ 0#64) ∧ prefixFree u.ct ∧
    (2 ≤ (keys s.ft).length → ∀ b p, lookup u.ct b = some p →
      1 ≤ p.length ∧ p.length ≤ (keys s.ft).length - 1 ∧ p.length ≤ 255) ∧
    (∀ b, keys s.ft = [b] → lookup u.ct b = some [false])

/-- Kraft (R146 c): the sum of 2^-length over the codes is 1 for two keys or more and 1/2 for one, both
scaled by 2^255. -/
def Obligations.BuiltCodesMeetKraft : Prop :=
  ∀ s t u : State, exec .htBuild s = .next t → exec .htCodes t = .next u →
    (2 ≤ (keys s.ft).length →
      ((keys s.ft).map fun b => 2 ^ (255 - codeLength (lookup u.ct b))).sum = 2 ^ 255) ∧
    ((keys s.ft).length = 1 →
      ((keys s.ft).map fun b => 2 ^ (255 - codeLength (lookup u.ct b))).sum = 2 ^ 254)

/-- The payload bits of an input with the counts of FT (R146 d): its codes, one after the other, are as many
bits as the sum of FT[b] times the code length of b, and that sum is the sum of the node frequencies for two
keys or more, and FT's one entry for one key. -/
def Obligations.PayloadBitsAreTheNodeFrequencies : Prop :=
  ∀ s t u : State, exec .htBuild s = .next t → exec .htCodes t = .next u →
    (∀ l : List Byte, (∀ b, l.count b = (lookup s.ft b).toNat) →
      (encodeAll u.ct l).length =
        ((keys s.ft).map fun b => (lookup s.ft b).toNat * codeLength (lookup u.ct b)).sum) ∧
    (∀ f l r, t.tree = .full f l r → 2 ≤ (keys s.ft).length →
      ((keys s.ft).map fun b => (lookup s.ft b).toNat * codeLength (lookup u.ct b)).sum =
        (HTree.node f l r).nodeFreqs) ∧
    (∀ b, keys s.ft = [b] →
      (lookup s.ft b).toNat * codeLength (lookup u.ct b) = (lookup s.ft b).toNat)

/-- More frequent symbols receive codes that are no longer (R146 e, which the spec marks as general
knowledge about Huffman's greedy merge). -/
def Obligations.MoreFrequentSymbolsGetShorterCodes : Prop :=
  ∀ (s t u : State) (a b : Byte), exec .htBuild s = .next t → exec .htCodes t = .next u →
    lookup s.ft b ≠ 0#64 → (lookup s.ft b).toNat < (lookup s.ft a).toNat →
    codeLength (lookup u.ct a) ≤ codeLength (lookup u.ct b)

/-- CT_LEN gives the length of a code, 0 for none; CT_WORD gives code bit 64w + k at RES[63 - k], 0 past
the end and for no code (R147, R148). -/
def Obligations.CodeTableReads : Prop :=
  (∀ (b : Byte) (s : State), StateInv s →
    ∃ v : Word, exec (.ctLen b) s = .next { s with res := v } ∧
      (lookup s.ct b = Option.none → v = 0#64) ∧
      (∀ p, lookup s.ct b = some p → v.toNat = p.length)) ∧
  (∀ (b : Byte) (w : Nat) (s : State),
    ∃ v : Word, exec (.ctWord b w) s = .next { s with res := v } ∧
      (lookup s.ct b = Option.none → v = 0#64) ∧
      (∀ p, lookup s.ct b = some p → ∀ k, k < 64 → v.getLsbD (63 - k) = p.getD (64 * w + k) false))

/-! ### Encoder and decoder (44_encdec.md) -/

/-- ENC_SYMBOL appends the code of its byte; CODE_TABLE_MISS comes before CAPACITY_EXCEEDED (R170). -/
def Obligations.EncodeSymbolAppendsTheCode : Prop :=
  ∀ (b : Byte) (s : State),
    (∀ p, lookup s.ct b = some p → s.bs.length + p.length ≤ s.caps.bsCapBits →
      exec (.encSym b) s = .next { s with bs := s.bs ++ p }) ∧
    (lookup s.ct b = Option.none → exec (.encSym b) s = .next { s with err := .codeTableMiss }) ∧
    (∀ p, lookup s.ct b = some p → s.caps.bsCapBits < s.bs.length + p.length →
      exec (.encSym b) s = .next { s with err := .capacityExceeded })

/-- ENC_BLOCK appends the codes of IN[0 .. IN_LEN-1] in order; at a symbol that fails, the symbols before
it stay appended and it appends nothing (R171, 60_exceptions.md R233). -/
def Obligations.EncodeBlockAppendsInOrder : Prop :=
  (∀ (s : State) (l : List Byte), holds s.inBuf 0 l → s.inLenNat = l.length →
    s.inLenNat ≤ s.caps.inCap → (∀ b ∈ l, (lookup s.ct b).isSome) →
    s.bs.length + (encodeAll s.ct l).length ≤ s.caps.bsCapBits →
    exec .encBlock s = .next { s with bs := s.bs ++ encodeAll s.ct l }) ∧
  (∀ s : State, s.caps.inCap < s.inLenNat →
    exec .encBlock s = .next { s with err := .outOfRange }) ∧
  (∀ (s : State) (l : List Byte) (b : Byte), holds s.inBuf 0 (l ++ [b]) → l.length < s.inLenNat →
    s.inLenNat ≤ s.caps.inCap → (∀ c ∈ l, (lookup s.ct c).isSome) →
    s.bs.length + (encodeAll s.ct l).length ≤ s.caps.bsCapBits →
    (lookup s.ct b = Option.none →
      exec .encBlock s = .next { s with bs := s.bs ++ encodeAll s.ct l, err := .codeTableMiss }) ∧
    (∀ p, lookup s.ct b = some p →
      s.caps.bsCapBits < s.bs.length + (encodeAll s.ct l).length + p.length →
      exec .encBlock s = .next { s with bs := s.bs ++ encodeAll s.ct l, err := .capacityExceeded }))

/-- DEC_SYMBOL: bits at BS_RD that lead from the root to a leaf decode to its byte and are consumed, a
wrapper takes any one bit, as many bits as the tree is deep always decode, and when the bits end first
CORRUPT_PAYLOAD consumes nothing; NO_TREE without a tree (R172, R173, R175 b and c). -/
def Obligations.DecodeSymbolFollowsTheTree : Prop :=
  ∀ s : State,
    (s.tree = .none → exec .decSym s = .next { s with err := .noTree }) ∧
    (∀ p b, s.tree.reads p b → p <+: s.bs.drop s.bsRd →
      exec .decSym s = .next { s with res := b.setWidth 64, bsRd := s.bsRd + p.length }) ∧
    (s.tree ≠ .none → (∀ p b, s.tree.reads p b → ¬ p <+: s.bs.drop s.bsRd) →
      exec .decSym s = .next { s with err := .corruptPayload }) ∧
    (∀ f l r, s.tree = .full f l r →
      (HTree.node f l r).depth ≤ (s.bs.drop s.bsRd).length →
      ∃ p b, s.tree.reads p b ∧ p <+: s.bs.drop s.bsRd) ∧
    (∀ f c g x rest, s.tree = .wrap f c g → s.bs.drop s.bsRd = x :: rest → s.tree.reads [x] c)

/-- DEC_BLOCK: when the bits at BS_RD spell OPND symbols that fit in OUT, they are appended in order and
exactly their bits are consumed, whatever follows them (R174, R175 d). -/
def Obligations.DecodeBlockAppendsTheSymbols : Prop :=
  ∀ (s : State) (bits : Bits) (out : List Byte), s.tree ≠ .none → s.tree.spells bits out →
    bits <+: s.bs.drop s.bsRd → s.opnd.toNat = out.length →
    s.outLen + out.length ≤ s.caps.outCap →
    ∃ t, exec .decBlock s = .next t ∧
      t = { s with
        bsRd := s.bsRd + bits.length, outLen := s.outLen + out.length, outBuf := t.outBuf } ∧
      holds t.outBuf s.outLen out ∧
      ∀ a, a < s.outLen ∨ s.outLen + out.length ≤ a → Mem.read t.outBuf a = Mem.read s.outBuf a

/-- DEC_BLOCK's errors (R174, 60_exceptions.md R233): NO_TREE even for a count of 0; after the symbols in
front, a symbol cut off by the end of the stream raises CORRUPT_PAYLOAD and one that does not fit in OUT
CAPACITY_EXCEEDED, and that symbol consumes no bit. -/
def Obligations.DecodeBlockStopsAtTheFailingSymbol : Prop :=
  (∀ s : State, s.tree = .none → exec .decBlock s = .next { s with err := .noTree }) ∧
  (∀ (s : State) (bits : Bits) (out : List Byte), s.tree ≠ .none → s.tree.spells bits out →
    bits <+: s.bs.drop s.bsRd → out.length < s.opnd.toNat →
    s.outLen + out.length ≤ s.caps.outCap →
    ((∀ p b, s.tree.reads p b → ¬ p <+: (s.bs.drop s.bsRd).drop bits.length) →
      ∃ t, exec .decBlock s = .next t ∧
        t = { s with
          bsRd := s.bsRd + bits.length
          outLen := s.outLen + out.length
          outBuf := t.outBuf
          err := .corruptPayload } ∧
        holds t.outBuf s.outLen out) ∧
    (∀ p b, s.tree.reads p b → p <+: (s.bs.drop s.bsRd).drop bits.length →
      s.outLen + out.length = s.caps.outCap →
      ∃ t, exec .decBlock s = .next t ∧
        t = { s with
          bsRd := s.bsRd + bits.length
          outLen := s.outLen + out.length
          outBuf := t.outBuf
          err := .capacityExceeded } ∧
        holds t.outBuf s.outLen out))

/-- Encoding then decoding (R175 a): when CT holds the codes of TREE, ENC_BLOCK followed by DEC_BLOCK of
as many symbols, read from where the encoder began, appends the input bytes to OUT and stops at the last
bit appended. -/
def Obligations.DecodeUndoesEncode : Prop :=
  ∀ (s t u : State) (l : List Byte), StateInv s → s.tree ≠ .none → s.ct = codesOf s.tree → s.err = .none →
    holds s.inBuf 0 l → s.inLenNat = l.length → exec .encBlock s = .next t → t.err = .none →
    u = { t with opnd := s.inLen, bsRd := s.bs.length } → s.outLen + l.length ≤ s.caps.outCap →
    ∃ v, exec .decBlock u = .next v ∧ v.err = .none ∧ v.bsRd = v.bs.length ∧ v.bs = t.bs ∧
      v.outLen = s.outLen + l.length ∧ holds v.outBuf s.outLen l

/-! ### Container and codec (45_codec.md) -/

/-- HDR_WRITE appends the symbol count as a little-endian u32 and then, for every key in ascending order,
its byte value and its frequency as a little-endian u64; nothing else changes (R190, R191, R192). -/
def Obligations.WriteHeaderSerialisesTheTable : Prop :=
  ∀ s : State,
    (s.outLen + (4 + 9 * (keys s.ft).length) ≤ s.caps.outCap →
      ∃ t, exec .hdrWrite s = .next t ∧
        t = { s with outBuf := t.outBuf, outLen := s.outLen + (4 + 9 * (keys s.ft).length) } ∧
        (∀ a, a < s.outLen ∨ s.outLen + (4 + 9 * (keys s.ft).length) ≤ a →
          Mem.read t.outBuf a = Mem.read s.outBuf a) ∧
        (∀ m, m < 4 → Mem.read t.outBuf (s.outLen + m) =
          some (BitVec.ofNat 8 ((keys s.ft).length / 2 ^ (8 * m)))) ∧
        (∀ j (h : j < (keys s.ft).length),
          Mem.read t.outBuf (s.outLen + (4 + 9 * j)) = some (keys s.ft)[j] ∧
          ∀ m, m < 8 → Mem.read t.outBuf (s.outLen + (5 + 9 * j + m)) =
            some ((lookup s.ft (keys s.ft)[j]).extractLsb' (8 * m) 8))) ∧
    (s.caps.outCap < s.outLen + (4 + 9 * (keys s.ft).length) →
      exec .hdrWrite s = .next { s with err := .capacityExceeded })

/-- HDR_PARSE accepts a header with entries in any order: FT becomes its table and RES its length 4 + 9k,
whatever bytes follow; a header made by HDR_WRITE gives the table back (R193, R194, R198). -/
def Obligations.ParseHeaderReadsTheTable : Prop :=
  (∀ (s : State) (l : List (Byte × Word)), goodEntries l → holds s.inBuf 0 (entryBytes l) →
    (entryBytes l).length ≤ s.inLenNat → s.inLenNat ≤ s.caps.inCap →
    ∃ T, exec .hdrParse s = .next { s with ft := T, res := BitVec.ofNat 64 (4 + 9 * l.length) } ∧
      (∀ e ∈ l, lookup T e.1 = e.2) ∧ (∀ b, b ∉ l.map Prod.fst → lookup T b = 0#64)) ∧
  (∀ (s : State) (T : FreqTable), freqSum T ≤ 2 ^ 64 - 1 → holds s.inBuf 0 (header T) →
    (header T).length ≤ s.inLenNat → s.inLenNat ≤ s.caps.inCap →
    exec .hdrParse s =
      .next { s with ft := T, res := BitVec.ofNat 64 (4 + 9 * (keys T).length) })

/-- HDR_PARSE's errors (R193, R194, 60_exceptions.md R223): OUT_OF_RANGE first; MALFORMED_HEADER for a
truncated count, a count above 256, truncated entries, a frequency of 0, a repeated byte value and a sum
that does not fit a u64. -/
def Obligations.ParseHeaderRejectsMalformedHeaders : Prop :=
  ∀ s : State,
    (s.caps.inCap < s.inLenNat → exec .hdrParse s = .next { s with err := .outOfRange }) ∧
    (s.inLenNat ≤ s.caps.inCap → s.inLenNat < 4 →
      exec .hdrParse s = .next { s with err := .malformedHeader }) ∧
    (∀ k, s.inLenNat ≤ s.caps.inCap → 4 ≤ s.inLenNat → k < 2 ^ 32 → holds s.inBuf 0 (leBytes k 4) →
      (256 < k ∨ s.inLenNat < 4 + 9 * k) →
      exec .hdrParse s = .next { s with err := .malformedHeader }) ∧
    (∀ (k : Nat) (l : List (Byte × Word)) (b : Byte) (f : Word), s.inLenNat ≤ s.caps.inCap →
      l.length < k → k ≤ 256 → 4 + 9 * k ≤ s.inLenNat → goodEntries l →
      holds s.inBuf 0 (leBytes k 4 ++ (l ++ [(b, f)]).flatMap fun e => e.1 :: leBytes e.2.toNat 8) →
      (f = 0#64 ∨ b ∈ l.map Prod.fst ∨
        2 ^ 64 - 1 < (l.map fun e => e.2.toNat).sum + f.toNat) →
      exec .hdrParse s = .next { s with err := .malformedHeader })

/-- CODEC_COMPRESS: the container of IN[0 .. IN_LEN-1] in OUT, its length in OUT_LEN and RES, the input's
table, tree and codes, and the payload in BS; empty input gives empty output and builds no tree. A payload
that does not fit BS, or a container that does not fit OUT, raises CAPACITY_EXCEEDED, and FT, TREE, CT and BS
stay as the steps in front left them: BS holds the codes of the symbols in front of the one that did not fit,
or the whole payload (R195, R196, 60_exceptions.md R233, R234). -/
def Obligations.CompressWritesTheContainer : Prop :=
  (∀ (s : State) (l : List Byte), l ≠ [] → holds s.inBuf 0 l → s.inLenNat = l.length →
    s.inLenNat ≤ s.caps.inCap →
    ((payloadBits l).length ≤ s.caps.bsCapBits → (container l).length ≤ s.caps.outCap →
      ∃ t, exec .codecCompress s = .next t ∧
        t = { s with
          ft := freqOf l
          tree := treeOf (freqOf l)
          ct := codesOf (treeOf (freqOf l))
          bs := payloadBits l
          bsRd := 0
          outLen := (container l).length
          outBuf := t.outBuf
          res := BitVec.ofNat 64 (container l).length } ∧
        holds t.outBuf 0 (container l) ∧
        ∀ a, (container l).length ≤ a → Mem.read t.outBuf a = Mem.read s.outBuf a) ∧
    (s.caps.bsCapBits < (payloadBits l).length →
      ∃ (front : List Byte) (b : Byte) (rest : List Byte), l = front ++ b :: rest ∧
        (encodeAll (codesOf (treeOf (freqOf l))) front).length ≤ s.caps.bsCapBits ∧
        s.caps.bsCapBits < (encodeAll (codesOf (treeOf (freqOf l))) (front ++ [b])).length ∧
        exec .codecCompress s = .next { s with
          ft := freqOf l
          tree := treeOf (freqOf l)
          ct := codesOf (treeOf (freqOf l))
          bs := encodeAll (codesOf (treeOf (freqOf l))) front
          bsRd := 0
          outLen := 0
          err := .capacityExceeded }) ∧
    ((payloadBits l).length ≤ s.caps.bsCapBits → s.caps.outCap < (container l).length →
      ∃ t, exec .codecCompress s = .next t ∧
        t = { s with
          ft := freqOf l
          tree := treeOf (freqOf l)
          ct := codesOf (treeOf (freqOf l))
          bs := payloadBits l
          bsRd := 0
          outLen := 0
          outBuf := t.outBuf
          err := .capacityExceeded } ∧
        ∀ a, (header (freqOf l)).length ≤ a → Mem.read t.outBuf a = Mem.read s.outBuf a)) ∧
  (∀ s : State, s.inLenNat = 0 →
    exec .codecCompress s = .next { s with outLen := 0, ft := emptyFreq, res := 0#64 }) ∧
  (∀ s : State, s.caps.inCap < s.inLenNat →
    exec .codecCompress s = .next { s with outLen := 0, err := .outOfRange })

/-- CODEC_DECOMPRESS: a header with entries in any order, then a payload whose first bits spell as many
symbols as the frequencies sum to, decompresses to those symbols, whatever padding and bytes follow;
CT is empty afterwards; empty input gives empty output (R197, R199 a). -/
def Obligations.DecompressDecodesTheContainer : Prop :=
  (∀ (s : State) (l : List (Byte × Word)) (payload : List Byte) (bits : Bits) (out : List Byte),
    l ≠ [] → goodEntries l → holds s.inBuf 0 (entryBytes l ++ payload) →
    s.inLenNat = (entryBytes l ++ payload).length → s.inLenNat ≤ s.caps.inCap →
    8 * payload.length ≤ s.caps.bsCapBits → (treeOf (tableOf l)).spells bits out →
    bits <+: unpackBytes payload → out.length = (l.map fun e => e.2.toNat).sum →
    out.length ≤ s.caps.outCap →
    ∃ t, exec .codecDecompress s = .next t ∧
      t = { s with
        ft := tableOf l
        tree := treeOf (tableOf l)
        ct := emptyCodes
        bs := unpackBytes payload
        bsRd := bits.length
        outLen := out.length
        outBuf := t.outBuf
        res := BitVec.ofNat 64 out.length } ∧
      holds t.outBuf 0 out ∧ ∀ a, out.length ≤ a → Mem.read t.outBuf a = Mem.read s.outBuf a) ∧
  (∀ s : State, s.inLenNat = 0 →
    exec .codecDecompress s = .next { s with outLen := 0, res := 0#64 }) ∧
  (∀ s : State, s.caps.inCap < s.inLenNat →
    exec .codecDecompress s = .next { s with outLen := 0, err := .outOfRange })

/-- CODEC_DECOMPRESS's errors by step (R195, R197, 60_exceptions.md R233, R234, R237): a malformed header
ends it with MALFORMED_HEADER, a header with no entry with EMPTY_FREQ_TABLE, a payload that does not fit BS
with CAPACITY_EXCEEDED, bits that run out before the last symbol with CORRUPT_PAYLOAD, and a symbol that does
not fit OUT with CAPACITY_EXCEEDED. OUT_LEN is 0, RES holds the header's length once HDR_PARSE succeeded, FT,
TREE and BS stay as the steps in front left them, and BS_RD stands at the failing symbol. That RES is
unchanged after a malformed header is the model's reading of R23, R194 and D24 against one phrase of R197
(log entry 20). -/
def Obligations.DecompressStopsAtTheFirstError : Prop :=
  ∀ s : State, s.err = .none → s.inLenNat ≤ s.caps.inCap →
    (s.inLenNat ≠ 0 → exec .hdrParse { s with outLen := 0 } =
        .next { s with outLen := 0, err := .malformedHeader } →
      exec .codecDecompress s = .next { s with outLen := 0, err := .malformedHeader }) ∧
    (4 ≤ s.inLenNat → holds s.inBuf 0 (leBytes 0 4) →
      exec .codecDecompress s =
        .next { s with outLen := 0, ft := emptyFreq, res := 4#64, err := .emptyFreqTable }) ∧
    (∀ l : List (Byte × Word), l ≠ [] → goodEntries l → holds s.inBuf 0 (entryBytes l) →
      (entryBytes l).length ≤ s.inLenNat →
      s.caps.bsCapBits < 8 * (s.inLenNat - (entryBytes l).length) →
      exec .codecDecompress s =
        .next { s with
          outLen := 0
          ft := tableOf l
          tree := treeOf (tableOf l)
          ct := emptyCodes
          res := BitVec.ofNat 64 (4 + 9 * l.length)
          err := .capacityExceeded }) ∧
    (∀ (l : List (Byte × Word)) (payload : List Byte) (bits : Bits) (out : List Byte) (e : Err),
      l ≠ [] → goodEntries l → holds s.inBuf 0 (entryBytes l ++ payload) →
      s.inLenNat = (entryBytes l ++ payload).length → 8 * payload.length ≤ s.caps.bsCapBits →
      (treeOf (tableOf l)).spells bits out → bits <+: unpackBytes payload →
      out.length < (l.map fun x => x.2.toNat).sum → out.length ≤ s.caps.outCap →
      (e = .corruptPayload ∧
          (∀ p b, (treeOf (tableOf l)).reads p b → ¬ p <+: (unpackBytes payload).drop bits.length) ∨
        e = .capacityExceeded ∧ out.length = s.caps.outCap ∧
          ∃ p b, (treeOf (tableOf l)).reads p b ∧ p <+: (unpackBytes payload).drop bits.length) →
      ∃ t, exec .codecDecompress s = .next t ∧
        t = { s with
          outLen := 0
          outBuf := t.outBuf
          ft := tableOf l
          tree := treeOf (tableOf l)
          ct := emptyCodes
          bs := unpackBytes payload
          bsRd := bits.length
          res := BitVec.ofNat 64 (4 + 9 * l.length)
          err := e } ∧
        ∀ a, out.length ≤ a → Mem.read t.outBuf a = Mem.read s.outBuf a)

/-- The round trip (R198): what CODEC_COMPRESS wrote, copied to the IN of a block whose capacities allow
it, decompresses to the input, with the tree of compression. -/
def Obligations.DecompressUndoesCompress : Prop :=
  ∀ s t u : State, s.err = .none → InputReady 0 s → exec .codecCompress s = .next t →
    t.err = .none → u.inLenNat = t.outLen → u.inLenNat ≤ u.caps.inCap →
    (∀ a, a < t.outLen → Mem.read u.inBuf a = Mem.read t.outBuf a) →
    8 * (t.outLen - (4 + 9 * (keys t.ft).length)) ≤ u.caps.bsCapBits →
    s.inLenNat ≤ u.caps.outCap →
    ∃ v, exec .codecDecompress u = .next v ∧ v.err = u.err ∧ v.outLen = s.inLenNat ∧
      v.res = s.inLen ∧ (∀ a, a < s.inLenNat → Mem.read v.outBuf a = Mem.read s.inBuf a) ∧
      (s.inLenNat ≠ 0 → v.tree = t.tree ∧ v.ft = t.ft)

/-- Truncation is detected (R199 b): a container that lost its last byte ends with CORRUPT_PAYLOAD and no
output, never with other bytes. -/
def Obligations.TruncatedContainerIsCorrupt : Prop :=
  ∀ (u : State) (l : List Byte), l ≠ [] → l.length ≤ 2 ^ 64 - 1 →
    holds u.inBuf 0 (container l).dropLast → u.inLenNat = (container l).length - 1 →
    u.inLenNat ≤ u.caps.inCap → 8 * (packBytes (payloadBits l)).length ≤ u.caps.bsCapBits + 8 →
    l.length ≤ u.caps.outCap →
    ∃ v, exec .codecDecompress u = .next v ∧ v.err = .corruptPayload ∧ v.outLen = 0 ∧
      v.res = BitVec.ofNat 64 (header (freqOf l)).length
end

