-- ==== Sys2Proof/Laws/Bits.lean ====
section
/-! SUPPORT. The laws of bit sequences, of the byte view of the BitStream, and of little-endian
integers. -/

namespace Sys2Proof.Machine

/-! ### Bit sequences and their values -/

@[simp] theorem length_bitsMsb (v n : Nat) : (bitsMsb v n).length = n := by
  induction n with
  | zero => rfl
  | succ n ih => simp [bitsMsb, ih]

theorem getElem_bitsMsb (v n k : Nat) (h : k < (bitsMsb v n).length) :
    (bitsMsb v n)[k] = v.testBit (n - 1 - k) := by
  induction n generalizing k with
  | zero => simp at h
  | succ n ih =>
    cases k with
    | zero => simp [bitsMsb]
    | succ k =>
      have := ih k (by simpa [bitsMsb] using h)
      simp only [bitsMsb, List.getElem_cons_succ, this]
      congr 1; omega

/-- `bits_msb` spelled with indices. -/
theorem bitsMsb_eq_map (v n : Nat) : bitsMsb v n = (List.range n).map fun k => v.testBit (n - 1 - k) := by
  apply List.ext_getElem
  · simp
  · intro k h1 h2; simp [getElem_bitsMsb]

theorem valMsb_foldl (s : Bits) (acc : Nat) :
    s.foldl (fun acc b => 2 * acc + b.toNat) acc = acc * 2 ^ s.length + valMsb s := by
  induction s generalizing acc with
  | nil => simp [valMsb]
  | cons b s ih =>
    simp only [valMsb, List.foldl_cons, List.length_cons] at ih ⊢
    rw [ih, ih (2 * 0 + b.toNat), Nat.pow_succ]; ring

@[simp] theorem valMsb_nil : valMsb [] = 0 := rfl

theorem valMsb_cons (b : Bool) (s : Bits) : valMsb (b :: s) = b.toNat * 2 ^ s.length + valMsb s := by
  rw [valMsb, List.foldl_cons, valMsb_foldl]; simp

theorem valMsb_append (s t : Bits) : valMsb (s ++ t) = valMsb s * 2 ^ t.length + valMsb t := by
  rw [valMsb, List.foldl_append, valMsb_foldl]; rfl

theorem valMsb_lt (s : Bits) : valMsb s < 2 ^ s.length := by
  induction s with
  | nil => simp
  | cons b s ih =>
    rw [valMsb_cons, List.length_cons, Nat.pow_succ]
    cases b <;> simp <;> omega

/-- The value of the bits of `v`. -/
theorem valMsb_bitsMsb (v n : Nat) : valMsb (bitsMsb v n) = v % 2 ^ n := by
  induction n with
  | zero => simp [bitsMsb, Nat.mod_one]
  | succ n ih =>
    rw [bitsMsb, valMsb_cons, ih, length_bitsMsb, Nat.pow_succ, Nat.mod_mul, Nat.testBit_eq_decide_div_mod_eq]
    rcases Nat.mod_two_eq_zero_or_one (v / 2 ^ n) with h | h <;> simp [h]
    omega

/-- The bits of a value. -/
theorem bitsMsb_valMsb (s : Bits) : bitsMsb (valMsb s) s.length = s := by
  have aux : ∀ n v w, v % 2 ^ n = w % 2 ^ n → bitsMsb v n = bitsMsb w n := by
    intro n v w h
    rw [bitsMsb_eq_map, bitsMsb_eq_map]
    refine List.map_congr_left fun k hk => ?_
    have hk := List.mem_range.mp hk
    have h1 := congrArg (fun x => x.testBit (n - 1 - k)) h
    simpa [Nat.testBit_mod_two_pow, show n - 1 - k < n by omega] using h1
  induction s with
  | nil => rfl
  | cons b s ih =>
    have h : (valMsb (b :: s)).testBit s.length = b := by
      rw [valMsb_cons, Nat.mul_comm, Nat.testBit_two_pow_mul_add _ (valMsb_lt s)]
      cases b <;> simp
    rw [List.length_cons, bitsMsb, h]
    congr 1
    rw [aux s.length _ (valMsb s), ih]
    rw [valMsb_cons, Nat.mul_comm]; simp

theorem testBit_valMsb (s : Bits) (i : Nat) (h : i < s.length) :
    (valMsb s).testBit i = s[s.length - 1 - i]'(by omega) := by
  have e := bitsMsb_valMsb s
  have := getElem_bitsMsb (valMsb s) s.length (s.length - 1 - i) (by simp; omega)
  rw [show s.length - 1 - (s.length - 1 - i) = i by omega] at this
  rw [← this]; simp [e]

/-! ### The byte view -/

theorem bitOrZero_lt {s : Bits} {i : Nat} (h : i < s.length) : bitOrZero s i = s[i] := by
  simp [bitOrZero, List.getD, h]

theorem bitOrZero_ge {s : Bits} {i : Nat} (h : s.length ≤ i) : bitOrZero s i = false := by
  simp [bitOrZero, List.getD, h]

@[simp] theorem length_packBytes (s : Bits) : (packBytes s).length = (s.length + 7) / 8 := by
  simp [packBytes]

theorem getElem_packBytes (s : Bits) (j : Nat) (h : j < (packBytes s).length) :
    (packBytes s)[j] = packByte s j := by simp [packBytes]

/-- The bits of one byte of the byte view. -/
theorem bitsMsb_packByte (s : Bits) (j : Nat) :
    bitsMsb (packByte s j).toNat 8 = (List.range 8).map fun k => bitOrZero s (8 * j + k) := by
  have h := bitsMsb_valMsb ((List.range 8).map fun k => bitOrZero s (8 * j + k))
  have hl := valMsb_lt ((List.range 8).map fun k => bitOrZero s (8 * j + k))
  simp only [List.length_map, List.length_range] at h hl
  rw [packByte, BitVec.toNat_ofNat, Nat.mod_eq_of_lt hl, h]

/-- Position `i` of the stream is bit `7 - i mod 8` of its byte (20_memory.md R55). -/
theorem getLsbD_packByte (s : Bits) (j k : Nat) (h : k < 8) :
    (packByte s j).getLsbD (7 - k) = bitOrZero s (8 * j + k) := by
  have h1 := getElem_bitsMsb (packByte s j).toNat 8 k (by simpa using h)
  rw [BitVec.getLsbD, show 7 - k = 8 - 1 - k by omega, ← h1]
  simp [bitsMsb_packByte]

@[simp] theorem unpackBytes_nil : unpackBytes [] = [] := rfl

theorem unpackBytes_cons (x : Byte) (l : List Byte) :
    unpackBytes (x :: l) = bitsMsb x.toNat 8 ++ unpackBytes l := rfl

theorem unpackBytes_append (l₁ l₂ : List Byte) :
    unpackBytes (l₁ ++ l₂) = unpackBytes l₁ ++ unpackBytes l₂ := by simp [unpackBytes]

@[simp] theorem length_unpackBytes (l : List Byte) : (unpackBytes l).length = 8 * l.length := by
  induction l with
  | nil => rfl
  | cons x l ih => simp [unpackBytes_cons, ih]; omega

theorem getElem_unpackBytes (l : List Byte) (i : Nat) (h : i < (unpackBytes l).length) :
    (unpackBytes l)[i] = (l[i / 8]'(by simp at h; omega)).getLsbD (7 - i % 8) := by
  induction l generalizing i with
  | nil => simp at h
  | cons x l ih =>
    simp only [unpackBytes_cons, List.getElem_append, length_bitsMsb]
    split
    · next hi =>
      have : i / 8 = 0 := by omega
      have e : i % 8 = i := by omega
      simp only [getElem_bitsMsb, this, List.getElem_cons_zero, e, BitVec.getLsbD]
    · next hi =>
      have h' : i - 8 < (unpackBytes l).length := by
        simp only [unpackBytes_cons, List.length_append, length_bitsMsb] at h; omega
      rw [ih _ h']
      have e1 : i / 8 = (i - 8) / 8 + 1 := by omega
      have e2 : (i - 8) % 8 = i % 8 := by omega
      simp [e1, e2]

/-- Unpacking the byte view gives the stream and its padding (41_bitstream.md R108 c). -/
theorem unpackBytes_packBytes (s : Bits) :
    unpackBytes (packBytes s) = s ++ List.replicate ((8 - s.length % 8) % 8) false := by
  apply List.ext_getElem
  · simp; omega
  · intro i h1 h2
    rw [getElem_unpackBytes, getElem_packBytes, getLsbD_packByte _ _ _ (by omega)]
    have e : 8 * (i / 8) + i % 8 = i := by omega
    rw [e, List.getElem_append]
    split
    · next h => exact bitOrZero_lt h
    · next h => rw [bitOrZero_ge (by omega)]; simp

/-! ### Little-endian integers -/

@[simp] theorem length_leBytes (v n : Nat) : (leBytes v n).length = n := by
  induction n generalizing v with
  | zero => rfl
  | succ n ih => simp [leBytes, ih]

/-- Reading back a little-endian integer. -/
theorem leNat_leBytes (v n : Nat) : leNat (leBytes v n) = v % 2 ^ (8 * n) := by
  induction n generalizing v with
  | zero => simp [leBytes, leNat, Nat.mod_one]
  | succ n ih =>
    rw [leBytes, leNat, ih, BitVec.toNat_ofNat, Nat.mul_succ, Nat.add_comm (8 * n), Nat.pow_add,
      Nat.mod_mul]

theorem leNat_leBytes_of_lt {v n : Nat} (h : v < 2 ^ (8 * n)) : leNat (leBytes v n) = v := by
  rw [leNat_leBytes, Nat.mod_eq_of_lt h]

theorem leNat_lt (l : List Byte) : leNat l < 2 ^ (8 * l.length) := by
  induction l with
  | nil => simp [leNat]
  | cons x l ih =>
    have := x.isLt
    rw [leNat, List.length_cons, Nat.mul_succ, Nat.add_comm (8 * l.length), Nat.pow_add]
    nlinarith

end Sys2Proof.Machine
end

