-- ==== Sys2Proof/Laws/Memory.lean ====
section
/-! SUPPORT. The laws of the byte buffers: reads after writes, and that every write keeps the canonical
form. -/

namespace Sys2Proof.Machine

@[simp] theorem Mem.read_nil (a : Nat) : Mem.read [] a = Option.none := rfl

theorem Mem.read_cons (c : Host.Cell) (m : Mem) (a : Nat) :
    Mem.read (c :: m) a = if c.1 = a then some c.2 else Mem.read m a := rfl

/-- A read after a write to the same address gives the byte written. -/
@[simp] theorem Mem.read_write_same (m : Mem) (a : Nat) (x : Byte) :
    Mem.read (Mem.write m a x) a = some x := by
  induction m with
  | nil => simp [Mem.write, Mem.read]
  | cons c m ih =>
    simp only [Mem.write]
    split
    · simp [Mem.read]
    · split
      · simp [Mem.read]
      · simp only [Mem.read_cons, ih]; split <;> [omega; rfl]

/-- A write leaves every other address alone. -/
theorem Mem.read_write_other (m : Mem) {a b : Nat} (x : Byte) (h : b ≠ a) :
    Mem.read (Mem.write m a x) b = Mem.read m b := by
  induction m with
  | nil => simp [Mem.write, Mem.read, Ne.symm h]
  | cons c m ih =>
    simp only [Mem.write]
    split
    · simp [Mem.read, Ne.symm h]
    · split
      · rename_i h2; simp [Mem.read, Ne.symm h, ← h2]
      · simp only [Mem.read_cons, ih]

theorem Mem.read_write (m : Mem) (a b : Nat) (x : Byte) :
    Mem.read (Mem.write m a x) b = if b = a then some x else Mem.read m b := by
  split
  · next h => subst h; exact Mem.read_write_same m b x
  · next h => exact Mem.read_write_other m x h

/-- Writing the same byte twice is writing it once. -/
theorem Mem.write_write_same (m : Mem) (a : Nat) (x : Byte) :
    Mem.write (Mem.write m a x) a x = Mem.write m a x := by
  induction m with
  | nil => simp [Mem.write]
  | cons c m ih =>
    by_cases h1 : a < c.1
    · simp [Mem.write, h1]
    · by_cases h2 : a = c.1
      · simp [Mem.write, h2]
      · simp [Mem.write, h1, h2, ih]

/-- The cells of a written buffer are the new one and old ones. -/
theorem Mem.mem_write {m : Mem} {a : Nat} {x : Byte} {c : Host.Cell} (h : c ∈ Mem.write m a x) :
    c = (a, x) ∨ c ∈ m := by
  induction m with
  | nil => simpa [Mem.write] using h
  | cons d m ih =>
    simp only [Mem.write] at h
    split at h
    · simpa using h
    · split at h
      · rcases List.mem_cons.mp h with h | h
        · exact .inl h
        · exact .inr (List.mem_cons_of_mem _ h)
      · rcases List.mem_cons.mp h with h | h
        · exact .inr (by simp [h])
        · rcases ih h with h | h
          · exact .inl h
          · exact .inr (List.mem_cons_of_mem _ h)

/-- A write keeps the canonical form. -/
theorem Mem.wf_write {m : Mem} (h : Mem.wf m) (a : Nat) (x : Byte) : Mem.wf (Mem.write m a x) := by
  induction m with
  | nil => simp [Mem.wf, Mem.write]
  | cons c m ih =>
    obtain ⟨hc, hm⟩ := List.pairwise_cons.mp h
    simp only [Mem.write]
    split
    · next hlt =>
      refine List.pairwise_cons.mpr ⟨?_, h⟩
      intro d hd
      rcases List.mem_cons.mp hd with rfl | hd
      · exact hlt
      · exact Nat.lt_trans hlt (hc d hd)
    · split
      · next he => exact List.pairwise_cons.mpr ⟨fun d hd => by simpa [he] using hc d hd, hm⟩
      · next hn he =>
        refine List.pairwise_cons.mpr ⟨?_, ih hm⟩
        intro d hd
        rcases Mem.mem_write hd with rfl | hd
        · show c.1 < a; omega
        · exact hc d hd

/-- A write below a bound keeps every address below it. -/
theorem Mem.bound_write {m : Mem} {n : Nat} (h : ∀ c ∈ m, c.1 < n) {a : Nat} (ha : a < n) (x : Byte) :
    ∀ c ∈ Mem.write m a x, c.1 < n := by
  intro c hc
  rcases Mem.mem_write hc with rfl | hc
  · exact ha
  · exact h c hc

/-- A byte that has been written stays written. -/
theorem Mem.isSome_write {m : Mem} {b : Nat} (h : (Mem.read m b).isSome) (a : Nat) (x : Byte) :
    (Mem.read (Mem.write m a x) b).isSome := by
  rw [Mem.read_write]; split
  · rfl
  · exact h

/-- A read below the first address written by `writeList`. -/
theorem Mem.read_writeList_below (l : List Byte) (m : Mem) {a b : Nat} (h : b < a) :
    Mem.read (Mem.writeList m a l) b = Mem.read m b := by
  induction l generalizing m a with
  | nil => rfl
  | cons x l ih =>
    rw [Mem.writeList, ih _ (by omega), Mem.read_write_other _ _ (by omega)]

/-- A read after `writeList`, inside the bytes written and outside them. -/
theorem Mem.read_writeList (l : List Byte) (m : Mem) (a b : Nat) :
    Mem.read (Mem.writeList m a l) b =
      if h : a ≤ b ∧ b - a < l.length then some (l[b - a]'h.2) else Mem.read m b := by
  induction l generalizing m a with
  | nil => simp [Mem.writeList]
  | cons x l ih =>
    rw [Mem.writeList, ih, Mem.read_write]
    by_cases h1 : b = a
    · subst h1
      rw [dif_neg (by omega), if_pos rfl, dif_pos (by simp)]
      simp
    · rw [if_neg h1]
      by_cases h2 : a + 1 ≤ b ∧ b - (a + 1) < l.length
      · rw [dif_pos h2, dif_pos ⟨by omega, by simp; omega⟩]
        have : b - a = (b - (a + 1)) + 1 := by omega
        simp [this]
      · rw [dif_neg h2, dif_neg (by simp; omega)]

/-- A read past the last byte written by `writeList`. -/
theorem Mem.read_writeList_above (l : List Byte) (m : Mem) {a b : Nat} (h : a + l.length ≤ b) :
    Mem.read (Mem.writeList m a l) b = Mem.read m b := by
  rw [Mem.read_writeList, dif_neg (by omega)]

/-- Two lists written one after the other are their concatenation written once. -/
theorem Mem.writeList_append (x y : List Byte) (m : Mem) (a : Nat) :
    Mem.writeList (Mem.writeList m a x) (a + x.length) y = Mem.writeList m a (x ++ y) := by
  induction x generalizing m a with
  | nil => rfl
  | cons c x ih =>
    rw [List.cons_append, Mem.writeList, Mem.writeList, ← ih, List.length_cons,
      show a + (x.length + 1) = a + 1 + x.length by omega]

theorem Mem.wf_writeList (l : List Byte) {m : Mem} (h : Mem.wf m) (a : Nat) :
    Mem.wf (Mem.writeList m a l) := by
  induction l generalizing m a with
  | nil => exact h
  | cons x l ih => exact ih (Mem.wf_write h a x) (a + 1)

theorem Mem.bound_writeList (l : List Byte) {m : Mem} {n : Nat} (h : ∀ c ∈ m, c.1 < n) {a : Nat}
    (ha : a + l.length ≤ n) : ∀ c ∈ Mem.writeList m a l, c.1 < n := by
  induction l generalizing m a with
  | nil => exact h
  | cons x l ih =>
    simp only [List.length_cons] at ha
    exact ih (Mem.bound_write h (by omega) x) (by omega)

/-- In the canonical form an address below every listed one reads as nothing. -/
theorem Mem.read_eq_none_of_lt {m : Mem} {a : Nat} (h : ∀ c ∈ m, a < c.1) :
    Mem.read m a = Option.none := by
  induction m with
  | nil => rfl
  | cons c m ih =>
    have hc : a < c.1 := h c (List.mem_cons_self ..)
    rw [Mem.read_cons, if_neg (by omega), ih fun d hd => h d (List.mem_cons_of_mem _ hd)]

/-- Equal memories are equal data: two buffers in canonical form that read the same are the same list. -/
theorem Mem.ext_of_wf {m n : Mem} (hm : Mem.wf m) (hn : Mem.wf n)
    (h : ∀ a, Mem.read m a = Mem.read n a) : m = n := by
  induction m generalizing n with
  | nil =>
    cases n with
    | nil => rfl
    | cons d n => have := h d.1; simp [Mem.read] at this
  | cons c m ih =>
    obtain ⟨hc, hm'⟩ := List.pairwise_cons.mp hm
    cases n with
    | nil => have := h c.1; simp [Mem.read] at this
    | cons d n =>
      obtain ⟨hd, hn'⟩ := List.pairwise_cons.mp hn
      have e1 : c.1 = d.1 := by
        rcases Nat.lt_trichotomy c.1 d.1 with hl | he | hl
        · have := h c.1
          rw [Mem.read_cons, if_pos rfl, Mem.read_eq_none_of_lt (m := d :: n)] at this
          · cases this
          · intro e he
            rcases List.mem_cons.mp he with rfl | he
            · exact hl
            · exact Nat.lt_trans hl (hd e he)
        · exact he
        · have := h d.1
          rw [Mem.read_cons (c := d), if_pos rfl, Mem.read_eq_none_of_lt (m := c :: m)] at this
          · cases this
          · intro e he
            rcases List.mem_cons.mp he with rfl | he
            · exact hl
            · exact Nat.lt_trans hl (hc e he)
      have e2 : c.2 = d.2 := by
        have := h c.1
        rw [Mem.read_cons, if_pos rfl, Mem.read_cons, if_pos e1.symm] at this
        exact Option.some.inj this
      have e : c = d := Prod.ext e1 e2
      subst e
      congr 1
      refine ih hm' hn' fun a => ?_
      by_cases ha : c.1 = a
      · subst ha
        rw [Mem.read_eq_none_of_lt hc, Mem.read_eq_none_of_lt hd]
      · have := h a
        rwa [Mem.read_cons, if_neg ha, Mem.read_cons, if_neg ha] at this

end Sys2Proof.Machine
end

