-- ==== Sys2Proof/Laws/State.lean ====
section
/-! SUPPORT. One lemma per field per named update of the state, each true by rfl. -/

namespace Sys2Proof.Machine

/-- STATUS with no error and no tree reads 0 (10_state.md R25). -/
theorem status_eq_zero {s : State} (he : s.err = .none) (ht : s.tree = .none) : s.status = 0#64 := by
  simp only [State.status, State.tv, he, ht, Err.code]
  decide

/-! ### State.raiseError -/

@[simp] theorem State.raiseError_caps (s : State) (e : Err) : (s.raiseError e).caps = s.caps := rfl
@[simp] theorem State.raiseError_opnd (s : State) (e : Err) : (s.raiseError e).opnd = s.opnd := rfl
@[simp] theorem State.raiseError_res (s : State) (e : Err) : (s.raiseError e).res = s.res := rfl
@[simp] theorem State.raiseError_err (s : State) (e : Err) : (s.raiseError e).err = e := rfl
@[simp] theorem State.raiseError_inLen (s : State) (e : Err) : (s.raiseError e).inLen = s.inLen := rfl
@[simp] theorem State.raiseError_outLen (s : State) (e : Err) : (s.raiseError e).outLen = s.outLen := rfl
@[simp] theorem State.raiseError_bs (s : State) (e : Err) : (s.raiseError e).bs = s.bs := rfl
@[simp] theorem State.raiseError_bsRd (s : State) (e : Err) : (s.raiseError e).bsRd = s.bsRd := rfl
@[simp] theorem State.raiseError_ft (s : State) (e : Err) : (s.raiseError e).ft = s.ft := rfl
@[simp] theorem State.raiseError_tree (s : State) (e : Err) : (s.raiseError e).tree = s.tree := rfl
@[simp] theorem State.raiseError_ct (s : State) (e : Err) : (s.raiseError e).ct = s.ct := rfl
@[simp] theorem State.raiseError_inBuf (s : State) (e : Err) : (s.raiseError e).inBuf = s.inBuf := rfl
@[simp] theorem State.raiseError_outBuf (s : State) (e : Err) : (s.raiseError e).outBuf = s.outBuf := rfl
@[simp] theorem State.raiseError_host (s : State) (e : Err) : (s.raiseError e).host = s.host := rfl
@[simp] theorem State.raiseError_reply (s : State) (e : Err) : (s.raiseError e).reply = s.reply := rfl
@[simp] theorem State.raiseError_epoch (s : State) (e : Err) : (s.raiseError e).epoch = s.epoch := rfl

/-! ### State.clearError -/

@[simp] theorem State.clearError_caps (s : State) : s.clearError.caps = s.caps := rfl
@[simp] theorem State.clearError_opnd (s : State) : s.clearError.opnd = s.opnd := rfl
@[simp] theorem State.clearError_res (s : State) : s.clearError.res = s.res := rfl
@[simp] theorem State.clearError_err (s : State) : s.clearError.err = .none := rfl
@[simp] theorem State.clearError_inLen (s : State) : s.clearError.inLen = s.inLen := rfl
@[simp] theorem State.clearError_outLen (s : State) : s.clearError.outLen = s.outLen := rfl
@[simp] theorem State.clearError_bs (s : State) : s.clearError.bs = s.bs := rfl
@[simp] theorem State.clearError_bsRd (s : State) : s.clearError.bsRd = s.bsRd := rfl
@[simp] theorem State.clearError_ft (s : State) : s.clearError.ft = s.ft := rfl
@[simp] theorem State.clearError_tree (s : State) : s.clearError.tree = s.tree := rfl
@[simp] theorem State.clearError_ct (s : State) : s.clearError.ct = s.ct := rfl
@[simp] theorem State.clearError_inBuf (s : State) : s.clearError.inBuf = s.inBuf := rfl
@[simp] theorem State.clearError_outBuf (s : State) : s.clearError.outBuf = s.outBuf := rfl
@[simp] theorem State.clearError_host (s : State) : s.clearError.host = s.host := rfl
@[simp] theorem State.clearError_reply (s : State) : s.clearError.reply = s.reply := rfl
@[simp] theorem State.clearError_epoch (s : State) : s.clearError.epoch = s.epoch := rfl

/-! ### State.tick -/

@[simp] theorem State.tick_caps (s : State) : s.tick.caps = s.caps := rfl
@[simp] theorem State.tick_opnd (s : State) : s.tick.opnd = s.opnd := rfl
@[simp] theorem State.tick_res (s : State) : s.tick.res = s.res := rfl
@[simp] theorem State.tick_err (s : State) : s.tick.err = s.err := rfl
@[simp] theorem State.tick_inLen (s : State) : s.tick.inLen = s.inLen := rfl
@[simp] theorem State.tick_outLen (s : State) : s.tick.outLen = s.outLen := rfl
@[simp] theorem State.tick_bs (s : State) : s.tick.bs = s.bs := rfl
@[simp] theorem State.tick_bsRd (s : State) : s.tick.bsRd = s.bsRd := rfl
@[simp] theorem State.tick_ft (s : State) : s.tick.ft = s.ft := rfl
@[simp] theorem State.tick_tree (s : State) : s.tick.tree = s.tree := rfl
@[simp] theorem State.tick_ct (s : State) : s.tick.ct = s.ct := rfl
@[simp] theorem State.tick_inBuf (s : State) : s.tick.inBuf = s.inBuf := rfl
@[simp] theorem State.tick_outBuf (s : State) : s.tick.outBuf = s.outBuf := rfl
@[simp] theorem State.tick_host (s : State) : s.tick.host = s.host := rfl
@[simp] theorem State.tick_reply (s : State) : s.tick.reply = s.reply := rfl
@[simp] theorem State.tick_epoch (s : State) : s.tick.epoch = s.epoch + 1 := rfl

/-! ### clearStream -/

@[simp] theorem clearStream_caps (s : State) : (clearStream s).caps = s.caps := rfl
@[simp] theorem clearStream_opnd (s : State) : (clearStream s).opnd = s.opnd := rfl
@[simp] theorem clearStream_res (s : State) : (clearStream s).res = s.res := rfl
@[simp] theorem clearStream_err (s : State) : (clearStream s).err = s.err := rfl
@[simp] theorem clearStream_inLen (s : State) : (clearStream s).inLen = s.inLen := rfl
@[simp] theorem clearStream_outLen (s : State) : (clearStream s).outLen = s.outLen := rfl
@[simp] theorem clearStream_bs (s : State) : (clearStream s).bs = [] := rfl
@[simp] theorem clearStream_bsRd (s : State) : (clearStream s).bsRd = 0 := rfl
@[simp] theorem clearStream_ft (s : State) : (clearStream s).ft = s.ft := rfl
@[simp] theorem clearStream_tree (s : State) : (clearStream s).tree = s.tree := rfl
@[simp] theorem clearStream_ct (s : State) : (clearStream s).ct = s.ct := rfl
@[simp] theorem clearStream_inBuf (s : State) : (clearStream s).inBuf = s.inBuf := rfl
@[simp] theorem clearStream_outBuf (s : State) : (clearStream s).outBuf = s.outBuf := rfl
@[simp] theorem clearStream_host (s : State) : (clearStream s).host = s.host := rfl
@[simp] theorem clearStream_reply (s : State) : (clearStream s).reply = s.reply := rfl
@[simp] theorem clearStream_epoch (s : State) : (clearStream s).epoch = s.epoch := rfl

/-! ### generateCodes -/

@[simp] theorem generateCodes_caps (s : State) : (generateCodes s).caps = s.caps := rfl
@[simp] theorem generateCodes_opnd (s : State) : (generateCodes s).opnd = s.opnd := rfl
@[simp] theorem generateCodes_res (s : State) : (generateCodes s).res = s.res := rfl
@[simp] theorem generateCodes_err (s : State) : (generateCodes s).err = s.err := rfl
@[simp] theorem generateCodes_inLen (s : State) : (generateCodes s).inLen = s.inLen := rfl
@[simp] theorem generateCodes_outLen (s : State) : (generateCodes s).outLen = s.outLen := rfl
@[simp] theorem generateCodes_bs (s : State) : (generateCodes s).bs = s.bs := rfl
@[simp] theorem generateCodes_bsRd (s : State) : (generateCodes s).bsRd = s.bsRd := rfl
@[simp] theorem generateCodes_ft (s : State) : (generateCodes s).ft = s.ft := rfl
@[simp] theorem generateCodes_tree (s : State) : (generateCodes s).tree = s.tree := rfl
@[simp] theorem generateCodes_ct (s : State) : (generateCodes s).ct = codesOf s.tree := rfl
@[simp] theorem generateCodes_inBuf (s : State) : (generateCodes s).inBuf = s.inBuf := rfl
@[simp] theorem generateCodes_outBuf (s : State) : (generateCodes s).outBuf = s.outBuf := rfl
@[simp] theorem generateCodes_host (s : State) : (generateCodes s).host = s.host := rfl
@[simp] theorem generateCodes_reply (s : State) : (generateCodes s).reply = s.reply := rfl
@[simp] theorem generateCodes_epoch (s : State) : (generateCodes s).epoch = s.epoch := rfl

/-! ### resOutLen -/

@[simp] theorem resOutLen_caps (s : State) : (resOutLen s).caps = s.caps := rfl
@[simp] theorem resOutLen_opnd (s : State) : (resOutLen s).opnd = s.opnd := rfl
@[simp] theorem resOutLen_res (s : State) : (resOutLen s).res = BitVec.ofNat 64 s.outLen := rfl
@[simp] theorem resOutLen_err (s : State) : (resOutLen s).err = s.err := rfl
@[simp] theorem resOutLen_inLen (s : State) : (resOutLen s).inLen = s.inLen := rfl
@[simp] theorem resOutLen_outLen (s : State) : (resOutLen s).outLen = s.outLen := rfl
@[simp] theorem resOutLen_bs (s : State) : (resOutLen s).bs = s.bs := rfl
@[simp] theorem resOutLen_bsRd (s : State) : (resOutLen s).bsRd = s.bsRd := rfl
@[simp] theorem resOutLen_ft (s : State) : (resOutLen s).ft = s.ft := rfl
@[simp] theorem resOutLen_tree (s : State) : (resOutLen s).tree = s.tree := rfl
@[simp] theorem resOutLen_ct (s : State) : (resOutLen s).ct = s.ct := rfl
@[simp] theorem resOutLen_inBuf (s : State) : (resOutLen s).inBuf = s.inBuf := rfl
@[simp] theorem resOutLen_outBuf (s : State) : (resOutLen s).outBuf = s.outBuf := rfl
@[simp] theorem resOutLen_host (s : State) : (resOutLen s).host = s.host := rfl
@[simp] theorem resOutLen_reply (s : State) : (resOutLen s).reply = s.reply := rfl
@[simp] theorem resOutLen_epoch (s : State) : (resOutLen s).epoch = s.epoch := rfl

/-! ### resetAction -/

@[simp] theorem resetAction_caps (s : State) : (resetAction s).caps = s.caps := rfl
@[simp] theorem resetAction_opnd (s : State) : (resetAction s).opnd = 0#64 := rfl
@[simp] theorem resetAction_res (s : State) : (resetAction s).res = 0#64 := rfl
@[simp] theorem resetAction_err (s : State) : (resetAction s).err = .none := rfl
@[simp] theorem resetAction_inLen (s : State) : (resetAction s).inLen = 0#64 := rfl
@[simp] theorem resetAction_outLen (s : State) : (resetAction s).outLen = 0 := rfl
@[simp] theorem resetAction_bs (s : State) : (resetAction s).bs = [] := rfl
@[simp] theorem resetAction_bsRd (s : State) : (resetAction s).bsRd = 0 := rfl
@[simp] theorem resetAction_ft (s : State) : (resetAction s).ft = emptyFreq := rfl
@[simp] theorem resetAction_tree (s : State) : (resetAction s).tree = .none := rfl
@[simp] theorem resetAction_ct (s : State) : (resetAction s).ct = emptyCodes := rfl
@[simp] theorem resetAction_inBuf (s : State) : (resetAction s).inBuf = s.inBuf := rfl
@[simp] theorem resetAction_outBuf (s : State) : (resetAction s).outBuf = s.outBuf := rfl
@[simp] theorem resetAction_host (s : State) : (resetAction s).host = s.host := rfl
@[simp] theorem resetAction_reply (s : State) : (resetAction s).reply = s.reply := rfl
@[simp] theorem resetAction_epoch (s : State) : (resetAction s).epoch = s.epoch := rfl

/-! ### queueCommand -/

@[simp] theorem queueCommand_caps (v : Word) (s : State) : (queueCommand v s).caps = s.caps := rfl
@[simp] theorem queueCommand_opnd (v : Word) (s : State) : (queueCommand v s).opnd = s.opnd := rfl
@[simp] theorem queueCommand_res (v : Word) (s : State) : (queueCommand v s).res = s.res := rfl
@[simp] theorem queueCommand_err (v : Word) (s : State) : (queueCommand v s).err = s.err := rfl
@[simp] theorem queueCommand_inLen (v : Word) (s : State) : (queueCommand v s).inLen = s.inLen := rfl
@[simp] theorem queueCommand_outLen (v : Word) (s : State) : (queueCommand v s).outLen = s.outLen := rfl
@[simp] theorem queueCommand_bs (v : Word) (s : State) : (queueCommand v s).bs = s.bs := rfl
@[simp] theorem queueCommand_bsRd (v : Word) (s : State) : (queueCommand v s).bsRd = s.bsRd := rfl
@[simp] theorem queueCommand_ft (v : Word) (s : State) : (queueCommand v s).ft = s.ft := rfl
@[simp] theorem queueCommand_tree (v : Word) (s : State) : (queueCommand v s).tree = s.tree := rfl
@[simp] theorem queueCommand_ct (v : Word) (s : State) : (queueCommand v s).ct = s.ct := rfl
@[simp] theorem queueCommand_inBuf (v : Word) (s : State) : (queueCommand v s).inBuf = s.inBuf := rfl
@[simp] theorem queueCommand_outBuf (v : Word) (s : State) : (queueCommand v s).outBuf = s.outBuf := rfl
@[simp] theorem queueCommand_host (v : Word) (s : State) : (queueCommand v s).host = .writeReg 8 0x00 v :: s.host := rfl
@[simp] theorem queueCommand_reply (v : Word) (s : State) : (queueCommand v s).reply = s.reply := rfl
@[simp] theorem queueCommand_epoch (v : Word) (s : State) : (queueCommand v s).epoch = s.epoch := rfl

end Sys2Proof.Machine
end

