-- ==== Sys2Proof/Laws/Tables.lean ====
section
/-! SUPPORT. The laws of tables indexed by a byte, of their iteration order, and of frequency sums. -/

namespace Sys2Proof.Machine

/-! ### Entries -/

@[simp] theorem lookup_update_same {α : Type} (t : ByteTable α) (b : Byte) (x : α) :
    lookup (update t b x) b = x := by simp [lookup, update]

theorem lookup_update_other {α : Type} (t : ByteTable α) {a b : Byte} (x : α) (h : a ≠ b) :
    lookup (update t b x) a = lookup t a := by
  have : b.toNat ≠ a.toNat := fun e => h (BitVec.eq_of_toNat_eq e).symm
  simp [lookup, update, this]

theorem lookup_update {α : Type} (t : ByteTable α) (a b : Byte) (x : α) :
    lookup (update t b x) a = if a = b then x else lookup t a := by
  split
  · next h => subst h; simp
  · next h => exact lookup_update_other t x h

/-- Two tables with the same entries are the same table. -/
theorem table_ext {α : Type} {t u : ByteTable α} (h : ∀ b, lookup t b = lookup u b) : t = u := by
  apply Vector.ext
  intro i hi
  have := h (BitVec.ofNat 8 i)
  have e : i % 256 = i := Nat.mod_eq_of_lt hi
  simpa [lookup, e] using this

@[simp] theorem lookup_replicate {α : Type} (x : α) (b : Byte) :
    lookup (Vector.replicate 256 x) b = x := by simp [lookup]

@[simp] theorem lookup_emptyFreq (b : Byte) : lookup emptyFreq b = 0#64 := lookup_replicate _ _

@[simp] theorem lookup_emptyCodes (b : Byte) : lookup emptyCodes b = Option.none := lookup_replicate _ _

@[simp] theorem lookup_zeroCounts (b : Byte) : lookup zeroCounts b = 0 := lookup_replicate _ _

@[simp] theorem lookup_map {α β : Type} (f : α → β) (t : ByteTable α) (b : Byte) :
    lookup (mapTable f t) b = f (lookup t b) := by simp [lookup, mapTable]

@[simp] theorem lookup_countsOf (t : FreqTable) (b : Byte) :
    lookup (countsOf t) b = (lookup t b).toNat := lookup_map _ _ _

@[simp] theorem lookup_storeCounts (t : ByteTable Nat) (b : Byte) :
    lookup (storeCounts t) b = BitVec.ofNat 64 (lookup t b) := lookup_map _ _ _

/-! ### The iteration order -/

theorem mem_allBytes (b : Byte) : b ∈ allBytes := by
  refine List.mem_map.mpr ⟨b.toNat, List.mem_range.mpr b.isLt, ?_⟩
  simp

theorem length_allBytes : allBytes.length = 256 := by simp [allBytes]

theorem allBytes_sorted : allBytes.Pairwise fun a b => a.toNat < b.toNat := by
  refine List.pairwise_map.mpr ?_
  refine (List.pairwise_lt_range (n := 256)).imp_of_mem ?_
  intro a b ha hb h
  have := List.mem_range.mp ha
  have := List.mem_range.mp hb
  simp only [BitVec.toNat_ofNat]
  omega

theorem allBytes_nodup : allBytes.Nodup :=
  allBytes_sorted.imp fun h e => by subst e; exact Nat.lt_irrefl _ h

/-- A table as the list of its entries in iteration order. -/
theorem toList_eq_map_lookup {α : Type} (t : ByteTable α) : t.toList = allBytes.map (lookup t) := by
  apply List.ext_getElem
  · simp [length_allBytes]
  · intro i h1 h2
    have hi : i < 256 := by simpa using h1
    have e : i % 256 = i := Nat.mod_eq_of_lt hi
    simp [allBytes, lookup, e]

theorem keysFrom_eq_filter (i : Nat) (l : List Word) :
    keysFrom i l =
      ((List.range' i l.length).filter fun k => l.getD (k - i) 0#64 ≠ 0#64).map (BitVec.ofNat 8) := by
  induction l generalizing i with
  | nil => rfl
  | cons f l ih =>
    have h : (List.range' (i + 1) l.length).filter (fun k => (f :: l).getD (k - i) 0#64 ≠ 0#64) =
        (List.range' (i + 1) l.length).filter fun k => l.getD (k - (i + 1)) 0#64 ≠ 0#64 := by
      refine List.filter_congr fun k hk => ?_
      have := (List.mem_range'_1.mp hk).1
      rw [show k - i = (k - (i + 1)) + 1 by omega, List.getD_cons_succ]
    rw [keysFrom, ih, List.length_cons, List.range'_succ, List.filter_cons, h]
    by_cases hf : f = 0#64 <;> simp [hf]

/-- The keys are the bytes with an entry that is not 0, ascending (43_tree.md R140). -/
theorem keys_eq_filter (t : FreqTable) : keys t = allBytes.filter fun b => lookup t b ≠ 0#64 := by
  rw [keys, keysFrom_eq_filter, allBytes, List.filter_map, Vector.length_toList, List.range_eq_range']
  congr 1
  refine List.filter_congr fun k hk => ?_
  have hk : k < 256 := by simpa using (List.mem_range'_1.mp hk).2
  simp [lookup, List.getD_eq_getElem?_getD, Nat.mod_eq_of_lt hk, hk]

theorem mem_keys {t : FreqTable} {b : Byte} : b ∈ keys t ↔ lookup t b ≠ 0#64 := by
  simp [keys_eq_filter, mem_allBytes]

theorem keys_sorted (t : FreqTable) : (keys t).Pairwise fun a b => a.toNat < b.toNat :=
  keys_eq_filter t ▸ allBytes_sorted.filter _

theorem keys_nodup (t : FreqTable) : (keys t).Nodup :=
  keys_eq_filter t ▸ allBytes_nodup.filter _

theorem length_keys_le (t : FreqTable) : (keys t).length ≤ 256 := by
  rw [← length_allBytes, keys_eq_filter]; exact List.length_filter_le _ _

/-! ### Sums -/

/-- The sum of a table of naturals, entry by entry. -/
theorem sum_toList (t : ByteTable Nat) : t.toList.sum = (allBytes.map (lookup t)).sum := by
  rw [toList_eq_map_lookup]

theorem freqSum_eq (t : FreqTable) : freqSum t = (allBytes.map fun b => (lookup t b).toNat).sum := by
  simp [freqSum, toList_eq_map_lookup, Function.comp_def]

/-- Adding to one entry adds to the sum. -/
theorem sum_update_add (t : ByteTable Nat) (b : Byte) (n : Nat) :
    (update t b (lookup t b + n)).toList.sum = t.toList.sum + n := by
  rw [sum_toList, sum_toList]
  have key : ∀ l : List Byte, l.Nodup → b ∈ l →
      (l.map (lookup (update t b (lookup t b + n)))).sum = (l.map (lookup t)).sum + n := by
    intro l
    induction l with
    | nil => intro _ h; cases h
    | cons a l ih =>
      intro hnd hm
      obtain ⟨ha, hl⟩ := List.nodup_cons.mp hnd
      by_cases hab : b = a
      · subst hab
        have : l.map (lookup (update t b (lookup t b + n))) = l.map (lookup t) := by
          refine List.map_congr_left fun c hc => lookup_update_other t _ ?_
          rintro rfl; exact ha hc
        simp [this]; omega
      · have hb : b ∈ l := by
          rcases List.mem_cons.mp hm with h | h
          · exact absurd h hab
          · exact h
        simp [ih hl hb, lookup_update_other t _ (Ne.symm hab)]; omega
  exact key allBytes allBytes_nodup (mem_allBytes b)

/-- Counting a byte list adds the number of occurrences to each entry. -/
theorem lookup_countBytes (l : List Byte) (t : ByteTable Nat) (b : Byte) :
    lookup (countBytes t l) b = lookup t b + l.count b := by
  induction l generalizing t with
  | nil => simp [countBytes]
  | cons x l ih =>
    have := ih (countByte t x)
    simp only [countBytes, List.foldl_cons] at this ⊢
    rw [this, countByte, lookup_update, List.count_cons]
    split
    · next h => subst h; simp; omega
    · next h => simp [beq_eq_false_iff_ne.mpr (Ne.symm h)]

/-- Counting a byte list adds its length to the sum. -/
theorem sum_countBytes (l : List Byte) (t : ByteTable Nat) :
    (countBytes t l).toList.sum = t.toList.sum + l.length := by
  induction l generalizing t with
  | nil => simp [countBytes]
  | cons x l ih =>
    have := ih (countByte t x)
    simp only [countBytes, List.foldl_cons, List.length_cons] at this ⊢
    rw [this, countByte, sum_update_add]; omega

theorem countBytes_append (t : ByteTable Nat) (l₁ l₂ : List Byte) :
    countBytes t (l₁ ++ l₂) = countBytes (countBytes t l₁) l₂ := by simp [countBytes]

/-- One entry is at most the sum. -/
theorem lookup_le_sum (t : ByteTable Nat) (b : Byte) : lookup t b ≤ t.toList.sum := by
  rw [sum_toList]
  exact List.single_le_sum (fun _ _ => Nat.zero_le _) _ (List.mem_map_of_mem (mem_allBytes b))

/-- Counts whose sum fits a u64 are stored as they are. -/
theorem countsOf_storeCounts {t : ByteTable Nat} (h : t.toList.sum ≤ 2 ^ 64 - 1) :
    countsOf (storeCounts t) = t := by
  refine table_ext fun b => ?_
  have := lookup_le_sum t b
  simp only [lookup_countsOf, lookup_storeCounts, BitVec.toNat_ofNat]
  omega

@[simp] theorem storeCounts_countsOf (t : FreqTable) : storeCounts (countsOf t) = t :=
  table_ext fun b => by simp

theorem freqSum_eq_sum_countsOf (t : FreqTable) : freqSum t = (countsOf t).toList.sum := by
  rw [freqSum_eq, sum_toList]
  exact congrArg List.sum (List.map_congr_left fun b _ => (lookup_countsOf t b).symm)

theorem freqSum_storeCounts {t : ByteTable Nat} (h : t.toList.sum ≤ 2 ^ 64 - 1) :
    freqSum (storeCounts t) = t.toList.sum := by
  rw [freqSum_eq_sum_countsOf, countsOf_storeCounts h]

@[simp] theorem sum_zeroCounts : zeroCounts.toList.sum = 0 := by
  rw [sum_toList, List.sum_eq_zero]
  intro x hx
  obtain ⟨b, _, rfl⟩ := List.mem_map.mp hx
  exact lookup_zeroCounts b

@[simp] theorem freqSum_emptyFreq : freqSum emptyFreq = 0 := by
  rw [freqSum_eq, List.sum_eq_zero]
  intro x hx
  obtain ⟨b, _, rfl⟩ := List.mem_map.mp hx
  simp

theorem lookup_le_freqSum (t : FreqTable) (b : Byte) : (lookup t b).toNat ≤ freqSum t := by
  rw [freqSum_eq_sum_countsOf, ← lookup_countsOf]; exact lookup_le_sum _ _

/-- The sum over the keys alone is the frequency sum. -/
theorem sum_keys (t : FreqTable) : ((keys t).map fun b => (lookup t b).toNat).sum = freqSum t := by
  rw [freqSum_eq, keys_eq_filter]
  generalize allBytes = l
  induction l with
  | nil => rfl
  | cons b l ih =>
    by_cases h : lookup t b = 0#64
    · rw [List.filter_cons_of_neg (by simpa using h), ih]; simp [h]
    · rw [List.filter_cons_of_pos (by simpa using h), List.map_cons, List.sum_cons, ih]; simp

/-- Storing an entry over a 0 adds it to the frequency sum. -/
theorem freqSum_update_zero {t : FreqTable} {b : Byte} (h : lookup t b = 0#64) (x : Word) :
    freqSum (update t b x) = freqSum t + x.toNat := by
  have e : countsOf (update t b x) = update (countsOf t) b (lookup (countsOf t) b + x.toNat) := by
    refine table_ext fun a => ?_
    simp only [lookup_countsOf, lookup_update]
    split
    · simp [h]
    · rfl
  rw [freqSum_eq_sum_countsOf, e, sum_update_add, ← freqSum_eq_sum_countsOf]

theorem keys_eq_nil_iff (t : FreqTable) : keys t = [] ↔ ∀ b, lookup t b = 0#64 := by
  constructor
  · intro h b
    by_contra hb
    have := mem_keys.mpr hb
    rw [h] at this; cases this
  · intro h
    refine List.eq_nil_iff_forall_not_mem.mpr fun b hb => mem_keys.mp hb (h b)

end Sys2Proof.Machine
end

