-- ==== Sys2Proof/Laws/Ops.lean ====
section
/-! SUPPORT. For each shared operation, what it can answer and when: provers cite these lemmas instead
of unfolding the operations. -/

namespace Sys2Proof.Machine

/-! ### Runs -/

@[simp] theorem primitive_ok (t s : State) : primitive (.ok t) s = .done t := rfl
@[simp] theorem primitive_err (e : Err) (s : State) : primitive (.error (.err e)) s = .raised e s := rfl
@[simp] theorem primitive_fault (f : Fault) (s : State) :
    primitive (.error (.fault f)) s = .stopped f := rfl

@[simp] theorem done_andThen (s : State) (k : State → Run) : (Run.done s).andThen k = k s := rfl
@[simp] theorem raised_andThen (e : Err) (s : State) (k : State → Run) :
    (Run.raised e s).andThen k = .raised e s := rfl
@[simp] theorem stopped_andThen (f : Fault) (k : State → Run) :
    (Run.stopped f).andThen k = .stopped f := rfl

@[simp] theorem outcome_done (s : State) : (Run.done s).outcome = .next s := rfl
@[simp] theorem outcome_raised (e : Err) (s : State) :
    (Run.raised e s).outcome = .next (s.raiseError e) := rfl
@[simp] theorem outcome_stopped (f : Fault) : (Run.stopped f).outcome = .fault f := rfl

@[simp] theorem clearOut_done (s : State) : (Run.done s).clearOutOnError = .done s := rfl
@[simp] theorem clearOut_raised (e : Err) (s : State) :
    (Run.raised e s).clearOutOnError = .raised e { s with outLen := 0 } := rfl
@[simp] theorem clearOut_stopped (f : Fault) : (Run.stopped f).clearOutOnError = .stopped f := rfl

/-- The ways a run answers a next state: it is done there, or it raised an error there. -/
theorem outcome_eq_next {r : Run} {t : State} :
    r.outcome = .next t ↔ r = .done t ∨ ∃ e s, r = .raised e s ∧ t = s.raiseError e := by
  cases r <;> simp [eq_comm]

/-- A primitive command answers a next state by succeeding, or by raising an error that leaves the
state before it (60_exceptions.md R232). -/
theorem primitive_next {r : Except Halt State} {s t : State} :
    (primitive r s).outcome = .next t ↔
      r = .ok t ∨ ∃ e, r = .error (.err e) ∧ t = s.raiseError e := by
  rcases r with (e | f) | u <;> simp [eq_comm]

theorem primitive_eq_done {r : Except Halt State} {s t : State} :
    primitive r s = .done t ↔ r = .ok t := by
  rcases r with (e | f) | u <;> simp

theorem primitive_eq_raised {r : Except Halt State} {s t : State} {e : Err} :
    primitive r s = .raised e t ↔ r = .error (.err e) ∧ t = s := by
  rcases r with (e' | f) | u <;> simp [eq_comm]

theorem andThen_eq_done {r : Run} {k : State → Run} {t : State} :
    r.andThen k = .done t ↔ ∃ u, r = .done u ∧ k u = .done t := by
  cases r <;> simp

/-- A sequence ends in an error in its first step, or after it (60_exceptions.md R233). -/
theorem andThen_eq_raised {r : Run} {k : State → Run} {e : Err} {t : State} :
    r.andThen k = .raised e t ↔ r = .raised e t ∨ ∃ u, r = .done u ∧ k u = .raised e t := by
  cases r <;> simp

theorem andThen_eq_stopped {r : Run} {k : State → Run} {f : Fault} :
    r.andThen k = .stopped f ↔ r = .stopped f ∨ ∃ u, r = .done u ∧ k u = .stopped f := by
  cases r <;> simp

theorem clearOut_eq_done {r : Run} {t : State} : r.clearOutOnError = .done t ↔ r = .done t := by
  cases r <;> simp

theorem clearOut_eq_raised {r : Run} {e : Err} {t : State} :
    r.clearOutOnError = .raised e t ↔ ∃ u, r = .raised e u ∧ t = { u with outLen := 0 } := by
  cases r <;> simp [eq_comm]

theorem clearOut_eq_stopped {r : Run} {f : Fault} :
    r.clearOutOnError = .stopped f ↔ r = .stopped f := by
  cases r <;> simp

/-- The state a run leaves, when it leaves one. -/
def Run.leaves : Run → State → Prop
  | .done s, t => t = s
  | .raised _ s, t => t = s
  | .stopped _, _ => False

@[simp] theorem leaves_done (s t : State) : (Run.done s).leaves t ↔ t = s := Iff.rfl
@[simp] theorem leaves_raised (e : Err) (s t : State) : (Run.raised e s).leaves t ↔ t = s := Iff.rfl
@[simp] theorem leaves_stopped (f : Fault) (t : State) : (Run.stopped f).leaves t ↔ False := Iff.rfl

/-- A relation that a primitive step's success gives and that holds of the state itself holds of the
state the step leaves. -/
theorem leaves_primitive {P : State → Prop} {r : Except Halt State} {s t : State}
    (h : (primitive r s).leaves t) (hs : P s) (hr : ∀ u, r = .ok u → P u) : P t := by
  rcases r with (e | f) | u
  · exact h ▸ hs
  · exact h.elim
  · exact h ▸ hr u rfl

/-- What every step of a sequence keeps, the sequence keeps. -/
theorem leaves_andThen {P : State → Prop} {r : Run} {k : State → Run} {t : State}
    (h : (r.andThen k).leaves t) (hr : ∀ u, r.leaves u → P u)
    (hk : ∀ u, P u → (k u).leaves t → P t) : P t := by
  cases r with
  | done u => exact hk u (hr u rfl) h
  | raised e u => exact hr t h
  | stopped f => exact h.elim

theorem leaves_clearOut {P : State → Prop} {r : Run} {t : State} (h : r.clearOutOnError.leaves t)
    (hr : ∀ u, r.leaves u → P u) (hP : ∀ u, P u → P { u with outLen := 0 }) : P t := by
  cases r with
  | done u => exact hr t h
  | raised e u => exact h ▸ hP u (hr u rfl)
  | stopped f => exact h.elim

/-- A next state is the state the run leaves, with STATUS.ERR written if the run raised an error. -/
theorem next_of_leaves {P : State → Prop} {r : Run} {t : State} (h : r.outcome = .next t)
    (hr : ∀ u, r.leaves u → P u) (hP : ∀ u e, P u → P (u.raiseError e)) : P t := by
  rcases outcome_eq_next.mp h with rfl | ⟨e, s, rfl, rfl⟩
  · exact hr t rfl
  · exact hP s e (hr s rfl)

/-! ### IN -/

theorem inRead_ok {s : State} {a : Nat} {x : Byte} :
    inRead s a = .ok x ↔ Mem.read s.inBuf a = some x := by
  unfold inRead; split <;> simp_all

theorem inRead_error {s : State} {a : Nat} {h : Halt} :
    inRead s a = .error h ↔ h = .fault (.unwrittenInput a) ∧ Mem.read s.inBuf a = Option.none := by
  unfold inRead
  cases Mem.read s.inBuf a <;> simp [eq_comm]

/-- Reading a list of IN bytes succeeds exactly when they have been written. -/
theorem inReadList_ok {s : State} {a n : Nat} {l : List Byte} :
    inReadList s a n = .ok l ↔ l.length = n ∧ holds s.inBuf a l := by
  induction n generalizing a l with
  | zero =>
    simp only [inReadList, Except.ok.injEq]
    constructor
    · rintro rfl; exact ⟨rfl, fun k h => absurd h (Nat.not_lt_zero k)⟩
    · rintro ⟨h, -⟩; exact (List.length_eq_zero_iff.mp h).symm
  | succ n ih =>
    constructor
    · intro h
      simp only [inReadList] at h
      split at h
      · cases h
      · next x hx =>
        split at h
        · cases h
        · next xs hxs =>
          cases h
          obtain ⟨hl, hh⟩ := ih.mp hxs
          refine ⟨by simp [hl], fun k hk => ?_⟩
          cases k with
          | zero => simpa using inRead_ok.mp hx
          | succ k =>
            have := hh k (by simpa using hk)
            rw [show a + (k + 1) = a + 1 + k by omega, this]; rfl
    · rintro ⟨hl, hh⟩
      cases l with
      | nil => cases hl
      | cons x xs =>
        have h0 : inRead s a = .ok x := inRead_ok.mpr (hh 0 (by simp))
        have h1 : inReadList s (a + 1) n = .ok xs := ih.mpr ⟨by simpa using hl, fun k hk => by
          have := hh (k + 1) (by simpa using hk)
          rw [show a + 1 + k = a + (k + 1) by omega, this]; rfl⟩
        simp [inReadList, h0, h1]

/-- Reading a list of IN bytes fails only at a byte of it that was never written. -/
theorem inReadList_error {s : State} {a n : Nat} {h : Halt} (hr : inReadList s a n = .error h) :
    ∃ k, k < n ∧ h = .fault (.unwrittenInput (a + k)) ∧ Mem.read s.inBuf (a + k) = Option.none := by
  induction n generalizing a with
  | zero => cases hr
  | succ n ih =>
    simp only [inReadList] at hr
    split at hr
    · next h' hx =>
      cases hr
      exact ⟨0, by omega, inRead_error.mp hx⟩
    · split at hr
      · next h' hxs =>
        cases hr
        obtain ⟨k, hk, e, hn⟩ := ih hxs
        exact ⟨k + 1, by omega, by rw [e]; congr 2; omega, by rw [← hn]; congr 1; omega⟩
      · cases hr

/-- Reading a list of IN bytes faults at the first of them that was never written. -/
theorem inReadList_unwritten {s : State} {off n a : Nat} (ho : off ≤ a) (ha : a < off + n)
    (hn : Mem.read s.inBuf a = Option.none)
    (hb : ∀ b, off ≤ b → b < a → (Mem.read s.inBuf b).isSome) :
    inReadList s off n = .error (.fault (.unwrittenInput a)) := by
  cases hr : inReadList s off n with
  | ok l =>
    have := (inReadList_ok.mp hr).2 (a - off) (by have := (inReadList_ok.mp hr).1; omega)
    rw [show off + (a - off) = a by omega, hn] at this
    cases this
  | error e =>
    induction n generalizing off with
    | zero => omega
    | succ n ih =>
      by_cases hoa : off = a
      · subst hoa
        rw [inReadList, inRead_error.mpr ⟨rfl, hn⟩] at hr
        cases hr; rfl
      · obtain ⟨x, hx⟩ := Option.isSome_iff_exists.mp (hb off (Nat.le_refl _) (by omega))
        rw [inReadList, inRead_ok.mpr hx] at hr
        simp only at hr
        split at hr
        · next h hl =>
          cases hr
          exact ih (by omega) (by omega) (fun b h1 h2 => hb b (by omega) h2) hl
        · cases hr

/-- Written bytes can be read. -/
theorem inReadList_of_written {s : State} {a n : Nat}
    (h : ∀ b, a ≤ b → b < a + n → (Mem.read s.inBuf b).isSome) : ∃ l, inReadList s a n = .ok l := by
  cases hr : inReadList s a n with
  | ok l => exact ⟨l, rfl⟩
  | error e =>
    obtain ⟨k, hk, -, hn⟩ := inReadList_error hr
    have := h (a + k) (by omega) (by omega)
    simp [hn] at this

/-- A list of IN bytes does not depend on any other part of the state. -/
theorem inReadList_congr {s t : State} (h : s.inBuf = t.inBuf) (a n : Nat) :
    inReadList s a n = inReadList t a n := by
  induction n generalizing a with
  | zero => rfl
  | succ n ih => simp [inReadList, inRead, h, ih]

theorem inputBytes_ok {s : State} {l : List Byte} :
    inputBytes s = .ok l ↔ s.inLenNat ≤ s.caps.inCap ∧ l.length = s.inLenNat ∧ holds s.inBuf 0 l := by
  unfold inputBytes
  split
  · next h => simp; omega
  · next h => rw [inReadList_ok]; simp; omega

/-- Ready input can be read whole. -/
theorem inputBytes_of_ready {s : State} (h : InputReady 0 s) : ∃ l, inputBytes s = .ok l := by
  obtain ⟨l, hl⟩ := inReadList_of_written (s := s) (a := 0) (n := s.inLenNat)
    fun b h0 hb => h.2 b h0 (by omega)
  exact ⟨l, by simp [inputBytes, Nat.not_lt.mpr h.1, hl]⟩

/-- What stops an input read: IN_LEN above IN_CAP, or a byte never written. -/
theorem inputBytes_error {s : State} {h : Halt} (hr : inputBytes s = .error h) :
    (h = .err .outOfRange ∧ s.caps.inCap < s.inLenNat) ∨
    ∃ a, a < s.inLenNat ∧ h = .fault (.unwrittenInput a) ∧ Mem.read s.inBuf a = Option.none := by
  unfold inputBytes at hr
  split at hr
  · next hc => cases hr; exact .inl ⟨rfl, hc⟩
  · obtain ⟨k, hk, e, hn⟩ := inReadList_error hr
    simp only [Nat.zero_add] at e hn
    exact .inr ⟨k, hk, e, hn⟩

/-! ### OUT -/

theorem outAppend_ok {l : List Byte} {s t : State} :
    outAppend l s = .ok t ↔ s.outLen + l.length ≤ s.caps.outCap ∧
      t = { s with outBuf := Mem.writeList s.outBuf s.outLen l, outLen := s.outLen + l.length } := by
  unfold outAppend
  split
  · next h => simp; omega
  · next h => simp only [Except.ok.injEq, eq_comm]; simp; omega

theorem outAppend_error {l : List Byte} {s : State} {h : Halt} :
    outAppend l s = .error h ↔ h = .err .capacityExceeded ∧ s.caps.outCap < s.outLen + l.length := by
  unfold outAppend
  split
  · next hc => simp [eq_comm]; omega
  · next hc => simp; omega

/-- OUT below OUT_LEN after an append: the old bytes, then the new ones (20_memory.md R54). -/
theorem outAppend_read {l : List Byte} {s t : State} (h : outAppend l s = .ok t) :
    (∀ a, a < s.outLen → Mem.read t.outBuf a = Mem.read s.outBuf a) ∧
    holds t.outBuf s.outLen l := by
  obtain ⟨-, rfl⟩ := outAppend_ok.mp h
  refine ⟨fun a ha => Mem.read_writeList_below _ _ ha, fun k hk => ?_⟩
  rw [Mem.read_writeList, dif_pos ⟨by omega, by omega⟩]
  simp

/-! ### The BitStream -/

theorem appendBits_ok {l : Bits} {s t : State} :
    appendBits l s = .ok t ↔ s.bsWr + l.length ≤ s.caps.bsCapBits ∧ t = { s with bs := s.bs ++ l } := by
  unfold appendBits
  split
  · next h => simp; omega
  · next h => simp only [Except.ok.injEq, eq_comm]; simp; omega

theorem appendBits_error {l : Bits} {s : State} {h : Halt} :
    appendBits l s = .error h ↔
      h = .err .capacityExceeded ∧ s.caps.bsCapBits < s.bsWr + l.length := by
  unfold appendBits
  split
  · next hc => simp [eq_comm]; omega
  · next hc => simp; omega

theorem loadStream_ok {off : Nat} {s t : State} :
    loadStream off s = .ok t ↔
      s.inLenNat ≤ s.caps.inCap ∧ off ≤ s.inLenNat ∧ 8 * (s.inLenNat - off) ≤ s.caps.bsCapBits ∧
      ∃ l, inReadList s off (s.inLenNat - off) = .ok l ∧
        t = { s with bs := unpackBytes l, bsRd := 0 } := by
  unfold loadStream
  split
  · simp; omega
  · split
    · simp; omega
    · split
      · simp; omega
      · split
        · next h => simp [h]
        · next l h =>
          simp only [Except.ok.injEq, h]
          constructor
          · rintro rfl; exact ⟨by omega, by omega, by omega, l, rfl, rfl⟩
          · rintro ⟨-, -, -, l', e, rfl⟩; cases e; rfl

/-- What stops a load (41_bitstream.md R107): its checks in order, then a byte never written. -/
theorem loadStream_error {off : Nat} {s : State} {h : Halt} (hr : loadStream off s = .error h) :
    (h = .err .outOfRange ∧ (s.caps.inCap < s.inLenNat ∨ s.inLenNat < off)) ∨
    (h = .err .capacityExceeded ∧ s.inLenNat ≤ s.caps.inCap ∧ off ≤ s.inLenNat ∧
      s.caps.bsCapBits < 8 * (s.inLenNat - off)) ∨
    ∃ a, off ≤ a ∧ a < s.inLenNat ∧ h = .fault (.unwrittenInput a) ∧
      Mem.read s.inBuf a = Option.none := by
  unfold loadStream at hr
  split at hr
  · cases hr; exact .inl ⟨rfl, .inl (by omega)⟩
  · split at hr
    · cases hr; exact .inl ⟨rfl, .inr (by omega)⟩
    · split at hr
      · cases hr; exact .inr (.inl ⟨rfl, by omega, by omega, by omega⟩)
      · split at hr
        · next h' hx =>
          cases hr
          obtain ⟨k, hk, e, hn⟩ := inReadList_error hx
          exact .inr (.inr ⟨off + k, by omega, by omega, e, hn⟩)
        · cases hr

end Sys2Proof.Machine
end

