-- ==== Sys2Proof/Laws/Trees.lean ====
section
/-! SUPPORT. The laws of trees, of the tree builder, of code tables and of traversal. -/

namespace Sys2Proof.Machine

/-! ### Trees and paths -/

/-- The symbols of a tree, left to right. -/
def HTree.symbols (t : HTree) : List Byte := t.leaves.map Prod.fst

@[simp] theorem symbols_leaf (b : Byte) (f : Nat) : (HTree.leaf b f).symbols = [b] := rfl

@[simp] theorem symbols_node (f : Nat) (l r : HTree) :
    (HTree.node f l r).symbols = l.symbols ++ r.symbols := by simp [HTree.symbols, HTree.leaves]

@[simp] theorem follow_nil (t : HTree) : t.follow [] = some t := by cases t <;> rfl
@[simp] theorem follow_leaf_cons (b : Byte) (f : Nat) (x : Bool) (p : Bits) :
    (HTree.leaf b f).follow (x :: p) = Option.none := rfl
@[simp] theorem follow_node_false (f : Nat) (l r : HTree) (p : Bits) :
    (HTree.node f l r).follow (false :: p) = l.follow p := rfl
@[simp] theorem follow_node_true (f : Nat) (l r : HTree) (p : Bits) :
    (HTree.node f l r).follow (true :: p) = r.follow p := rfl

theorem leaves_pos (t : HTree) : 0 < t.leaves.length := by
  induction t with
  | leaf b f => simp [HTree.leaves]
  | node f l r ihl ihr => simp [HTree.leaves]; omega

/-- A tree of `n` leaves has `n - 1` nodes (10_state.md R34 c). -/
theorem nodes_add_one (t : HTree) : t.nodes + 1 = t.leaves.length := by
  induction t with
  | leaf b f => rfl
  | node f l r ihl ihr => simp [HTree.leaves, HTree.nodes]; omega

/-- A tree is at most as deep as it has nodes (10_state.md R34 c). -/
theorem depth_le_nodes (t : HTree) : t.depth ≤ t.nodes := by
  induction t with
  | leaf b f => exact Nat.le_refl _
  | node f l r ihl ihr => simp only [HTree.depth, HTree.nodes]; omega

theorem depth_lt_leaves (t : HTree) : t.depth < t.leaves.length := by
  have := depth_le_nodes t; have := nodes_add_one t; omega

/-- A path that leads somewhere is at most as long as the tree is deep. -/
theorem length_le_depth {t u : HTree} {p : Bits} (h : t.follow p = some u) : p.length ≤ t.depth := by
  induction p generalizing t with
  | nil => simp
  | cons x p ih =>
    cases t with
    | leaf b f => simp at h
    | node f l r =>
      cases x
      · have := ih (t := l) h; simp only [HTree.depth, List.length_cons]; omega
      · have := ih (t := r) h; simp only [HTree.depth, List.length_cons]; omega

theorem follow_append (t : HTree) (p q : Bits) :
    t.follow (p ++ q) = (t.follow p).bind fun u => u.follow q := by
  induction p generalizing t with
  | nil => simp
  | cons x p ih =>
    cases t with
    | leaf b f => simp
    | node f l r => cases x <;> simp [ih]

/-- A leaf is met at the end of a path and nowhere on it. -/
theorem leaf_path_maximal {t : HTree} {p q : Bits} {b c : Byte} {f g : Nat}
    (hp : t.follow p = some (.leaf b f)) (hq : t.follow q = some (.leaf c g)) (h : p <+: q) :
    p = q := by
  obtain ⟨r, rfl⟩ := h
  rw [follow_append, hp] at hq
  cases r with
  | nil => simp
  | cons x r => simp at hq

/-- The leaves of a tree are what its paths lead to. -/
theorem mem_leaves_iff {t : HTree} {b : Byte} {f : Nat} :
    (b, f) ∈ t.leaves ↔ ∃ p, t.follow p = some (.leaf b f) := by
  induction t with
  | leaf c g =>
    constructor
    · intro h
      have h : (b, f) = (c, g) := by simpa [HTree.leaves] using h
      cases h; exact ⟨[], rfl⟩
    · rintro ⟨p, hp⟩
      cases p with
      | nil => cases hp; simp [HTree.leaves]
      | cons x p => simp at hp
  | node g l r ihl ihr =>
    simp only [HTree.leaves, List.mem_append, ihl, ihr]
    constructor
    · rintro (⟨p, hp⟩ | ⟨p, hp⟩)
      · exact ⟨false :: p, hp⟩
      · exact ⟨true :: p, hp⟩
    · rintro ⟨p, hp⟩
      cases p with
      | nil => simp at hp
      | cons x p =>
        cases x
        · exact .inl ⟨p, hp⟩
        · exact .inr ⟨p, hp⟩

theorem mem_symbols_iff {t : HTree} {b : Byte} :
    b ∈ t.symbols ↔ ∃ p f, t.follow p = some (.leaf b f) := by
  constructor
  · intro h
    obtain ⟨⟨c, f⟩, hm, rfl⟩ := List.mem_map.mp h
    obtain ⟨p, hp⟩ := mem_leaves_iff.mp hm
    exact ⟨p, f, hp⟩
  · rintro ⟨p, f, hp⟩
    exact List.mem_map.mpr ⟨(b, f), mem_leaves_iff.mpr ⟨p, hp⟩, rfl⟩

/-! ### Traversal (44_encdec.md R172) -/

/-- A path to a leaf, read as bits, decodes to the leaf, whatever bits follow it. -/
theorem traverse_of_follow {t : HTree} {p : Bits} {b : Byte} {f : Nat}
    (h : t.follow p = some (.leaf b f)) (rest : Bits) :
    traverse t (p ++ rest) = some (b, p.length) := by
  induction p generalizing t with
  | nil =>
    cases t with
    | leaf c g => cases h; rfl
    | node g l r => simp at h
  | cons x p ih =>
    cases t with
    | leaf c g => simp at h
    | node g l r =>
      cases x
      · simp [traverse, ih (t := l) h]
      · simp [traverse, ih (t := r) h]

/-- A traversal that ends has followed the bits it consumed to a leaf. -/
theorem follow_of_traverse {t : HTree} {bits : Bits} {b : Byte} {n : Nat}
    (h : traverse t bits = some (b, n)) :
    n ≤ bits.length ∧ ∃ f, t.follow (bits.take n) = some (.leaf b f) := by
  induction bits generalizing t n with
  | nil =>
    cases t with
    | leaf c g => simp only [traverse, Option.some.injEq, Prod.mk.injEq] at h
                  obtain ⟨rfl, rfl⟩ := h; exact ⟨by simp, g, by simp⟩
    | node g l r => simp [traverse] at h
  | cons x bits ih =>
    cases t with
    | leaf c g => simp only [traverse, Option.some.injEq, Prod.mk.injEq] at h
                  obtain ⟨rfl, rfl⟩ := h; exact ⟨by simp, g, by simp⟩
    | node g l r =>
      simp only [traverse] at h
      cases x
      · simp only at h
        split at h
        · cases h
        · next c m hm =>
          simp only [Option.some.injEq, Prod.mk.injEq] at h
          obtain ⟨rfl, rfl⟩ := h
          obtain ⟨hl, f, hf⟩ := ih hm
          exact ⟨by simpa using hl, f, by simpa using hf⟩
      · simp only at h
        split at h
        · cases h
        · next c m hm =>
          simp only [Option.some.injEq, Prod.mk.injEq] at h
          obtain ⟨rfl, rfl⟩ := h
          obtain ⟨hl, f, hf⟩ := ih hm
          exact ⟨by simpa using hl, f, by simpa using hf⟩

/-- A traversal fails only when the bits end above a leaf. -/
theorem traverse_none {t : HTree} {bits : Bits} (h : traverse t bits = Option.none) :
    ∃ f l r, t.follow bits = some (.node f l r) := by
  induction bits generalizing t with
  | nil =>
    cases t with
    | leaf c g => simp [traverse] at h
    | node g l r => exact ⟨g, l, r, rfl⟩
  | cons x bits ih =>
    cases t with
    | leaf c g => simp [traverse] at h
    | node g l r =>
      simp only [traverse] at h
      cases x
      · simp only at h
        split at h
        · next hm => exact ih hm
        · cases h
      · simp only at h
        split at h
        · next hm => exact ih hm
        · cases h

theorem traverse_none_iff {t : HTree} {bits : Bits} :
    traverse t bits = Option.none ↔ ∃ f l r, t.follow bits = some (.node f l r) := by
  refine ⟨traverse_none, ?_⟩
  rintro ⟨f, l, r, h⟩
  cases ht : traverse t bits with
  | none => rfl
  | some x =>
    obtain ⟨b, n⟩ := x
    obtain ⟨hn, g, hg⟩ := follow_of_traverse ht
    have hs := List.take_append_drop n bits
    rw [← hs, follow_append, hg] at h
    cases hd : bits.drop n with
    | nil => rw [hd] at h; simp at h
    | cons x q => rw [hd] at h; simp at h

/-- A node is strictly above the deepest leaf. -/
theorem length_lt_depth {t l r : HTree} {f : Nat} {p : Bits} (h : t.follow p = some (.node f l r)) :
    p.length < t.depth := by
  have h1 : t.follow (p ++ [false]) = some l := by rw [follow_append, h]; simp
  have := length_le_depth h1
  simp at this; omega

/-- As many bits as the tree is deep always decode (44_encdec.md R175 b). -/
theorem traverse_of_depth {t : HTree} {bits : Bits} (h : t.depth ≤ bits.length) :
    ∃ b n, traverse t bits = some (b, n) := by
  cases ht : traverse t bits with
  | some x => exact ⟨x.1, x.2, rfl⟩
  | none =>
    obtain ⟨f, l, r, hf⟩ := traverse_none ht
    have := length_lt_depth hf; omega

/-! ### Code tables (43_tree.md R145) -/

theorem lookup_walk_not_mem {t : HTree} {b : Byte} (h : b ∉ t.symbols) (p : Bits) (c : CodeTable) :
    lookup (walk t p c) b = lookup c b := by
  induction t generalizing p c with
  | leaf a f => exact lookup_update_other c _ (by simpa using h)
  | node f l r ihl ihr =>
    simp only [symbols_node, List.mem_append, not_or] at h
    rw [walk, ihr h.2, ihl h.1]

/-- In a tree without repeated symbols the walk writes at each leaf the path to it. -/
theorem lookup_walk_follow {t : HTree} (hn : t.symbols.Nodup) {q : Bits} {b : Byte} {f : Nat}
    (h : t.follow q = some (.leaf b f)) (p : Bits) (c : CodeTable) :
    lookup (walk t p c) b = some (p ++ q) := by
  induction t generalizing p c q with
  | leaf a g =>
    cases q with
    | nil => cases h; simp [walk]
    | cons x q => simp at h
  | node g l r ihl ihr =>
    rw [symbols_node] at hn
    obtain ⟨hl, hr, hd⟩ := List.nodup_append.mp hn
    cases q with
    | nil => simp at h
    | cons x q =>
      cases x
      · have hb : b ∈ l.symbols := mem_symbols_iff.mpr ⟨q, f, h⟩
        have hb' : b ∉ r.symbols := fun hb' => hd b hb b hb' rfl
        rw [walk, lookup_walk_not_mem hb', ihl hl h, List.append_assoc]; rfl
      · rw [walk, ihr hr h, List.append_assoc]; rfl

/-- The codes of a root without repeated symbols are its paths (43_tree.md R146 b). -/
theorem lookup_codesOf {r : Root} (hn : r.symbols.Nodup) {b : Byte} {p : Bits} :
    lookup (codesOf r) b = some p ↔ r.leadsTo p b := by
  cases r with
  | none => simp [codesOf, Root.leadsTo]
  | wrap f c g =>
    rw [codesOf, lookup_update]
    simp only [Root.leadsTo]
    split
    · next h => subst h; simp [eq_comm]
    · next h => simp [Ne.symm h]
  | full f l r =>
    have hw : codesOf (.full f l r) = walk (.node f l r) [] emptyCodes := by simp [codesOf, walk]
    have hn' : (HTree.node f l r).symbols.Nodup := by
      simpa [HTree.symbols, HTree.leaves, Root.symbols, Root.leaves] using hn
    rw [hw, Root.leadsTo]
    constructor
    · intro h
      by_cases hb : b ∈ (HTree.node f l r).symbols
      · obtain ⟨q, g, hq⟩ := mem_symbols_iff.mp hb
        have := lookup_walk_follow hn' hq [] emptyCodes
        rw [h] at this
        cases this
        exact ⟨g, hq⟩
      · rw [lookup_walk_not_mem hb] at h; simp at h
    · rintro ⟨g, hg⟩
      simpa using lookup_walk_follow hn' hg [] emptyCodes

/-- A byte has a code exactly when it is a symbol of the root (43_tree.md R146 a). -/
theorem codesOf_isSome {r : Root} (hn : r.symbols.Nodup) {b : Byte} :
    (lookup (codesOf r) b).isSome ↔ b ∈ r.symbols := by
  rw [Option.isSome_iff_exists]
  simp only [lookup_codesOf hn]
  cases r with
  | none => simp [Root.leadsTo, Root.symbols, Root.leaves]
  | wrap f c g => simp [Root.leadsTo, Root.symbols, Root.leaves, eq_comm]
  | full f l r =>
    have : (Root.full f l r).symbols = (HTree.node f l r).symbols := rfl
    rw [this, mem_symbols_iff]; rfl

/-- A leaf reached from a root decodes, whatever bits follow its path (44_encdec.md R172). -/
theorem traverseRoot_of_leadsTo {r : Root} {p : Bits} {b : Byte} (h : r.leadsTo p b) (rest : Bits) :
    traverseRoot r (p ++ rest) = some (b, p.length) := by
  cases r with
  | none => exact h.elim
  | wrap f c g => obtain ⟨rfl, rfl⟩ := h; rfl
  | full f l r => obtain ⟨g, hg⟩ := h; exact traverse_of_follow hg rest

theorem traverseRoot_length {r : Root} {bits : Bits} {b : Byte} {n : Nat}
    (h : traverseRoot r bits = some (b, n)) : n ≤ bits.length ∧ 0 < n := by
  cases r with
  | none => simp [traverseRoot] at h
  | wrap f c g =>
    cases bits with
    | nil => simp [traverseRoot] at h
    | cons x bits =>
      simp only [traverseRoot, Option.some.injEq, Prod.mk.injEq] at h
      simp [← h.2]
  | full f l r =>
    obtain ⟨hl, g, hg⟩ := follow_of_traverse h
    refine ⟨hl, Nat.pos_of_ne_zero ?_⟩
    rintro rfl
    simp at hg

/-- What is decoded without looking at the end is decoded with any bits after it. -/
theorem traverseRoot_append {r : Root} {bits : Bits} {b : Byte} {n : Nat}
    (h : traverseRoot r bits = some (b, n)) (rest : Bits) :
    traverseRoot r (bits ++ rest) = some (b, n) := by
  cases r with
  | none => simp [traverseRoot] at h
  | wrap f c g =>
    cases bits with
    | nil => simp [traverseRoot] at h
    | cons x bits => exact h
  | full f l r =>
    obtain ⟨hl, g, hg⟩ := follow_of_traverse h
    have := traverse_of_follow hg (bits.drop n ++ rest)
    rw [← List.append_assoc, List.take_append_drop, List.length_take, Nat.min_eq_left hl] at this
    exact this

/-! ### The priority structure (43_tree.md R140, R141) -/

theorem enqueue_perm (x : QEntry) (q : List QEntry) : (enqueue x q).Perm (x :: q) := by
  induction q with
  | nil => exact List.Perm.refl _
  | cons y q ih =>
    rw [enqueue]; split
    · exact List.Perm.refl _
    · exact (ih.cons y).trans (List.Perm.swap x y q)

@[simp] theorem length_enqueue (x : QEntry) (q : List QEntry) : (enqueue x q).length = q.length + 1 := by
  simpa using (enqueue_perm x q).length_eq

/-- The key order of two entries (43_tree.md R141). -/
theorem before_iff {x y : QEntry} :
    x.before y = true ↔ x.tree.freq < y.tree.freq ∨ (x.tree.freq = y.tree.freq ∧ x.seq < y.seq) := by
  simp [QEntry.before]

theorem before_trans {x y z : QEntry} (h1 : x.before y = true) (h2 : y.before z = true) :
    x.before z = true := by
  rw [before_iff] at *; omega

/-- A queue in key order. -/
abbrev InOrder (q : List QEntry) : Prop := q.Pairwise fun x y => x.before y = true

/-- Inserting an entry with a new sequence number keeps the key order. -/
theorem inOrder_enqueue {x : QEntry} {q : List QEntry} (h : InOrder q) (hx : ∀ y ∈ q, y.seq ≠ x.seq) :
    InOrder (enqueue x q) := by
  induction q with
  | nil => simp [InOrder, enqueue]
  | cons y q ih =>
    obtain ⟨hy, hq⟩ := List.pairwise_cons.mp h
    rw [enqueue]; split
    · next hb =>
      refine List.pairwise_cons.mpr ⟨?_, h⟩
      intro z hz
      rcases List.mem_cons.mp hz with rfl | hz
      · exact hb
      · exact before_trans hb (hy z hz)
    · next hb =>
      refine List.pairwise_cons.mpr ⟨?_, ih hq fun z hz => hx z (List.mem_cons_of_mem _ hz)⟩
      intro z hz
      rcases List.mem_cons.mp ((enqueue_perm x q).mem_iff.mp hz) with rfl | hz
      · have hne := hx y (List.mem_cons_self ..)
        rw [before_iff] at hb ⊢
        omega
      · exact hy z hz

/-! ### The builder (43_tree.md R142 to R144) -/

/-- The leaves below the nodes of a queue. -/
def queueLeaves (q : List QEntry) : List (Byte × Nat) := q.flatMap fun x => x.tree.leaves

/-- The frequencies of the nodes of a queue, added up. -/
def queueFreq (q : List QEntry) : Nat := (q.map fun x => x.tree.freq).sum

theorem queueLeaves_enqueue (x : QEntry) (q : List QEntry) :
    (queueLeaves (enqueue x q)).Perm (x.tree.leaves ++ queueLeaves q) := by
  simpa [queueLeaves] using (enqueue_perm x q).flatMap_right fun x => x.tree.leaves

theorem queueFreq_enqueue (x : QEntry) (q : List QEntry) :
    queueFreq (enqueue x q) = x.tree.freq + queueFreq q := by
  simpa [queueFreq] using ((enqueue_perm x q).map fun x => x.tree.freq).sum_eq

@[simp] theorem leaves_toRoot (t : HTree) : t.toRoot.leaves = t.leaves := by cases t <;> rfl
@[simp] theorem freq_toRoot (t : HTree) : t.toRoot.freq = t.freq := by cases t <;> rfl

theorem sumsOk_toRoot {t : HTree} (h : t.sumsOk = true) : t.toRoot.sumsOk = true := by
  cases t with
  | leaf b f => simp [HTree.toRoot, Root.sumsOk]
  | node f l r => exact h

/-- The merge loop on a queue of `n` nodes, with fuel `n`: it keeps the leaves, it adds up the
frequencies, and every node it makes has its children's sum. -/
theorem mergeLoop_spec (n seq : Nat) (q : List QEntry) (hn : q.length = n + 1)
    (hs : ∀ x ∈ q, x.tree.sumsOk = true) :
    (mergeLoop (n + 1) seq q).leaves.Perm (queueLeaves q) ∧
    (mergeLoop (n + 1) seq q).freq = queueFreq q ∧
    (mergeLoop (n + 1) seq q).sumsOk = true := by
  induction n generalizing seq q with
  | zero =>
    obtain ⟨x, rfl⟩ := List.length_eq_one_iff.mp hn
    refine ⟨by simp [mergeLoop, queueLeaves], by simp [mergeLoop, queueFreq], ?_⟩
    exact sumsOk_toRoot (hs x (by simp))
  | succ n ih =>
    match q, hn with
    | x :: y :: q, hn =>
      have hx := hs x (by simp)
      have hy := hs y (by simp)
      set z : QEntry := { seq := seq, tree := mergeNodes x.tree y.tree } with hz
      have hl : (enqueue z q).length = n + 1 := by simpa using hn
      obtain ⟨h1, h2, h3⟩ := ih (seq + 1) (enqueue z q) hl (by
        intro w hw
        rcases List.mem_cons.mp ((enqueue_perm z q).mem_iff.mp hw) with rfl | hw
        · simp [hz, mergeNodes, HTree.sumsOk, hx, hy]
        · exact hs w (by simp [hw]))
      have e : mergeLoop (n + 1 + 1) seq (x :: y :: q) = mergeLoop (n + 1) (seq + 1) (enqueue z q) := rfl
      rw [e]
      refine ⟨h1.trans ?_, ?_, h3⟩
      · refine (queueLeaves_enqueue z q).trans ?_
        simp [hz, queueLeaves, mergeNodes, HTree.leaves]
      · rw [h2, queueFreq_enqueue]
        simp [hz, queueFreq, mergeNodes, HTree.freq]; omega

/-- The first merge loop result on at least two nodes is a full tree. -/
theorem mergeLoop_full (n seq : Nat) (q : List QEntry) (hn : q.length = n + 2) :
    ∃ f l r, mergeLoop (n + 2) seq q = .full f l r := by
  induction n generalizing seq q with
  | zero =>
    match q, hn with
    | [x, y], _ => exact ⟨_, _, _, rfl⟩
  | succ n ih =>
    match q, hn with
    | x :: y :: q, hn =>
      exact ih (seq + 1) (enqueue { seq := seq, tree := mergeNodes x.tree y.tree } q)
        (by simpa using hn)

theorem length_leavesFrom (t : FreqTable) (i : Nat) (l : List Byte) :
    (leavesFrom t i l).length = l.length := by
  induction l generalizing i with
  | nil => rfl
  | cons b l ih => simp [leavesFrom, ih]

theorem queueLeaves_leavesFrom (t : FreqTable) (i : Nat) (l : List Byte) :
    queueLeaves (leavesFrom t i l) = l.map fun b => (b, (lookup t b).toNat) := by
  induction l generalizing i with
  | nil => rfl
  | cons b l ih =>
    have := ih (i + 1)
    simp only [queueLeaves] at this
    simp [queueLeaves, leavesFrom, HTree.leaves, this]

theorem queueFreq_leavesFrom (t : FreqTable) (i : Nat) (l : List Byte) :
    queueFreq (leavesFrom t i l) = (l.map fun b => (lookup t b).toNat).sum := by
  induction l generalizing i with
  | nil => rfl
  | cons b l ih =>
    have := ih (i + 1)
    simp only [queueFreq] at this
    simp only [queueFreq, leavesFrom, List.map_cons, List.sum_cons, this]
    rfl

/-- A seeded leaf carries a number from the range its list takes. -/
theorem mem_leavesFrom {t : FreqTable} {i : Nat} {l : List Byte} {x : QEntry}
    (h : x ∈ leavesFrom t i l) :
    ∃ b ∈ l, x.tree = .leaf b (lookup t b).toNat ∧ i ≤ x.seq ∧ x.seq < i + l.length := by
  induction l generalizing i with
  | nil => cases h
  | cons b l ih =>
    rcases List.mem_cons.mp h with rfl | h
    · exact ⟨b, by simp, rfl, by simp, by simp⟩
    · obtain ⟨c, hc, e, h1, h2⟩ := ih h
      exact ⟨c, by simp [hc], e, by omega, by simp; omega⟩

theorem seedQueue_perm (t : FreqTable) : (seedQueue t).Perm (leavesFrom t 0 (keys t)) := by
  have : ∀ l : List QEntry, (l.foldr enqueue []).Perm l := by
    intro l
    induction l with
    | nil => exact List.Perm.refl _
    | cons x l ih => exact (enqueue_perm x _).trans (ih.cons x)
  exact this _

@[simp] theorem length_seedQueue (t : FreqTable) : (seedQueue t).length = (keys t).length := by
  rw [(seedQueue_perm t).length_eq, length_leavesFrom]

theorem seedQueue_inOrder (t : FreqTable) : InOrder (seedQueue t) := by
  have : ∀ (l : List Byte) (i : Nat), InOrder ((leavesFrom t i l).foldr enqueue []) ∧
      ∀ x ∈ (leavesFrom t i l).foldr enqueue [], i ≤ x.seq := by
    intro l
    induction l with
    | nil => intro i; simp [leavesFrom]
    | cons b l ih =>
      intro i
      obtain ⟨h1, h2⟩ := ih (i + 1)
      constructor
      · refine inOrder_enqueue h1 fun y hy => ?_
        have := h2 y hy; simp only; omega
      · intro x hx
        rcases List.mem_cons.mp ((enqueue_perm _ _).mem_iff.mp hx) with rfl | hx
        · exact Nat.le_refl _
        · have := h2 x hx; omega
  exact (this (keys t) 0).1

/-- The tree of a table (10_state.md R34): one leaf per key with its frequency, the sums, and the
frequency sum at the root. -/
theorem treeOf_spec {t : FreqTable} (h : keys t ≠ []) :
    (treeOf t).leaves.Perm ((keys t).map fun b => (b, (lookup t b).toNat)) ∧
    (treeOf t).freq = freqSum t ∧ (treeOf t).sumsOk = true := by
  obtain ⟨n, hn⟩ := Nat.exists_eq_succ_of_ne_zero (mt List.length_eq_zero_iff.mp h)
  have hq : (seedQueue t).length = n + 1 := by simp [hn]
  have hs : ∀ x ∈ seedQueue t, x.tree.sumsOk = true := by
    intro x hx
    obtain ⟨b, -, e, -⟩ := mem_leavesFrom ((seedQueue_perm t).mem_iff.mp hx)
    simp [e, HTree.sumsOk]
  have hm := mergeLoop_spec n (keys t).length (seedQueue t) hq hs
  rw [treeOf]
  rw [hn] at hm ⊢
  refine ⟨hm.1.trans ?_, ?_, hm.2.2⟩
  · have := (seedQueue_perm t).flatMap_right fun x => x.tree.leaves
    exact this.trans (by rw [← queueLeaves_leavesFrom t 0]; exact List.Perm.refl _)
  · rw [hm.2.1, ← sum_keys, ← queueFreq_leavesFrom t 0]
    exact ((seedQueue_perm t).map fun x => x.tree.freq).sum_eq

theorem treeOf_empty {t : FreqTable} (h : keys t = []) : treeOf t = .none := by
  simp [treeOf, h, mergeLoop]

/-- One key: the wrapper (43_tree.md R143). -/
theorem treeOf_one {t : FreqTable} {b : Byte} (h : keys t = [b]) :
    treeOf t = .wrap (lookup t b).toNat b (lookup t b).toNat := by
  have : seedQueue t = [{ seq := 0, tree := .leaf b (lookup t b).toNat }] := by
    simp [seedQueue, h, leavesFrom, enqueue]
  simp [treeOf, h, this, mergeLoop, HTree.toRoot]

/-- Two keys or more: a full tree (43_tree.md R144). -/
theorem treeOf_full {t : FreqTable} (h : 2 ≤ (keys t).length) : ∃ f l r, treeOf t = .full f l r := by
  obtain ⟨n, hn⟩ := Nat.exists_eq_add_of_le h
  have hl : (seedQueue t).length = n + 2 := by simp; omega
  have := mergeLoop_full n (keys t).length (seedQueue t) hl
  rw [treeOf]
  rw [show (keys t).length = n + 2 by omega] at this ⊢
  exact this

theorem treeOf_symbols_perm {t : FreqTable} (h : keys t ≠ []) : (treeOf t).symbols.Perm (keys t) := by
  have := (treeOf_spec h).1.map Prod.fst
  simpa [Root.symbols, Function.comp_def] using this

theorem treeOf_symbols_nodup (t : FreqTable) : (treeOf t).symbols.Nodup := by
  by_cases h : keys t = []
  · simp [treeOf_empty h, Root.symbols, Root.leaves]
  · exact (treeOf_symbols_perm h).nodup_iff.mpr (keys_nodup t)

/-- A byte has a code after HT_BUILD and HT_GEN_CODES exactly when it is a key (43_tree.md R146 a). -/
theorem codesOf_treeOf_isSome (t : FreqTable) (b : Byte) :
    (lookup (codesOf (treeOf t)) b).isSome ↔ lookup t b ≠ 0#64 := by
  rw [codesOf_isSome (treeOf_symbols_nodup t), ← mem_keys]
  by_cases h : keys t = []
  · simp [treeOf_empty h, Root.symbols, Root.leaves, h]
  · exact (treeOf_symbols_perm h).mem_iff

/-- The tree of a table meets the tree invariants (10_state.md R34). -/
theorem treeOf_wf {t : FreqTable} (h : freqSum t ≤ 2 ^ 64 - 1) : (treeOf t).wf := by
  by_cases hk : keys t = []
  · simp [treeOf_empty hk, Root.wf, Root.symbols, Root.leaves, Root.sumsOk, Root.freq]
  · obtain ⟨h1, h2, h3⟩ := treeOf_spec hk
    refine ⟨treeOf_symbols_nodup t, h3, ?_, by omega⟩
    intro x hx
    obtain ⟨b, hb, rfl⟩ := List.mem_map.mp (h1.mem_iff.mp hx)
    have := mem_keys.mp hb
    intro e
    exact this (BitVec.eq_of_toNat_eq (by simpa using e))

end Sys2Proof.Machine
end

