-- ==== Sys2Proof/Laws/Commands.lean ====
section
/-! SUPPORT. For each command, when it succeeds and what it then answers, and how it can fail: provers
cite these lemmas instead of unfolding the meanings. -/

namespace Sys2Proof.Machine

/-! ### BitStream -/

theorem writeBits_ok {cnt : Nat} {s t : State} :
    writeBits cnt s = .ok t ↔ cnt ≤ 32 ∧ s.bsWr + cnt ≤ s.caps.bsCapBits ∧
      t = { s with bs := s.bs ++ bitsMsb s.opndValue cnt } := by
  unfold writeBits
  split
  · next h => simp; omega
  · next h => rw [appendBits_ok, length_bitsMsb]; simp; omega

theorem writeBits_error {cnt : Nat} {s : State} {h : Halt} :
    writeBits cnt s = .error h ↔ (h = .err .outOfRange ∧ 32 < cnt) ∨
      (h = .err .capacityExceeded ∧ cnt ≤ 32 ∧ s.caps.bsCapBits < s.bsWr + cnt) := by
  unfold writeBits
  split
  · next hc => simp [eq_comm, hc]
  · next hc => rw [appendBits_error, length_bitsMsb]; simp [hc, Nat.not_lt.mp hc]

theorem readBit_ok {s t : State} :
    readBit s = .ok t ↔ ∃ b, s.bs[s.bsRd]? = some b ∧
      t = { s with res := BitVec.ofNat 64 b.toNat, bsRd := s.bsRd + 1 } := by
  unfold readBit
  split
  · next h => simp [h]
  · next b h => simp [h, eq_comm]

theorem readBit_error {s : State} {h : Halt} :
    readBit s = .error h ↔ h = .err .endOfStream ∧ s.bsWr ≤ s.bsRd := by
  unfold readBit
  split
  · next hn => simp [eq_comm, State.bsWr, List.getElem?_eq_none_iff.mp hn]
  · next b hb =>
    have := (List.getElem?_eq_some_iff.mp hb).1
    simp [State.bsWr, this]

theorem readBits_ok {cnt : Nat} {s t : State} :
    readBits cnt s = .ok t ↔ cnt ≤ 32 ∧ s.bsRd + cnt ≤ s.bsWr ∧
      t = { s with res := BitVec.ofNat 64 (valMsb (s.unread.take cnt)), bsRd := s.bsRd + cnt } := by
  unfold readBits
  split
  · simp; omega
  · split
    · simp; omega
    · next h1 h2 =>
      simp only [Except.ok.injEq]
      exact ⟨fun e => ⟨by omega, by omega, e.symm⟩, fun e => e.2.2.symm⟩

theorem readBits_error {cnt : Nat} {s : State} {h : Halt} :
    readBits cnt s = .error h ↔ (h = .err .outOfRange ∧ 32 < cnt) ∨
      (h = .err .endOfStream ∧ cnt ≤ 32 ∧ s.bsWr < s.bsRd + cnt) := by
  unfold readBits
  split
  · next hc => simp [eq_comm, hc]
  · next hc =>
    split
    · next hd => simp [eq_comm, hc, Nat.not_lt.mp hc, hd]
    · next hd => simp; omega

theorem getBuffer_ok {s t : State} :
    getBuffer s = .ok t ↔ s.outLen + (s.bsWr + 7) / 8 ≤ s.caps.outCap ∧
      t = { s with
        outBuf := Mem.writeList s.outBuf s.outLen (packBytes s.bs)
        outLen := s.outLen + (s.bsWr + 7) / 8 } := by
  rw [getBuffer, outAppend_ok, length_packBytes]; rfl

theorem getBuffer_error {s : State} {h : Halt} :
    getBuffer s = .error h ↔
      h = .err .capacityExceeded ∧ s.caps.outCap < s.outLen + (s.bsWr + 7) / 8 := by
  rw [getBuffer, outAppend_error, length_packBytes]; rfl

/-! ### Frequencies -/

theorem analyze_ok {s t : State} :
    analyze s = .ok t ↔ ∃ l, inputBytes s = .ok l ∧
      t = { s with ft := storeCounts (countBytes zeroCounts l) } := by
  unfold analyze
  split
  · next h => simp [h]
  · next l h => simp [h, eq_comm]

theorem analyze_error {s : State} {h : Halt} : analyze s = .error h ↔ inputBytes s = .error h := by
  unfold analyze; split <;> simp_all

theorem accumulate_ok {s t : State} :
    accumulate s = .ok t ↔ ∃ l, inputBytes s = .ok l ∧ freqSum s.ft + l.length ≤ 2 ^ 64 - 1 ∧
      t = { s with ft := storeCounts (countBytes (countsOf s.ft) l) } := by
  unfold accumulate
  rw [freqSum_eq_sum_countsOf]
  split
  · next h => simp [h]
  · next l h =>
    rw [sum_countBytes]
    generalize (countsOf s.ft).toList.sum = z
    split
    · simp [h]; omega
    · simp only [h, Except.ok.injEq, exists_eq_left', eq_comm]; simp; omega

theorem accumulate_error {s : State} {h : Halt} :
    accumulate s = .error h ↔ inputBytes s = .error h ∨
      ∃ l, inputBytes s = .ok l ∧ h = .err .capacityExceeded ∧
        2 ^ 64 - 1 < freqSum s.ft + l.length := by
  unfold accumulate
  rw [freqSum_eq_sum_countsOf]
  split
  · next h => simp [h]
  · next l h =>
    rw [sum_countBytes]
    generalize (countsOf s.ft).toList.sum = z
    split
    · simp [h, eq_comm]; omega
    · simp [h]; omega

/-! ### Tree -/

theorem buildTree_ok {s t : State} :
    buildTree s = .ok t ↔ keys s.ft ≠ [] ∧ t = { s with tree := treeOf s.ft, ct := emptyCodes } := by
  unfold buildTree
  split
  · next h => simp [h]
  · next b l h => simp [h, eq_comm]

theorem buildTree_error {s : State} {h : Halt} :
    buildTree s = .error h ↔ h = .err .emptyFreqTable ∧ keys s.ft = [] := by
  unfold buildTree
  split
  · next hk => simp [hk, eq_comm]
  · next b l hk => simp [hk]

/-! ### Encoder and decoder -/

theorem encodeSymbol_ok {b : Byte} {s t : State} :
    encodeSymbol b s = .ok t ↔ ∃ c, lookup s.ct b = some c ∧
      s.bsWr + c.length ≤ s.caps.bsCapBits ∧ t = { s with bs := s.bs ++ c } := by
  unfold encodeSymbol
  split
  · next h => simp [h]
  · next c h => simp [h, appendBits_ok]

theorem encodeSymbol_error {b : Byte} {s : State} {h : Halt} :
    encodeSymbol b s = .error h ↔ (h = .err .codeTableMiss ∧ lookup s.ct b = Option.none) ∨
      ∃ c, lookup s.ct b = some c ∧ h = .err .capacityExceeded ∧
        s.caps.bsCapBits < s.bsWr + c.length := by
  unfold encodeSymbol
  split
  · next hn => simp [hn, eq_comm]
  · next c hc => simp [hc, appendBits_error]

theorem encodeAt_ok {a : Nat} {s t : State} :
    encodeAt a s = .ok t ↔ ∃ b, Mem.read s.inBuf a = some b ∧ encodeSymbol b s = .ok t := by
  unfold encodeAt
  split
  · next h he => simp [(inRead_error.mp he).2]
  · next b he => simp [inRead_ok.mp he]

theorem encodeAt_error {a : Nat} {s : State} {h : Halt} :
    encodeAt a s = .error h ↔
      (h = .fault (.unwrittenInput a) ∧ Mem.read s.inBuf a = Option.none) ∨
      ∃ b, Mem.read s.inBuf a = some b ∧ encodeSymbol b s = .error h := by
  unfold encodeAt
  split
  · next h' he => obtain ⟨rfl, hn⟩ := inRead_error.mp he; simp [hn, eq_comm]
  · next b he => simp [inRead_ok.mp he]

theorem tv_iff {s : State} : s.tv = true ↔ s.tree ≠ .none := by
  unfold State.tv; split <;> simp_all

theorem decodeOne_ok {s : State} {r : Byte × Nat} :
    decodeOne s = .ok r ↔ traverseRoot s.tree s.unread = some r := by
  unfold decodeOne
  split
  · split <;> simp_all
  · next h =>
    have : s.tree = .none := by simpa [tv_iff] using h
    simp [this, traverseRoot]

theorem decodeOne_error {s : State} {h : Halt} :
    decodeOne s = .error h ↔ (h = .err .noTree ∧ s.tree = .none) ∨
      (h = .err .corruptPayload ∧ s.tree ≠ .none ∧ traverseRoot s.tree s.unread = Option.none) := by
  unfold decodeOne
  split
  · next ht =>
    have := tv_iff.mp ht
    split
    · next hn => simp [this, hn, eq_comm]
    · next r hr => simp [this, hr]
  · next ht =>
    have : s.tree = .none := by simpa [tv_iff] using ht
    simp [this, eq_comm]

theorem decodeSymbol_ok {s t : State} :
    decodeSymbol s = .ok t ↔ ∃ b n, traverseRoot s.tree s.unread = some (b, n) ∧
      t = { s with res := b.setWidth 64, bsRd := s.bsRd + n } := by
  unfold decodeSymbol
  split
  · next h hd =>
    have : ∀ r, traverseRoot s.tree s.unread ≠ some r := fun r hr => by
      rw [decodeOne_ok.mpr hr] at hd; cases hd
    simp [this]
  · next b n hd => simp [decodeOne_ok.mp hd, eq_comm]

theorem decodeSymbol_error {s : State} {h : Halt} :
    decodeSymbol s = .error h ↔ decodeOne s = .error h := by
  unfold decodeSymbol; split <;> simp_all

theorem decodeAppend_ok {s t : State} :
    decodeAppend s = .ok t ↔ ∃ b n, traverseRoot s.tree s.unread = some (b, n) ∧
      s.outLen + 1 ≤ s.caps.outCap ∧
      t = { s with
        bsRd := s.bsRd + n
        outBuf := Mem.write s.outBuf s.outLen b
        outLen := s.outLen + 1 } := by
  unfold decodeAppend
  split
  · next h hd =>
    have : ∀ r, traverseRoot s.tree s.unread ≠ some r := fun r hr => by
      rw [decodeOne_ok.mpr hr] at hd; cases hd
    simp [this]
  · next b n hd => simp [decodeOne_ok.mp hd, outAppend_ok, Mem.writeList]

theorem decodeAppend_error {s : State} {h : Halt} :
    decodeAppend s = .error h ↔ decodeOne s = .error h ∨
      ∃ r, traverseRoot s.tree s.unread = some r ∧ h = .err .capacityExceeded ∧
        s.caps.outCap < s.outLen + 1 := by
  unfold decodeAppend
  split
  · next h' hd =>
    have : ∀ r, traverseRoot s.tree s.unread ≠ some r := fun r hr => by
      rw [decodeOne_ok.mpr hr] at hd; cases hd
    simp [hd]; intro a b hab; exact absurd hab (this _)
  · next b n hd => simp [hd, decodeOne_ok.mp hd, outAppend_error]

/-! ### Header -/

theorem readHeader_ok {s t : State} :
    readHeader s = .ok t ↔ s.inLenNat ≤ s.caps.inCap ∧ ∃ T n, parseHeader s = .ok (T, n) ∧
      t = { s with ft := T, res := BitVec.ofNat 64 n } := by
  unfold readHeader
  split
  · simp; omega
  · split
    · next h => simp [h]
    · next T n h => simp [h, eq_comm]; omega

theorem readHeader_error {s : State} {h : Halt} :
    readHeader s = .error h ↔ (h = .err .outOfRange ∧ s.caps.inCap < s.inLenNat) ∨
      (s.inLenNat ≤ s.caps.inCap ∧ parseHeader s = .error h) := by
  unfold readHeader
  split
  · next hc => simp [eq_comm, hc, Nat.not_le.mpr hc]
  · next hc => split <;> simp_all

/-- What `parse_header()` accepts: the count, the bound on it, and the entries (45_codec.md R193). -/
theorem parseHeader_ok {s : State} {T : FreqTable} {n : Nat} :
    parseHeader s = .ok (T, n) ↔ ∃ c, inReadList s 0 4 = .ok c ∧ leNat c ≤ 256 ∧
      n = 4 + 9 * leNat c ∧ n ≤ s.inLenNat ∧ parseEntries s (leNat c) 4 emptyFreq 0 = .ok T := by
  unfold parseHeader
  split
  · simp; omega
  · split
    · next h => simp [h]
    · next c h =>
      split
      · simp [h]; omega
      · split
        · simp [h]; omega
        · split
          · next h2 => simp [h, h2]
          · next T' h2 =>
            simp only [h, Except.ok.injEq, Prod.mk.injEq, exists_eq_left', h2]
            constructor
            · rintro ⟨rfl, rfl⟩; exact ⟨by omega, rfl, by omega, rfl⟩
            · rintro ⟨-, rfl, -, rfl⟩; exact ⟨rfl, rfl⟩

/-- One accepted entry. -/
theorem parseEntries_succ {s : State} {k a sum : Nat} {t T : FreqTable} :
    parseEntries s (k + 1) a t sum = .ok T ↔ ∃ b l, Mem.read s.inBuf a = some b ∧
      inReadList s (a + 1) 8 = .ok l ∧ leNat l ≠ 0 ∧ lookup t b = 0#64 ∧
      sum + leNat l ≤ 2 ^ 64 - 1 ∧
      parseEntries s k (a + 9) (update t b (BitVec.ofNat 64 (leNat l))) (sum + leNat l) = .ok T := by
  rw [parseEntries]
  split
  · next h he => simp [(inRead_error.mp he).2]
  · next b he =>
    simp only [inRead_ok.mp he, Option.some.injEq, exists_and_left, exists_eq_left']
    split
    · next h hl => simp [hl]
    · next l hl =>
      simp only [hl, Except.ok.injEq, exists_eq_left']
      split
      · next h0 => simp [h0]
      · next h0 =>
        split
        · next h1 => simp [h1]
        · next h1 =>
          simp only [ne_eq, not_not] at h1
          split
          · next h2 => simp [h0, h1]; omega
          · next h2 => simp [h0, h1]; omega

/-- A table that is accepted has the frequency sum that was checked against u64. -/
theorem freqSum_parseEntries {s : State} {k a sum : Nat} {t T : FreqTable}
    (h : parseEntries s k a t sum = .ok T) (h0 : freqSum t = sum) (hs : sum ≤ 2 ^ 64 - 1) :
    freqSum T ≤ 2 ^ 64 - 1 := by
  induction k generalizing a t sum with
  | zero => cases h; omega
  | succ k ih =>
    obtain ⟨b, l, -, -, -, hz, hle, hr⟩ := parseEntries_succ.mp h
    refine ih hr ?_ hle
    rw [freqSum_update_zero hz, h0, BitVec.toNat_ofNat, Nat.mod_eq_of_lt (by omega)]

theorem freqSum_parseHeader {s : State} {T : FreqTable} {n : Nat} (h : parseHeader s = .ok (T, n)) :
    freqSum T ≤ 2 ^ 64 - 1 := by
  obtain ⟨c, -, -, -, -, he⟩ := parseHeader_ok.mp h
  exact freqSum_parseEntries he freqSum_emptyFreq (by omega)

/-- What an entry read can fail with: a byte of IN never written, or MALFORMED_HEADER. -/
theorem parseEntries_error {s : State} {k a sum : Nat} {t : FreqTable} {h : Halt}
    (hr : parseEntries s k a t sum = .error h) :
    h = .err .malformedHeader ∨
      ∃ x, a ≤ x ∧ x < a + 9 * k ∧ h = .fault (.unwrittenInput x) ∧
        Mem.read s.inBuf x = Option.none := by
  induction k generalizing a t sum with
  | zero => cases hr
  | succ k ih =>
    rw [parseEntries] at hr
    split at hr
    · next h' he =>
      cases hr
      obtain ⟨rfl, hn⟩ := inRead_error.mp he
      exact .inr ⟨a, by omega, by omega, rfl, hn⟩
    · split at hr
      · next h' hl =>
        cases hr
        obtain ⟨m, hm, e, hn⟩ := inReadList_error hl
        exact .inr ⟨a + 1 + m, by omega, by omega, e, hn⟩
      · split at hr
        · cases hr; exact .inl rfl
        · split at hr
          · cases hr; exact .inl rfl
          · split at hr
            · cases hr; exact .inl rfl
            · rcases ih hr with h | ⟨x, h1, h2, e, hn⟩
              · exact .inl h
              · exact .inr ⟨x, by omega, by omega, e, hn⟩

theorem parseHeader_error {s : State} {h : Halt} (hr : parseHeader s = .error h) :
    h = .err .malformedHeader ∨
      ∃ x, x < s.inLenNat ∧ h = .fault (.unwrittenInput x) ∧ Mem.read s.inBuf x = Option.none := by
  unfold parseHeader at hr
  split at hr
  · cases hr; exact .inl rfl
  · split at hr
    · next h' hl =>
      cases hr
      obtain ⟨m, hm, e, hn⟩ := inReadList_error hl
      exact .inr ⟨0 + m, by omega, e, hn⟩
    · split at hr
      · cases hr; exact .inl rfl
      · split at hr
        · cases hr; exact .inl rfl
        · split at hr
          · next h' he =>
            cases hr
            rcases parseEntries_error he with h | ⟨x, h1, h2, e, hn⟩
            · exact .inl h
            · exact .inr ⟨x, by omega, e, hn⟩
          · cases hr

/-! ### What a command can change -/

/-- ENC_BLOCK's loop only appends bits. -/
theorem encodeLoop_leaves {n a : Nat} {s t : State} (h : (encodeLoop n a s).leaves t) :
    ∃ l, t = { s with bs := s.bs ++ l } := by
  induction n generalizing a s with
  | zero => exact ⟨[], by rw [h]; simp⟩
  | succ n ih =>
    rw [encodeLoop] at h
    cases hr : encodeAt a s with
    | error e =>
      cases e with
      | err e => rw [hr] at h; exact ⟨[], by rw [h]; simp⟩
      | fault f => rw [hr] at h; exact h.elim
    | ok u =>
      rw [hr] at h
      obtain ⟨b, -, hb⟩ := encodeAt_ok.mp hr
      obtain ⟨c, -, -, rfl⟩ := encodeSymbol_ok.mp hb
      obtain ⟨l, rfl⟩ := ih (s := { s with bs := s.bs ++ c }) h
      exact ⟨c ++ l, by simp⟩

theorem encodeBlock_leaves {s t : State} (h : (encodeBlock s).leaves t) :
    ∃ l, t = { s with bs := s.bs ++ l } := by
  unfold encodeBlock at h
  split at h
  · exact ⟨[], by rw [h]; simp⟩
  · exact encodeLoop_leaves h

/-- The decoding loop only consumes bits and appends to OUT. -/
theorem decodeLoop_leaves {k : Nat} {s t : State} (h : (decodeLoop k s).leaves t) :
    ∃ n l, t = { s with
      bsRd := s.bsRd + n
      outBuf := Mem.writeList s.outBuf s.outLen l
      outLen := s.outLen + l.length } := by
  induction k generalizing s with
  | zero => exact ⟨0, [], by rw [h]; rfl⟩
  | succ k ih =>
    rw [decodeLoop] at h
    cases hr : decodeAppend s with
    | error e =>
      cases e with
      | err e => rw [hr] at h; exact ⟨0, [], by rw [h]; rfl⟩
      | fault f => rw [hr] at h; exact h.elim
    | ok u =>
      rw [hr] at h
      obtain ⟨b, n, -, -, rfl⟩ := decodeAppend_ok.mp hr
      obtain ⟨m, l, rfl⟩ := ih (s := { s with
        bsRd := s.bsRd + n, outBuf := Mem.write s.outBuf s.outLen b, outLen := s.outLen + 1 }) h
      exact ⟨n + m, b :: l, by simp [Mem.writeList, Nat.add_assoc, Nat.add_comm 1]⟩

theorem decodeBlock_leaves {s t : State} (h : (decodeBlock s).leaves t) :
    ∃ n l, t = { s with
      bsRd := s.bsRd + n
      outBuf := Mem.writeList s.outBuf s.outLen l
      outLen := s.outLen + l.length } := by
  unfold decodeBlock at h
  split at h
  · exact decodeLoop_leaves h
  · exact ⟨0, [], by rw [h]; rfl⟩

end Sys2Proof.Machine
end

