-- ==== Sys2Proof/Laws/Builder.lean ====
section
/-! SUPPORT. The laws of HT_BUILD's merge order and of the codes of a built tree: the order of
    removals
at every node, prefix freedom, code lengths, and the depth each entry of the queue ends at. -/

namespace Sys2Proof.Machine

/-- Everything HT_BUILD can do (43_tree.md R144). -/
theorem build_next {s t : State} (h : exec .htBuild s = .next t) :
    (keys s.ft ≠ [] ∧ t = { s with tree := treeOf s.ft, ct := emptyCodes }) ∨
    (keys s.ft = [] ∧ t = { s with err := .emptyFreqTable }) := by
  have h' : (primitive (buildTree s) s).outcome = .next t := h
  rcases primitive_next.mp h' with h | ⟨e, h, ht⟩
  · exact .inl (buildTree_ok.mp h)
  · obtain ⟨h1, h2⟩ := buildTree_error.mp h
    cases h1; exact .inr ⟨h2, ht⟩

/-- Everything HT_GEN_CODES can do (R145). -/
theorem codes_next {s t : State} (h : exec .htCodes s = .next t) :
    t = { s with ct := codesOf s.tree } := by
  cases h; rfl

/-- Induction over the merge loop: `P` holds of the queue before every merge, `Q` of the root. -/
theorem mergeLoop_induct (P : Nat → List QEntry → Prop) (Q : Root → Prop)
    (hstep : ∀ seq x y q, P seq (x :: y :: q) → P (seq + 1) (enqueue ⟨seq, mergeNodes x.tree y.tree⟩ q))
    (hend : ∀ seq x, P seq [x] → Q x.tree.toRoot) (n seq : Nat) (q : List QEntry)
    (hn : q.length = n + 1) (h : P seq q) :
    Q (mergeLoop (n + 1) seq q) := by
  induction n generalizing seq q with
  | zero =>
    obtain ⟨x, rfl⟩ := List.length_eq_one_iff.mp hn
    exact hend seq x h
  | succ n ih =>
    match q, hn with
    | x :: y :: q, hn => exact ih (seq + 1) _ (by simpa using hn) (hstep seq x y q h)

/-- What holds of the queue before every merge: key order, fresh sequence numbers, a leaf's number is
its place among the keys, a node's lies above them (R141), and the subtrees were merged in order. -/
structure BuildOrder (t : FreqTable) (seq : Nat) (q : List QEntry) : Prop where
  order : InOrder q
  fresh : ∀ x ∈ q, x.seq < seq
  big : (keys t).length ≤ seq
  leaf : ∀ x ∈ q, ∀ b f, x.tree = .leaf b f → (keys t)[x.seq]? = some b
  node : ∀ x ∈ q, ∀ f l r, x.tree = .node f l r → (keys t).length ≤ x.seq
  merged : ∀ x ∈ q, x.tree.mergeOrdered

/-- The queue HT_BUILD starts with is in build order. -/
theorem buildOrder_seed (t : FreqTable) : BuildOrder t (keys t).length (seedQueue t) := by
  have key : ∀ x ∈ seedQueue t, ∃ b, (keys t)[x.seq]? = some b ∧ x.tree = .leaf b (lookup t
      b).toNat := by
    intro x hx
    have hx := (seedQueue_perm t).mem_iff.mp hx
    have aux : ∀ (l : List Byte) (i : Nat), x ∈ leavesFrom t i l → ∃ b, i ≤ x.seq ∧ l[x.seq - i]? =
        some b ∧ x.tree = .leaf b (lookup t b).toNat := by
      intro l
      induction l with
      | nil => intro i h; cases h
      | cons b l ih =>
        intro i h
        rcases List.mem_cons.mp h with rfl | h
        · exact ⟨b, Nat.le_refl _, by simp, rfl⟩
        · obtain ⟨c, h1, h2, h3⟩ := ih (i + 1) h
          exact ⟨c, by omega, by rw [show x.seq - i = (x.seq - (i + 1)) + 1 by omega]; simpa using
              h2, h3⟩
    obtain ⟨b, -, h2, h3⟩ := aux _ 0 hx
    exact ⟨b, by simpa using h2, h3⟩
  refine ⟨seedQueue_inOrder t, ?_, Nat.le_refl _, ?_, ?_, ?_⟩
  · intro x hx
    obtain ⟨b, hb, -⟩ := key x hx
    exact (List.getElem?_eq_some_iff.mp hb).1
  · intro x hx b f e
    obtain ⟨c, hc, e'⟩ := key x hx
    rw [e] at e'; cases e'; exact hc
  · intro x hx f l r e
    obtain ⟨c, hc, e'⟩ := key x hx
    rw [e] at e'; cases e'
  · intro x hx
    obtain ⟨c, hc, e'⟩ := key x hx
    rw [e']; trivial

/-- A merge keeps the build order. -/
theorem buildOrder_step (t : FreqTable) (seq : Nat) (x y : QEntry) (q : List QEntry)
    (h : BuildOrder t seq (x :: y :: q)) :
    BuildOrder t (seq + 1) (enqueue ⟨seq, mergeNodes x.tree y.tree⟩ q) := by
  obtain ⟨h1, h2, h3, h4, h5, h6⟩ := h
  have hm : ∀ z, z ∈ enqueue ⟨seq, mergeNodes x.tree y.tree⟩ q ↔ z = ⟨seq, mergeNodes x.tree y.tree⟩ ∨ z ∈ q := by
    intro z; rw [(enqueue_perm _ q).mem_iff, List.mem_cons]
  obtain ⟨hx, h1'⟩ := List.pairwise_cons.mp h1
  obtain ⟨hy, h1''⟩ := List.pairwise_cons.mp h1'
  refine ⟨?_, ?_, by omega, ?_, ?_, ?_⟩
  · exact inOrder_enqueue h1'' fun z hz => by have := h2 z (by simp [hz]); simp only; omega
  · intro z hz
    rcases (hm z).mp hz with rfl | hz
    · exact Nat.lt_succ_self _
    · have := h2 z (by simp [hz]); omega
  · intro z hz b f e
    rcases (hm z).mp hz with rfl | hz
    · cases e
    · exact h4 z (by simp [hz]) b f e
  · intro z hz f l r e
    rcases (hm z).mp hz with rfl | hz
    · exact h3
    · exact h5 z (by simp [hz]) f l r e
  · intro z hz
    rcases (hm z).mp hz with rfl | hz
    · refine ⟨?_, h6 x (by simp), h6 y (by simp)⟩
      have hb := before_iff.mp (hx y (by simp))
      rcases hb with hb | ⟨hb, hs⟩
      · exact .inl hb
      · refine .inr ⟨hb, fun b g e => ?_⟩
        have hyb := h4 y (by simp) b g e
        have hyl := (List.getElem?_eq_some_iff.mp hyb).1
        cases hx' : x.tree with
        | node f l r => have := h5 x (by simp) f l r hx'; omega
        | leaf a f =>
          refine ⟨a, f, rfl, ?_⟩
          have hxa := h4 x (by simp) a f hx'
          obtain ⟨p1, p2⟩ := List.getElem?_eq_some_iff.mp hyb
          obtain ⟨q1, q2⟩ := List.getElem?_eq_some_iff.mp hxa
          have := List.pairwise_iff_getElem.mp (keys_sorted t) x.seq y.seq q1 p1 hs
          rwa [q2, p2] at this
    · exact h6 z (by simp [hz])

/-! ### The merge relation (R140 to R142) -/

theorem precedes_iff {x y : QEntry} : x.precedes y ↔ x.before y = true := before_iff.symm

theorem precedes_asymm {x y : QEntry} (h : x.precedes y) : ¬ y.precedes x := by
  unfold QEntry.precedes at *; omega

/-- Of two entries that each have the least key among the same nodes, neither differs. -/
theorem least_unique {x y : QEntry} {p q : List QEntry} (h : (x :: p).Perm (y :: q))
    (hx : ∀ z ∈ p, x.precedes z) (hy : ∀ z ∈ q, y.precedes z) : x = y := by
  by_contra hne
  have h1 : x ∈ q := by
    have := h.mem_iff.mp (List.mem_cons_self ..)
    exact (List.mem_cons.mp this).resolve_left hne
  have h2 : y ∈ p := by
    have := h.mem_iff.mpr (List.mem_cons_self ..)
    exact (List.mem_cons.mp this).resolve_left (Ne.symm hne)
  exact precedes_asymm (hx y h2) (hy x h1)

/-- The order the nodes are listed in does not matter. -/
theorem MergesTo.of_perm {n : Nat} {q q' : List QEntry} {t : HTree} (h : MergesTo n q t)
    (hq : q.Perm q') : MergesTo n q' t := by
  cases h with
  | last seq x => rw [List.perm_singleton.mp hq.symm]; exact .last n x
  | merge nodes least next merged => exact .merge (hq.symm.trans nodes) least next merged

/-- The merge order determines the tree, and the order the nodes are listed in does not matter (R141). -/
theorem MergesTo.unique {n : Nat} {q q' : List QEntry} {t t' : HTree} (h : MergesTo n q t)
    (h' : MergesTo n q' t') (hq : q.Perm q') : t = t' := by
  induction h generalizing q' t' with
  | last seq x =>
    have e := List.perm_singleton.mp hq.symm
    subst e
    cases h' with
    | last => rfl
    | merge nodes => have := nodes.length_eq; simp at this
  | merge nodes least next merged ih =>
    cases h' with
    | last => have := (nodes.symm.trans hq).length_eq; simp at this
    | merge nodes' least' next' merged' =>
      have hp := (nodes.symm.trans hq).trans nodes'
      have e := least_unique hp least least'
      subst e
      have hp := (List.perm_cons _).mp hp
      have e := least_unique hp next next'
      subst e
      exact ih merged' (((List.perm_cons _).mp hp).cons _)

/-- A queue in key order merges to the tree the loop makes of it. -/
theorem mergesTo_mergeLoop (n : Nat) : ∀ (seq : Nat) (q : List QEntry), q.length = n + 1 → InOrder q →
    (∀ x ∈ q, x.seq < seq) → ∃ t, mergeLoop (n + 1) seq q = t.toRoot ∧ MergesTo seq q t := by
  induction n with
  | zero =>
    intro seq q hn _ _
    obtain ⟨x, rfl⟩ := List.length_eq_one_iff.mp hn
    exact ⟨x.tree, rfl, .last seq x⟩
  | succ n ih =>
    intro seq q hn ho hf
    match q, hn with
    | x :: y :: q, hn =>
      obtain ⟨hx, ho'⟩ := List.pairwise_cons.mp ho
      obtain ⟨hy, ho''⟩ := List.pairwise_cons.mp ho'
      have hz : ∀ z ∈ enqueue ⟨seq, mergeNodes x.tree y.tree⟩ q, z.seq < seq + 1 := by
        intro z hz
        rcases List.mem_cons.mp ((enqueue_perm _ q).mem_iff.mp hz) with rfl | hz
        · exact Nat.lt_succ_self _
        · have := hf z (by simp [hz]); omega
      obtain ⟨t, h1, h2⟩ := ih (seq + 1) (enqueue ⟨seq, mergeNodes x.tree y.tree⟩ q)
        (by simpa using hn)
        (inOrder_enqueue ho'' fun z hz => by have := hf z (by simp [hz]); simp only; omega) hz
      refine ⟨t, h1, .merge (List.Perm.refl _) (fun z hz => precedes_iff.mpr (hx z hz))
        (fun z hz => precedes_iff.mpr (hy z hz)) ?_⟩
      exact h2.of_perm (enqueue_perm _ q)

/-- The seeds are the leaves HT_BUILD's queue starts with. -/
theorem seeds_eq (t : FreqTable) : seeds t = leavesFrom t 0 (keys t) := by
  have : ∀ (l : List Byte) (i : Nat), ((l.zipIdx i).map fun x =>
      (⟨x.2, .leaf x.1 (lookup t x.1).toNat⟩ : QEntry)) = leavesFrom t i l := by
    intro l
    induction l with
    | nil => intro i; rfl
    | cons b l ih => intro i; simp [leavesFrom, ih]
  rw [seeds, ← keys_eq_filter]; exact this _ 0

theorem length_seeds (t : FreqTable) : (seeds t).length = (keys t).length := by
  rw [seeds_eq, length_leavesFrom]

/-- The tree HT_BUILD makes is the one its seeds merge to. -/
theorem mergesTo_treeOf {t : FreqTable} (h : keys t ≠ []) :
    ∃ r, treeOf t = r.toRoot ∧ MergesTo (keys t).length (seeds t) r := by
  obtain ⟨n, hn⟩ := Nat.exists_eq_succ_of_ne_zero (mt List.length_eq_zero_iff.mp h)
  have hb := buildOrder_seed t
  obtain ⟨r, h1, h2⟩ := mergesTo_mergeLoop n (keys t).length (seedQueue t) (by simp [hn]) hb.order hb.fresh
  refine ⟨r, by rw [treeOf]; rw [hn] at h1 ⊢; exact h1, h2.of_perm ?_⟩
  rw [seeds_eq]; exact seedQueue_perm t

/-! ### Codes of a tree (R146 a, b) -/

/-- A built tree has one symbol for each key. -/
theorem length_symbols_treeOf {t : FreqTable} : (treeOf t).symbols.length = (keys t).length := by
  by_cases h : keys t = []
  · simp [treeOf_empty h, h, Root.symbols, Root.leaves]
  · exact (treeOf_symbols_perm h).length_eq

/-- The codes of a tree are prefix-free (R146 b). -/
theorem prefixFree_codesOf {r : Root} (hn : r.symbols.Nodup) : prefixFree (codesOf r) := by
  intro a b hab p q hp hq hpq
  rw [lookup_codesOf hn] at hp hq
  obtain ⟨x, rfl⟩ := hpq
  have h1 := traverseRoot_of_leadsTo hp x
  have h2 := traverseRoot_of_leadsTo hq []
  rw [List.append_nil, h1] at h2
  simp at h2; exact hab h2.1

/-- The code lengths of a tree with n leaves lie between 1 and n - 1, and at 1 for one leaf. -/
theorem codeLength_codesOf {r : Root} (hn : r.symbols.Nodup) {b : Byte} {p : Bits}
    (h : lookup (codesOf r) b = some p) :
    1 ≤ p.length ∧ p.length ≤ max 1 (r.symbols.length - 1) := by
  rw [lookup_codesOf hn] at h
  cases r with
  | none => exact h.elim
  | wrap f c g => obtain ⟨rfl, -⟩ := h; simp
  | full f l r =>
    obtain ⟨g, hg⟩ := h
    have h1 := length_le_depth hg
    have h2 := depth_lt_leaves (.node f l r)
    have h3 : (Root.full f l r).symbols.length = (HTree.node f l r).leaves.length := by simp
        [Root.symbols, Root.leaves, HTree.leaves]
    refine ⟨?_, by omega⟩
    cases p with
    | nil => simp at hg
    | cons => simp

/-! ### Leaf depths (R146 c, d) -/

/-- A tree's leaves with their frequencies and depths. -/
def depths : HTree → List (Byte × Nat × Nat)
  | .leaf b f => [(b, f, 0)]
  | .node _ l r => (depths l ++ depths r).map fun x => (x.1, x.2.1, x.2.2 + 1)

/-- Without the depths, the list is that of the leaves. -/
theorem depths_leaves (t : HTree) : (depths t).map (fun x => (x.1, x.2.1)) = t.leaves := by
  induction t with
  | leaf => rfl
  | node f l r ihl ihr => simp [depths, HTree.leaves, ← ihl, ← ihr, Function.comp_def]

/-- A leaf stands at the end of a path as long as its depth. -/
theorem depths_follow {t : HTree} {b : Byte} {f n : Nat} (h : (b, f, n) ∈ depths t) :
    ∃ p, t.follow p = some (.leaf b f) ∧ p.length = n := by
  induction t generalizing n with
  | leaf c g => simp [depths] at h; obtain ⟨rfl, rfl, rfl⟩ := h; exact ⟨[], rfl, rfl⟩
  | node g l r ihl ihr =>
    simp only [depths, List.mem_map, List.mem_append] at h
    obtain ⟨⟨c, d, e⟩, h | h, he⟩ := h
    · simp at he; obtain ⟨rfl, rfl, rfl⟩ := he; obtain ⟨p, h1, h2⟩ := ihl h; exact ⟨false :: p, h1,
        by simp [h2]⟩
    · simp at he; obtain ⟨rfl, rfl, rfl⟩ := he; obtain ⟨p, h1, h2⟩ := ihr h; exact ⟨true :: p, h1,
        by simp [h2]⟩

/-- Kraft's equality on the leaf depths of a tree (R146 c). -/
theorem depths_kraft (t : HTree) (D : Nat) (h : t.depth ≤ D) :
    ((depths t).map fun x => 2 ^ (D - x.2.2)).sum = 2 ^ D := by
  induction t generalizing D with
  | leaf => simp [depths]
  | node f l r ihl ihr =>
    simp only [HTree.depth] at h
    obtain ⟨E, rfl⟩ : ∃ E, D = E + 1 := ⟨D - 1, by omega⟩
    have a := ihl E (by omega)
    have b := ihr E (by omega)
    simp only [depths, List.map_map, Function.comp_def, List.map_append, List.sum_append] at *
    simp only [Nat.add_sub_add_right, a, b, Nat.pow_succ]; omega

/-- The leaf frequencies weighted by depth sum to the node frequencies (R146 d). -/
theorem depths_nodeFreqs (t : HTree) (h : t.sumsOk = true) :
    ((depths t).map fun x => x.2.1 * x.2.2).sum = t.nodeFreqs ∧
    ((depths t).map fun x => x.2.1).sum = t.freq := by
  induction t with
  | leaf => simp [depths, HTree.nodeFreqs, HTree.freq]
  | node f l r ihl ihr =>
    simp only [HTree.sumsOk, Bool.and_eq_true, decide_eq_true_eq] at h
    obtain ⟨a1, a2⟩ := ihl h.1.2
    obtain ⟨b1, b2⟩ := ihr h.2
    have aux : ∀ l : List (Byte × Nat × Nat), (l.map fun x => x.2.1 * (x.2.2 + 1)).sum = (l.map fun
        x => x.2.1 * x.2.2).sum + (l.map fun x => x.2.1).sum := by
      intro l; induction l with
      | nil => rfl
      | cons x l ih => simp only [List.map_cons, List.sum_cons, ih]; ring
    simp only [depths, List.map_map, Function.comp_def, List.map_append, List.sum_append,
        HTree.nodeFreqs, show (HTree.node f l r).freq = f from rfl, aux, a1, a2, b1, b2]
    omega

/-- A sum over the keys, by frequency and code length, is the sum over the leaf depths. -/
theorem sum_keys_depths {t : FreqTable} {f : Nat} {l r : HTree} (hk : keys t ≠ [])
    (e : treeOf t = .full f l r) (F : Nat → Nat → Nat) :
    ((keys t).map fun b => F (lookup t b).toNat (codeLength (lookup (codesOf (treeOf t)) b))).sum =
        ((depths (.node f l r)).map fun x => F x.2.1 x.2.2).sum := by
  have h1 := (treeOf_spec hk).1
  have hn := treeOf_symbols_nodup t
  have h2 : (depths (.node f l r)).map (fun x => (x.1, x.2.1)) = (treeOf t).leaves := by
    rw [depths_leaves, e]; rfl
  have h3 : ((depths (.node f l r)).map fun x => F x.2.1 x.2.2) =
      (treeOf t).leaves.map fun x => F x.2 (codeLength (lookup (codesOf (treeOf t)) x.1)) := by
    rw [← h2, List.map_map]
    refine List.map_congr_left ?_
    rintro ⟨b, g, n⟩ hx
    obtain ⟨p, hp, rfl⟩ := depths_follow hx
    have : lookup (codesOf (treeOf t)) b = some p :=
      (lookup_codesOf hn).mpr (by rw [e]; exact ⟨g, hp⟩)
    simp [this, codeLength]
  rw [h3, (h1.map _).sum_eq, List.map_map]; rfl

/-! ### The depth an entry of the queue ends at (R146 e) -/

/-- The depth in the final tree of the entry with sequence number `k`. -/
def finalDepth : Nat → Nat → List QEntry → Nat → Nat
  | 0, _, _, _ => 0
  | _ + 1, _, [], _ => 0
  | _ + 1, _, [_], _ => 0
  | n + 1, seq, x :: y :: q, k =>
    if k = x.seq ∨ k = y.seq then finalDepth n (seq + 1) (enqueue ⟨seq, mergeNodes x.tree y.tree⟩ q) seq + 1
    else finalDepth n (seq + 1) (enqueue ⟨seq, mergeNodes x.tree y.tree⟩ q) k

/-- The queue is in key order, and its sequence numbers are fresh and distinct. -/
structure QueueKeys (seq : Nat) (q : List QEntry) : Prop where
  order : InOrder q
  fresh : ∀ x ∈ q, x.seq < seq
  nodup : (q.map QEntry.seq).Nodup

/-- A merge keeps the queue keys. -/
theorem queueKeys_step {seq : Nat} {x y : QEntry} {q : List QEntry}
    (h : QueueKeys seq (x :: y :: q)) :
    QueueKeys (seq + 1) (enqueue ⟨seq, mergeNodes x.tree y.tree⟩ q) := by
  obtain ⟨h1, h2, h3⟩ := h
  obtain ⟨hx, h1'⟩ := List.pairwise_cons.mp h1
  obtain ⟨hy, h1''⟩ := List.pairwise_cons.mp h1'
  have hm : ∀ z, z ∈ enqueue ⟨seq, mergeNodes x.tree y.tree⟩ q ↔ z = ⟨seq, mergeNodes x.tree y.tree⟩ ∨ z ∈ q := by
    intro z; rw [(enqueue_perm _ q).mem_iff, List.mem_cons]
  refine ⟨inOrder_enqueue h1'' fun z hz => by have := h2 z (by simp [hz]); simp only; omega, ?_, ?_⟩
  · intro z hz
    rcases (hm z).mp hz with rfl | hz
    · exact Nat.lt_succ_self _
    · have := h2 z (by simp [hz]); omega
  · rw [((enqueue_perm _ q).map QEntry.seq).nodup_iff, List.map_cons, List.nodup_cons]
    simp only [List.map_cons, List.nodup_cons] at h3
    refine ⟨?_, h3.2.2⟩
    intro hc
    obtain ⟨z, hz, e⟩ := List.mem_map.mp hc
    have := h2 z (by simp [hz]); simp only at e; omega

/-- Of two entries of the queue, the one removed earlier ends at least as deep. -/
theorem finalDepth_anti (n : Nat) : ∀ (seq : Nat) (q : List QEntry), q.length ≤ n → QueueKeys seq q →
    ∀ x y, [x, y].Sublist q → finalDepth n seq q y.seq ≤ finalDepth n seq q x.seq := by
  induction n using Nat.strong_induction_on with
  | _ n ih =>
  intro seq q hl hq x y hs
  match n, q, hl, ih with
  | 0, [], _, _ => cases hs
  | n + 1, [], _, _ => cases hs
  | n + 1, [a], _, _ => have := hs.length_le; simp at this
  | n + 1, a :: b :: q, hl, ih =>
    set z : QEntry := ⟨seq, mergeNodes a.tree b.tree⟩ with hz
    have hq' := queueKeys_step hq
    rw [← hz] at hq'
    have hlen : (enqueue z q).length ≤ n := by simp at hl ⊢; omega
    have IH := ih n (by omega) (seq + 1) (enqueue z q) hlen hq'
    have hnd := hq.nodup
    simp only [List.map_cons, List.nodup_cons, List.mem_cons, not_or] at hnd
    have hfresh := hq.fresh
    have hsub : List.Sublist q (enqueue z q) := by
      clear * -
      induction q with
      | nil => simp
      | cons c q ih => rw [enqueue]; split
                       · exact List.sublist_cons_self _ _
                       · exact ih.cons_cons c
    have hne : ∀ w ∈ q, w.seq ≠ a.seq ∧ w.seq ≠ b.seq := by
      intro w hw
      refine ⟨fun e => hnd.1.2 (e ▸ List.mem_map_of_mem hw), fun e => hnd.2.1 (e ▸
          List.mem_map_of_mem hw)⟩
    have eq_depth : ∀ k, finalDepth (n + 1) seq (a :: b :: q) k = if k = a.seq ∨ k = b.seq then
        finalDepth n (seq + 1) (enqueue z q) seq + 1 else finalDepth n (seq + 1) (enqueue z q) k :=
            fun k => rfl
    have ea : finalDepth (n + 1) seq (a :: b :: q) a.seq = finalDepth n (seq + 1) (enqueue z q) seq
        + 1 := by rw [eq_depth, if_pos (.inl rfl)]
    have eb : finalDepth (n + 1) seq (a :: b :: q) b.seq = finalDepth n (seq + 1) (enqueue z q) seq
        + 1 := by rw [eq_depth, if_pos (.inr rfl)]
    have ew : ∀ w ∈ q, finalDepth (n + 1) seq (a :: b :: q) w.seq = finalDepth n (seq + 1) (enqueue
        z q) w.seq := by
      intro w hw; rw [eq_depth, if_neg]; have := hne w hw; tauto
    -- key: every w in q has depth ≤ depth z + 1
    have key : ∀ w ∈ q, finalDepth n (seq + 1) (enqueue z q) w.seq ≤ finalDepth n (seq + 1)
        (enqueue z q) seq + 1 := by
      intro w hw
      -- the next queue
      match hE : enqueue z q, n, hlen, ih with
      | [], _, _, _ => have := hsub.length_le; rw [hE] at this; cases q <;> simp at *
      | [c], _, _, _ =>
        have := congrArg List.length hE
        have hpos := List.length_pos_of_mem hw
        rw [length_enqueue] at this; simp at this; rw [this] at hw; cases hw
      | c :: d :: e, 0, hlen, _ => simp at hlen
      | c :: d :: e, m + 1, hlen, ih =>
        have hzmem : z ∈ c :: d :: e := by rw [← hE, (enqueue_perm z q).mem_iff]; simp
        have hwmem : w ∈ c :: d :: e := by rw [← hE, (enqueue_perm z q).mem_iff]; simp [hw]
        -- head has the largest depth
        rw [hE] at IH hq'
        have hc : finalDepth (m+1) (seq + 1) (c :: d :: e) w.seq ≤ finalDepth (m+1) (seq + 1) (c ::
            d :: e) c.seq := by
          rcases List.mem_cons.mp hwmem with rfl | hwmem
          · exact Nat.le_refl _
          · exact IH c w (List.Sublist.cons_cons c (List.singleton_sublist.mpr hwmem))
        refine Nat.le_trans hc ?_
        have ec : finalDepth (m+1) (seq + 1) (c :: d :: e) c.seq = finalDepth m (seq + 1 + 1)
            (enqueue ⟨seq + 1, mergeNodes c.tree d.tree⟩ e) (seq + 1) + 1 := by
          show (if _ then _ else _) = _
          rw [if_pos (.inl rfl)]
        have ed : finalDepth (m+1) (seq + 1) (c :: d :: e) d.seq = finalDepth m (seq + 1 + 1)
            (enqueue ⟨seq + 1, mergeNodes c.tree d.tree⟩ e) (seq + 1) + 1 := by
          show (if _ then _ else _) = _
          rw [if_pos (.inr rfl)]
        rcases List.mem_cons.mp hzmem with hzc | hzmem
        · have : seq = c.seq := by rw [← hzc]
          rw [this]; omega
        rcases List.mem_cons.mp hzmem with hzd | hze
        · have : seq = d.seq := by rw [← hzd]
          rw [← this] at ed
          rw [ec]; omega
        · -- z in e
          set v : QEntry := ⟨seq + 1, mergeNodes c.tree d.tree⟩ with hv
          have hq'' := queueKeys_step hq'
          rw [← hv] at hq''
          have hcd : finalDepth (m+1) (seq + 1) (c :: d :: e) seq = finalDepth m (seq + 1 + 1)
              (enqueue v e) seq := by
            have nd := hq'.nodup
            simp only [List.map_cons, List.nodup_cons, List.mem_cons, not_or] at nd
            have hzs : seq ∈ e.map QEntry.seq := List.mem_map.mpr ⟨z, hze, rfl⟩
            show (if _ then _ else _) = _
            rw [if_neg]
            rintro (h | h)
            · exact nd.1.2 (h ▸ hzs)
            · exact nd.2.1 (h ▸ hzs)
          rw [ec, hcd]
          -- z before v in enqueue v e
          have hzv : z.before v = true := by
            rw [before_iff]
            have o1 : InOrder (a :: b :: q) := hq.order
            have hcq : c ∈ q := by
              have : c ∈ enqueue z q := by rw [hE]; simp
              rcases List.mem_cons.mp ((enqueue_perm z q).mem_iff.mp this) with h | h
              · exfalso
                have nd := hq'.nodup
                simp only [List.map_cons, List.nodup_cons, List.mem_cons, not_or] at nd
                exact nd.1.2 (List.mem_map.mpr ⟨z, hze, by rw [h]⟩)
              · exact h
            have hdq : d ∈ q := by
              have : d ∈ enqueue z q := by rw [hE]; simp
              rcases List.mem_cons.mp ((enqueue_perm z q).mem_iff.mp this) with h | h
              · exfalso
                have nd := hq'.nodup
                simp only [List.map_cons, List.nodup_cons, List.mem_cons, not_or] at nd
                exact nd.2.1 (List.mem_map.mpr ⟨z, hze, by rw [h]⟩)
              · exact h
            obtain ⟨ha', ho⟩ := List.pairwise_cons.mp o1
            obtain ⟨hb', _⟩ := List.pairwise_cons.mp ho
            have hac := before_iff.mp (ha' c (by simp [hcq]))
            have hbd := before_iff.mp (hb' d hdq)
            have : z.tree.freq = a.tree.freq + b.tree.freq := rfl
            have : v.tree.freq = c.tree.freq + d.tree.freq := rfl
            have : z.seq = seq := rfl
            have : v.seq = seq + 1 := rfl
            omega
          have hsubl : [z, v].Sublist (enqueue v e) := by
            have hp : ∀ (l : List QEntry), InOrder l → z ∈ l → [z, v].Sublist (enqueue v l) := by
              intro l
              induction l with
              | nil => intro _ h; cases h
              | cons g l ihl =>
                intro ho hm
                rw [enqueue]
                split
                · next hb =>
                  exfalso
                  obtain ⟨hg, _⟩ := List.pairwise_cons.mp ho
                  have h1 : v.before z = true := by
                    rcases List.mem_cons.mp hm with rfl | hm
                    · exact hb
                    · exact before_trans hb (hg z hm)
                  rw [before_iff] at h1 hzv; omega
                · rcases List.mem_cons.mp hm with rfl | hm
                  · refine List.Sublist.cons_cons _ (List.singleton_sublist.mpr ?_)
                    rw [(enqueue_perm v l).mem_iff]; simp
                  · exact List.Sublist.cons _ (ihl (List.pairwise_cons.mp ho).2 hm)
            have o := hq'.order
            exact hp e (List.pairwise_cons.mp (List.pairwise_cons.mp o).2).2 hze
          have := ih m (by omega) (seq + 1 + 1) (enqueue v e) (by simp at hlen ⊢; omega) hq'' z v
              hsubl
          have e1 : z.seq = seq := rfl
          have e2 : v.seq = seq + 1 := rfl
          rw [e1, e2] at this
          omega
    -- now the cases
    cases hs with
    | cons _ hs =>
      cases hs with
      | cons _ hs =>
        have hx := hs.subset (List.mem_cons_self ..)
        have hy := hs.subset (List.mem_cons_of_mem _ (List.mem_cons_self ..))
        rw [ew x hx, ew y hy]
        exact IH x y (hs.trans hsub)
      | cons_cons _ hs =>
        have hy := List.singleton_sublist.mp hs
        rw [eb, ew y hy]; exact key y hy
    | cons_cons _ hs =>
      rcases List.mem_cons.mp (List.singleton_sublist.mp hs) with rfl | hy
      · rw [ea, eb]
      · rw [ea, ew y hy]; exact key y hy

/-- Every entry's tree stands in the final tree at its final depth. -/
theorem finalDepth_path (n : Nat) : ∀ (seq : Nat) (q : List QEntry), q.length = n + 1 →
    QueueKeys seq q → ∃ T : HTree, mergeLoop (n + 1) seq q = T.toRoot ∧
      ∀ x ∈ q, ∃ p : Bits, p.length = finalDepth (n + 1) seq q x.seq ∧ T.follow p = some x.tree := by
  induction n with
  | zero =>
    intro seq q hl hq
    obtain ⟨x, rfl⟩ := List.length_eq_one_iff.mp hl
    refine ⟨x.tree, rfl, ?_⟩
    intro y hy
    simp at hy; subst hy
    exact ⟨[], rfl, by simp⟩
  | succ n ih =>
    intro seq q hl hq
    match q, hl with
    | a :: b :: q, hl =>
      have hq' := queueKeys_step hq
      set z : QEntry := ⟨seq, mergeNodes a.tree b.tree⟩ with hz
      obtain ⟨T, h1, h2⟩ := ih (seq + 1) (enqueue z q) (by simpa using hl) hq'
      refine ⟨T, h1, ?_⟩
      have hnd := hq.nodup
      simp only [List.map_cons, List.nodup_cons, List.mem_cons, not_or] at hnd
      have eq_depth : ∀ k, finalDepth (n + 1 + 1) seq (a :: b :: q) k = if k = a.seq ∨ k = b.seq
          then finalDepth (n + 1) (seq + 1) (enqueue z q) seq + 1 else finalDepth (n+1) (seq + 1)
              (enqueue z q) k := fun k => rfl
      obtain ⟨pz, hp1, hp2⟩ := h2 z ((enqueue_perm z q).mem_iff.mpr (by simp))
      intro x hx
      rcases List.mem_cons.mp hx with rfl | hx
      · refine ⟨pz ++ [false], by rw [eq_depth, if_pos (.inl rfl)]; simp [hp1]; rfl, ?_⟩
        rw [follow_append, hp2]; simp [hz, mergeNodes]
      rcases List.mem_cons.mp hx with rfl | hx
      · refine ⟨pz ++ [true], by rw [eq_depth, if_pos (.inr rfl)]; simp [hp1]; rfl, ?_⟩
        rw [follow_append, hp2]; simp [hz, mergeNodes]
      · obtain ⟨p, hp, hp'⟩ := h2 x ((enqueue_perm z q).mem_iff.mpr (by simp [hx]))
        refine ⟨p, ?_, hp'⟩
        rw [eq_depth, if_neg, hp]
        rintro (e | e)
        · exact hnd.1.2 (e ▸ List.mem_map_of_mem hx)
        · exact hnd.2.1 (e ▸ List.mem_map_of_mem hx)

/-- The queue HT_BUILD starts with has queue keys. -/
theorem queueKeys_seed (t : FreqTable) : QueueKeys (keys t).length (seedQueue t) := by
  have h := buildOrder_seed t
  refine ⟨h.order, h.fresh, ?_⟩
  rw [((seedQueue_perm t).map QEntry.seq).nodup_iff]
  have : ∀ (l : List Byte) i, (leavesFrom t i l).map QEntry.seq = List.range' i l.length := by
    intro l; induction l with
    | nil => intro i; rfl
    | cons b l ih => intro i; simp [leavesFrom, ih, List.range'_succ]
  rw [this]; exact List.nodup_range'

/-- Every key has its leaf in the queue HT_BUILD starts with. -/
theorem seed_mem {t : FreqTable} {b : Byte} (h : b ∈ keys t) :
    ∃ x ∈ seedQueue t, x.tree = .leaf b (lookup t b).toNat := by
  have : ∀ (l : List Byte) i, b ∈ l → ∃ x ∈ leavesFrom t i l, x.tree = .leaf b (lookup t b).toNat
      := by
    intro l; induction l with
    | nil => intro i h; cases h
    | cons c l ih =>
      intro i h
      rcases List.mem_cons.mp h with rfl | h
      · exact ⟨_, List.mem_cons_self .., rfl⟩
      · obtain ⟨x, hx, e⟩ := ih (i + 1) h
        exact ⟨x, List.mem_cons_of_mem _ hx, e⟩
  obtain ⟨x, hx, e⟩ := this _ 0 h
  exact ⟨x, (seedQueue_perm t).mem_iff.mpr hx, e⟩

end Sys2Proof.Machine
end

