-- ==== Sys2Proof/Laws/Frames.lean ====
section
/-! SUPPORT. Every command as a run, and what every run leaves alone. -/

namespace Sys2Proof.Machine

/-- The run whose outcome `exec` answers. -/
def runOf : Instr → State → Run
  | .nop, s => .done s
  | .errClear, s => .done s.clearError
  | .outClear, s => .done { s with outLen := 0 }
  | .bsClear, s => .done (clearStream s)
  | .bsWbit t, s => primitive (appendBits [t] s) s
  | .bsWbits cnt, s => primitive (writeBits cnt s) s
  | .bsRbit, s => primitive (readBit s) s
  | .bsRbits cnt, s => primitive (readBits cnt s) s
  | .bsGetbuf, s => primitive (getBuffer s) s
  | .bsLoad, s => primitive (loadStream s.opndNat s) s
  | .faAnalyze, s => primitive (analyze s) s
  | .faAccum, s => primitive (accumulate s) s
  | .faRead b, s => .done { s with res := lookup s.ft b }
  | .faTotal, s => .done { s with res := BitVec.ofNat 64 (freqSum s.ft) }
  | .htBuild, s => primitive (buildTree s) s
  | .htCodes, s => .done (generateCodes s)
  | .ctLen b, s => .done { s with res := BitVec.ofNat 64 (codeLength (lookup s.ct b)) }
  | .ctWord b w, s => .done { s with res := codeWord (lookup s.ct b) w }
  | .encSym b, s => primitive (encodeSymbol b s) s
  | .encBlock, s => encodeBlock s
  | .decSym, s => primitive (decodeSymbol s) s
  | .decBlock, s => decodeBlock s
  | .hdrWrite, s => primitive (writeHeader s) s
  | .hdrParse, s => primitive (readHeader s) s
  | .codecCompress, s => (compressSteps { s with outLen := 0 }).clearOutOnError
  | .codecDecompress, s => (decompressSteps { s with outLen := 0 }).clearOutOnError

theorem exec_eq_runOf (i : Instr) (s : State) : exec i s = (runOf i s).outcome := by cases i <;> rfl

/-- A command answers a next state by ending there, or by raising an error there. -/
theorem exec_next {i : Instr} {s t : State} :
    exec i s = .next t ↔ runOf i s = .done t ∨ ∃ e u, runOf i s = .raised e u ∧ t = u.raiseError e := by
  rw [exec_eq_runOf, outcome_eq_next]

/-! ### Errors -/

/-- The run ends with no error, or with one that is an error. -/
def Run.errorReal : Run → Prop
  | .done _ => True
  | .raised e _ => e ≠ .none
  | .stopped _ => True

theorem errorReal_primitive {r : Except Halt State} {s : State} (h : ∀ e, r = .error (.err e) → e ≠ .none) :
    (primitive r s).errorReal := by
  rcases r with (e | f) | u
  · exact h e rfl
  · trivial
  · trivial

theorem errorReal_andThen {r : Run} {k : State → Run} (hr : r.errorReal) (hk : ∀ u, (k u).errorReal) :
    (r.andThen k).errorReal := by
  cases r with
  | done u => exact hk u
  | raised e u => exact hr
  | stopped f => trivial

theorem errorReal_clearOut {r : Run} (h : r.errorReal) : r.clearOutOnError.errorReal := by
  cases r <;> exact h

theorem inputBytes_err {s : State} {e : Err} (h : inputBytes s = .error (.err e)) : e = .outOfRange := by
  rcases inputBytes_error h with ⟨h, -⟩ | ⟨a, -, h, -⟩ <;> cases h; rfl

theorem encodeSymbol_err {b : Byte} {s : State} {e : Err} (h : encodeSymbol b s = .error (.err e)) :
    e ≠ .none := by
  rcases encodeSymbol_error.mp h with ⟨h, -⟩ | ⟨c, -, h, -⟩ <;> cases h <;> simp

theorem decodeOne_err {s : State} {e : Err} (h : decodeOne s = .error (.err e)) : e ≠ .none := by
  rcases decodeOne_error.mp h with ⟨h, -⟩ | ⟨h, -⟩ <;> cases h <;> simp

theorem readHeader_err {s : State} {e : Err} (h : readHeader s = .error (.err e)) : e ≠ .none := by
  rcases readHeader_error.mp h with ⟨h, -⟩ | ⟨-, h⟩
  · cases h; simp
  · rcases parseHeader_error h with h | ⟨a, -, h, -⟩ <;> cases h; simp

theorem loadStream_err {off : Nat} {s : State} {e : Err} (h : loadStream off s = .error (.err e)) :
    e ≠ .none := by
  rcases loadStream_error h with ⟨h, -⟩ | ⟨h, -⟩ | ⟨a, -, -, h, -⟩ <;> cases h <;> simp

theorem errorReal_encodeLoop (n a : Nat) (s : State) : (encodeLoop n a s).errorReal := by
  induction n generalizing a s with
  | zero => trivial
  | succ n ih =>
    refine errorReal_andThen (errorReal_primitive fun e h => ?_) fun u => ih _ u
    rcases encodeAt_error.mp h with ⟨h, -⟩ | ⟨b, -, h⟩
    · cases h
    · exact encodeSymbol_err h

theorem errorReal_encodeBlock (s : State) : (encodeBlock s).errorReal := by
  unfold encodeBlock; split
  · simp [Run.errorReal]
  · exact errorReal_encodeLoop _ _ _

theorem errorReal_decodeLoop (k : Nat) (s : State) : (decodeLoop k s).errorReal := by
  induction k generalizing s with
  | zero => trivial
  | succ k ih =>
    refine errorReal_andThen (errorReal_primitive fun e h => ?_) ih
    rcases decodeAppend_error.mp h with h | ⟨r, -, h, -⟩
    · exact decodeOne_err h
    · cases h; simp

theorem errorReal_buildTree (s : State) : (primitive (buildTree s) s).errorReal :=
  errorReal_primitive fun e h => by cases (buildTree_error.mp h).1; simp

theorem errorReal_outAppend (l : List Byte) (s : State) : (primitive (outAppend l s) s).errorReal :=
  errorReal_primitive fun e h => by cases (outAppend_error.mp h).1; simp

theorem errorReal_analyze (s : State) : (primitive (analyze s) s).errorReal :=
  errorReal_primitive fun e h => by rw [inputBytes_err (analyze_error.mp h)]; simp

theorem errorReal_compressSteps (s : State) : (compressSteps s).errorReal := by
  unfold compressSteps; split
  · simp [Run.errorReal]
  · refine errorReal_andThen (errorReal_analyze s) fun u => ?_
    split
    · trivial
    · refine errorReal_andThen (errorReal_buildTree u) fun u2 => ?_
      refine errorReal_andThen (by trivial) fun u3 => ?_
      refine errorReal_andThen (errorReal_encodeBlock u3) fun u4 => ?_
      refine errorReal_andThen (errorReal_outAppend _ u4) fun u5 => ?_
      exact errorReal_andThen (errorReal_outAppend _ u5) fun u6 => trivial

theorem errorReal_decompressSteps (s : State) : (decompressSteps s).errorReal := by
  unfold decompressSteps; split
  · simp [Run.errorReal]
  · split
    · trivial
    · refine errorReal_andThen (errorReal_primitive fun e h => readHeader_err h) fun u1 => ?_
      refine errorReal_andThen (errorReal_buildTree u1) fun u2 => ?_
      refine errorReal_andThen (errorReal_primitive fun e h => loadStream_err h) fun u3 => ?_
      exact errorReal_andThen (errorReal_decodeLoop _ u3) fun u4 => trivial

/-- A run that raises an error raises one of the nine codes, never 0. -/
theorem errorReal_runOf (i : Instr) (s : State) : (runOf i s).errorReal := by
  cases i with
  | nop => trivial
  | errClear => trivial
  | outClear => trivial
  | bsClear => trivial
  | bsWbit t => exact errorReal_primitive fun e h => by cases (appendBits_error.mp h).1; simp
  | bsWbits cnt =>
    exact errorReal_primitive fun e h => by
      rcases writeBits_error.mp h with ⟨h, -⟩ | ⟨h, -⟩ <;> cases h <;> simp
  | bsRbit => exact errorReal_primitive fun e h => by cases (readBit_error.mp h).1; simp
  | bsRbits cnt =>
    exact errorReal_primitive fun e h => by
      rcases readBits_error.mp h with ⟨h, -⟩ | ⟨h, -⟩ <;> cases h <;> simp
  | bsGetbuf => exact errorReal_outAppend _ s
  | bsLoad => exact errorReal_primitive fun e h => loadStream_err h
  | faAnalyze => exact errorReal_analyze s
  | faAccum =>
    exact errorReal_primitive fun e h => by
      rcases accumulate_error.mp h with h | ⟨l, -, h, -⟩
      · rw [inputBytes_err h]; simp
      · cases h; simp
  | faRead b => trivial
  | faTotal => trivial
  | htBuild => exact errorReal_buildTree s
  | htCodes => trivial
  | ctLen b => trivial
  | ctWord b w => trivial
  | encSym b => exact errorReal_primitive fun e h => encodeSymbol_err h
  | encBlock => exact errorReal_encodeBlock s
  | decSym => exact errorReal_primitive fun e h => decodeOne_err (decodeSymbol_error.mp h)
  | decBlock =>
    simp only [runOf, decodeBlock]; split
    · exact errorReal_decodeLoop _ s
    · simp [Run.errorReal]
  | hdrWrite => exact errorReal_outAppend _ s
  | hdrParse => exact errorReal_primitive fun e h => readHeader_err h
  | codecCompress => exact errorReal_clearOut (errorReal_compressSteps _)
  | codecDecompress => exact errorReal_clearOut (errorReal_decompressSteps _)

/-! ### What no command touches -/

/-- `t` has the capacities, the host's registers and buffer, and the model's own fields of `s`, and the
error of `s`; OUT of `t` extends OUT of `s`. -/
structure Kept (s t : State) : Prop where
  caps : t.caps = s.caps
  opnd : t.opnd = s.opnd
  inLen : t.inLen = s.inLen
  inBuf : t.inBuf = s.inBuf
  host : t.host = s.host
  reply : t.reply = s.reply
  epoch : t.epoch = s.epoch
  err : t.err = s.err
  outLen : s.outLen ≤ t.outLen
  outBuf : ∀ a, a < s.outLen → Mem.read t.outBuf a = Mem.read s.outBuf a

theorem Kept.refl (s : State) : Kept s s := by constructor <;> simp

theorem Kept.trans {s t u : State} (h1 : Kept s t) (h2 : Kept t u) : Kept s u where
  caps := h2.caps.trans h1.caps
  opnd := h2.opnd.trans h1.opnd
  inLen := h2.inLen.trans h1.inLen
  inBuf := h2.inBuf.trans h1.inBuf
  host := h2.host.trans h1.host
  reply := h2.reply.trans h1.reply
  epoch := h2.epoch.trans h1.epoch
  err := h2.err.trans h1.err
  outLen := Nat.le_trans h1.outLen h2.outLen
  outBuf := fun a h => (h2.outBuf a (Nat.lt_of_lt_of_le h h1.outLen)).trans (h1.outBuf a h)

/-- A state made by writing only the block's own results is kept from the state before. -/
theorem kept_of_eq {s : State} {res : Word} {bs : Bits} {bsRd : Nat} {ft : FreqTable} {tree : Root}
    {ct : CodeTable} : Kept s { s with res := res, bs := bs, bsRd := bsRd, ft := ft, tree := tree, ct := ct } := by
  constructor <;> simp

theorem kept_outAppend {l : List Byte} {s t : State} (h : outAppend l s = .ok t) : Kept s t := by
  have hr := (outAppend_read h).1
  obtain ⟨-, rfl⟩ := outAppend_ok.mp h
  constructor <;> first | rfl | exact hr | simp

theorem kept_encodeBlock {s t : State} (h : (encodeBlock s).leaves t) : Kept s t := by
  obtain ⟨l, rfl⟩ := encodeBlock_leaves h; exact kept_of_eq

theorem kept_decode {s : State} {n : Nat} {l : List Byte} :
    Kept s { s with
      bsRd := s.bsRd + n, outBuf := Mem.writeList s.outBuf s.outLen l, outLen := s.outLen + l.length } := by
  constructor <;> first | rfl | simp
  intro a ha; exact Mem.read_writeList_below _ _ ha

theorem kept_decodeLoop {k : Nat} {s t : State} (h : (decodeLoop k s).leaves t) : Kept s t := by
  obtain ⟨n, l, rfl⟩ := decodeLoop_leaves h; exact kept_decode

theorem kept_primitive {r : Except Halt State} {s t : State} (h : (primitive r s).leaves t)
    (hr : ∀ u, r = .ok u → Kept s u) : Kept s t := leaves_primitive h (Kept.refl s) hr

theorem kept_andThen {s t : State} {r : Run} {k : State → Run} (h : (r.andThen k).leaves t)
    (hr : ∀ u, r.leaves u → Kept s u) (hk : ∀ u v, (k u).leaves v → Kept u v) : Kept s t :=
  leaves_andThen (P := Kept s) h hr fun u hu hv => hu.trans (hk u t hv)

theorem kept_compressSteps {s t : State} (h : (compressSteps s).leaves t) : Kept s t := by
  unfold compressSteps at h
  split at h
  · rw [h]; exact Kept.refl s
  refine kept_andThen h (fun u hu => kept_primitive hu fun v hv => ?_) fun u v hv => ?_
  · obtain ⟨l, -, rfl⟩ := analyze_ok.mp hv; exact kept_of_eq
  split at hv
  · rw [hv]; exact kept_of_eq
  refine kept_andThen hv (fun u hu => kept_primitive hu fun v hv => ?_) fun u v hv => ?_
  · obtain ⟨-, rfl⟩ := buildTree_ok.mp hv; exact kept_of_eq
  refine kept_andThen hv (fun w hw => by rw [hw]; exact kept_of_eq) fun u v hv => ?_
  refine kept_andThen hv (fun w hw => kept_encodeBlock hw) fun u v hv => ?_
  refine kept_andThen hv (fun w hw => kept_primitive hw fun v hv => kept_outAppend hv) fun u v hv => ?_
  refine kept_andThen hv (fun w hw => kept_primitive hw fun v hv => kept_outAppend hv) fun u v hv => ?_
  rw [hv]; exact kept_of_eq

theorem kept_loadStream {off : Nat} {s t : State} (h : loadStream off s = .ok t) : Kept s t := by
  obtain ⟨-, -, -, l, -, rfl⟩ := loadStream_ok.mp h; exact kept_of_eq

theorem kept_readHeader {s t : State} (h : readHeader s = .ok t) : Kept s t := by
  obtain ⟨-, T, n, -, rfl⟩ := readHeader_ok.mp h; exact kept_of_eq

theorem kept_decompressSteps {s t : State} (h : (decompressSteps s).leaves t) : Kept s t := by
  unfold decompressSteps at h
  split at h
  · rw [h]; exact Kept.refl s
  split at h
  · rw [h]; exact kept_of_eq
  refine kept_andThen h (fun u hu => kept_primitive hu fun v hv => kept_readHeader hv) fun u v hv => ?_
  refine kept_andThen hv (fun w hw => kept_primitive hw fun v hv => ?_) fun u v hv => ?_
  · obtain ⟨-, rfl⟩ := buildTree_ok.mp hv; exact kept_of_eq
  refine kept_andThen hv (fun w hw => kept_primitive hw fun v hv => kept_loadStream hv) fun u v hv => ?_
  refine kept_andThen hv (fun w hw => kept_decodeLoop hw) fun u v hv => ?_
  rw [hv]; exact kept_of_eq

/-- What every run but those of ERR_CLEAR, OUT_CLEAR and the composites leaves. -/
theorem kept_runOf {i : Instr} {s t : State} (h : (runOf i s).leaves t) (h1 : i ≠ .errClear)
    (h2 : i ≠ .outClear) (h3 : isComposite i = false) : Kept s t := by
  cases i with
  | nop => rw [h]; exact Kept.refl s
  | errClear => exact absurd rfl h1
  | outClear => exact absurd rfl h2
  | bsClear => rw [h]; exact kept_of_eq
  | bsWbit b => exact kept_primitive h fun u hu => by rw [(appendBits_ok.mp hu).2]; exact kept_of_eq
  | bsWbits cnt => exact kept_primitive h fun u hu => by rw [(writeBits_ok.mp hu).2.2]; exact kept_of_eq
  | bsRbit =>
    exact kept_primitive h fun u hu => by
      obtain ⟨b, -, rfl⟩ := readBit_ok.mp hu; exact kept_of_eq
  | bsRbits cnt => exact kept_primitive h fun u hu => by rw [(readBits_ok.mp hu).2.2]; exact kept_of_eq
  | bsGetbuf => exact kept_primitive h fun u hu => kept_outAppend hu
  | bsLoad => exact kept_primitive h fun u hu => kept_loadStream hu
  | faAnalyze =>
    exact kept_primitive h fun u hu => by
      obtain ⟨l, -, rfl⟩ := analyze_ok.mp hu; exact kept_of_eq
  | faAccum =>
    exact kept_primitive h fun u hu => by
      obtain ⟨l, -, -, rfl⟩ := accumulate_ok.mp hu; exact kept_of_eq
  | faRead b => rw [h]; exact kept_of_eq
  | faTotal => rw [h]; exact kept_of_eq
  | htBuild => exact kept_primitive h fun u hu => by rw [(buildTree_ok.mp hu).2]; exact kept_of_eq
  | htCodes => rw [h]; exact kept_of_eq
  | ctLen b => rw [h]; exact kept_of_eq
  | ctWord b w => rw [h]; exact kept_of_eq
  | encSym b =>
    exact kept_primitive h fun u hu => by
      obtain ⟨c, -, -, rfl⟩ := encodeSymbol_ok.mp hu; exact kept_of_eq
  | encBlock => exact kept_encodeBlock h
  | decSym =>
    exact kept_primitive h fun u hu => by
      obtain ⟨b, n, -, rfl⟩ := decodeSymbol_ok.mp hu; exact kept_of_eq
  | decBlock => obtain ⟨n, l, rfl⟩ := decodeBlock_leaves h; exact kept_decode
  | hdrWrite => exact kept_primitive h fun u hu => kept_outAppend hu
  | hdrParse => exact kept_primitive h fun u hu => kept_readHeader hu
  | codecCompress => cases h3
  | codecDecompress => cases h3

end Sys2Proof.Machine
end

