-- ==== Sys2Proof/Laws/Coding.lean ====
section
/-! SUPPORT. The encoding and decoding loops on whole byte lists. -/

namespace Sys2Proof.Machine

/-! ### Paths that decode -/

/-- Bits that lead from a root to a leaf decode to its byte, whatever follows them (44_encdec.md R172). -/
theorem traverseRoot_of_reads {r : Root} {p : Bits} {b : Byte} (h : r.reads p b) (rest : Bits) :
    traverseRoot r (p ++ rest) = some (b, p.length) := by
  cases r with
  | none => exact h.elim
  | wrap f c g =>
    obtain ⟨h1, rfl⟩ := h
    match p, h1 with
    | [x], _ => rfl
  | full f l r => obtain ⟨g, hg⟩ := h; exact traverse_of_follow hg rest

/-- What a traversal consumed leads from the root to the byte it gave. -/
theorem reads_of_traverseRoot {r : Root} {bits : Bits} {b : Byte} {n : Nat}
    (h : traverseRoot r bits = some (b, n)) : r.reads (bits.take n) b := by
  cases r with
  | none => simp [traverseRoot] at h
  | wrap f c g =>
    cases bits with
    | nil => simp [traverseRoot] at h
    | cons x bits =>
      simp only [traverseRoot, Option.some.injEq, Prod.mk.injEq] at h
      obtain ⟨rfl, rfl⟩ := h
      simp [Root.reads]
  | full f l r => exact (follow_of_traverse h).2

/-- No prefix of the bits decodes exactly when the traversal runs out of bits. -/
theorem traverseRoot_none_of_reads {r : Root} {bits : Bits}
    (h : ∀ p b, r.reads p b → ¬ p <+: bits) : traverseRoot r bits = Option.none := by
  cases ht : traverseRoot r bits with
  | none => rfl
  | some x => exact absurd (List.take_prefix _ _) (h _ _ (reads_of_traverseRoot ht))

/-- The path that a code spells decodes. -/
theorem reads_of_leadsTo {r : Root} {p : Bits} {b : Byte} (h : r.leadsTo p b) : r.reads p b := by
  cases r with
  | none => exact h.elim
  | wrap f c g => exact ⟨by rw [h.1]; rfl, h.2⟩
  | full f l r => exact h

/-- The codes of a byte list decode to it, when every byte has a code. -/
theorem spells_encodeAll {r : Root} (hn : r.symbols.Nodup) (l : List Byte)
    (h : ∀ b ∈ l, (lookup (codesOf r) b).isSome) : r.spells (encodeAll (codesOf r) l) l := by
  refine ⟨l.map fun b => (lookup (codesOf r) b).getD [], by simp [encodeAll, List.flatMap_def], ?_⟩
  rw [List.forall₂_map_left_iff]
  refine List.forall₂_same.mpr fun b hb => ?_
  obtain ⟨c, hc⟩ := Option.isSome_iff_exists.mp (h b hb)
  rw [hc]
  exact reads_of_leadsTo ((lookup_codesOf hn).mp hc)

@[simp] theorem encodeAll_nil (c : CodeTable) : encodeAll c [] = [] := rfl

theorem encodeAll_cons {c : CodeTable} {b : Byte} {p : Bits} (h : lookup c b = some p) (l : List Byte) :
    encodeAll c (b :: l) = p ++ encodeAll c l := by simp [encodeAll, h]

/-! ### Buffers -/

theorem holds_append {m : Mem} {a : Nat} {x y : List Byte} :
    holds m a (x ++ y) ↔ holds m a x ∧ holds m (a + x.length) y := by
  constructor
  · intro h
    constructor
    · intro k hk; have := h k (by simp; omega); rw [this, List.getElem_append_left hk]
    · intro k hk
      have := h (x.length + k) (by simp; omega)
      rw [Nat.add_assoc, this, List.getElem_append_right (by omega)]; simp
  · rintro ⟨h1, h2⟩ k hk
    by_cases hx : k < x.length
    · rw [List.getElem_append_left hx]; exact h1 k hx
    · rw [List.getElem_append_right (by omega)]
      have := h2 (k - x.length) (by simp at hk; omega)
      rw [← this]; congr 1; omega

theorem holds_cons {m : Mem} {a : Nat} {x : Byte} {l : List Byte} :
    holds m a (x :: l) ↔ Mem.read m a = some x ∧ holds m (a + 1) l := by
  have := holds_append (m := m) (a := a) (x := [x]) (y := l)
  simpa [holds] using this

/-- A buffer holds the byte list written to it. -/
theorem holds_writeList (m : Mem) (a : Nat) (l : List Byte) : holds (Mem.writeList m a l) a l := by
  intro k hk
  rw [Mem.read_writeList, dif_pos ⟨by omega, by omega⟩]; simp

/-! ### The loops -/

/-- ENC_BLOCK's loop over bytes that all have a code, and whose codes fit (44_encdec.md R171). -/
theorem encodeLoop_append (l : List Byte) : ∀ (n a : Nat) (s : State), holds s.inBuf a l →
    l.length ≤ n → (∀ b ∈ l, (lookup s.ct b).isSome) →
    s.bs.length + (encodeAll s.ct l).length ≤ s.caps.bsCapBits →
    encodeLoop n a s =
      encodeLoop (n - l.length) (a + l.length) { s with bs := s.bs ++ encodeAll s.ct l } := by
  induction l with
  | nil => intro n a s _ _ _ _; simp
  | cons b l ih =>
    intro n a s hh hn hs hc
    obtain ⟨h0, hl⟩ := holds_cons.mp hh
    obtain ⟨c, hb⟩ := Option.isSome_iff_exists.mp (hs b (by simp))
    obtain ⟨k, rfl⟩ : ∃ k, n = k + 1 := ⟨n - 1, by simp at hn; omega⟩
    rw [encodeAll_cons hb, List.length_append] at hc
    have h1 : encodeAt a s = .ok { s with bs := s.bs ++ c } :=
      encodeAt_ok.mpr ⟨b, h0, encodeSymbol_ok.mpr ⟨c, hb, by simp only [State.bsWr]; omega, rfl⟩⟩
    rw [encodeLoop, h1, primitive_ok, done_andThen,
      ih k (a + 1) { s with bs := s.bs ++ c } hl (by simpa using hn) (fun d hd => hs d (by simp [hd]))
        (by simp only [List.length_append]; omega)]
    simp only [List.length_cons, encodeAll_cons hb, List.append_assoc]
    congr 1 <;> omega

/-- When ENC_BLOCK's loop ends without an error, every byte had a code and all codes were appended. -/
theorem encodeLoop_done : ∀ (l : List Byte) (a : Nat) (s t : State), holds s.inBuf a l →
    encodeLoop l.length a s = .done t →
    (∀ b ∈ l, (lookup s.ct b).isSome) ∧ t = { s with bs := s.bs ++ encodeAll s.ct l } := by
  intro l
  induction l with
  | nil => intro a s t _ h; cases h; simp
  | cons b l ih =>
    intro a s t hh h
    obtain ⟨h0, hl⟩ := holds_cons.mp hh
    rw [List.length_cons, encodeLoop] at h
    obtain ⟨u, h1, h2⟩ := andThen_eq_done.mp h
    obtain ⟨b', hb', hs⟩ := encodeAt_ok.mp (primitive_eq_done.mp h1)
    cases hb'.symm.trans h0
    obtain ⟨c, hc, -, rfl⟩ := encodeSymbol_ok.mp hs
    obtain ⟨a1, a2⟩ := ih (a + 1) { s with bs := s.bs ++ c } t hl h2
    refine ⟨?_, by rw [a2, encodeAll_cons hc]; simp⟩
    intro d hd
    rcases List.mem_cons.mp hd with rfl | hd
    · simp [hc]
    · exact a1 d hd

/-- Where ENC_BLOCK's loop raises an error (60_exceptions.md R233): the codes of the bytes in front were
appended, and the next byte has no code or one that does not fit. -/
theorem encodeLoop_stops : ∀ (n a : Nat) (s t : State) (e : Err), encodeLoop n a s = .raised e t →
    ∃ (l : List Byte) (b : Byte), l.length < n ∧ holds s.inBuf a (l ++ [b]) ∧
      (∀ c ∈ l, (lookup s.ct c).isSome) ∧ t = { s with bs := s.bs ++ encodeAll s.ct l } ∧
      (l = [] ∨ t.bs.length ≤ s.caps.bsCapBits) ∧
      (lookup s.ct b = Option.none ∧ e = .codeTableMiss ∨
        ∃ p, lookup s.ct b = some p ∧ s.caps.bsCapBits < t.bs.length + p.length ∧
          e = .capacityExceeded) := by
  intro n
  induction n with
  | zero => intro a s t e h; cases h
  | succ n ih =>
    intro a s t e h
    rw [encodeLoop] at h
    rcases andThen_eq_raised.mp h with h | ⟨u, h1, h2⟩
    · obtain ⟨h, rfl⟩ := primitive_eq_raised.mp h
      rcases encodeAt_error.mp h with ⟨h, -⟩ | ⟨b, hb, h⟩
      · cases h
      · refine ⟨[], b, by simp, by rw [List.nil_append, holds_cons]; exact ⟨hb, fun _ h => absurd h (by simp)⟩, by simp,
          by simp, .inl rfl, ?_⟩
        rcases encodeSymbol_error.mp h with ⟨h, hm⟩ | ⟨p, hp, h, hc⟩
        · cases h; exact .inl ⟨hm, rfl⟩
        · cases h; exact .inr ⟨p, hp, hc, rfl⟩
    · obtain ⟨b, hb, hs⟩ := encodeAt_ok.mp (primitive_eq_done.mp h1)
      obtain ⟨c, hc, hf, rfl⟩ := encodeSymbol_ok.mp hs
      obtain ⟨l, d, b1, b2, b3, b4, b5, b6⟩ := ih _ _ _ _ h2
      have ht : t = { s with bs := s.bs ++ encodeAll s.ct (b :: l) } := by
        rw [b4, encodeAll_cons hc]; simp
      refine ⟨b :: l, d, by simpa using b1, holds_cons.mpr ⟨hb, b2⟩, ?_, ht, .inr ?_, b6⟩
      · intro x hx
        rcases List.mem_cons.mp hx with rfl | hx
        · simp [hc]
        · exact b3 x hx
      · rcases b5 with rfl | b5
        · rw [b4]; simpa [State.bsWr] using hf
        · exact b5

/-- ENC_BLOCK's loop over bytes that all have a code, but whose codes do not all fit: it appends the
codes of the longest part in front that fits. -/
theorem encodeLoop_full (l : List Byte) : ∀ (a : Nat) (s : State), holds s.inBuf a l →
    (∀ b ∈ l, (lookup s.ct b).isSome) → s.bs.length ≤ s.caps.bsCapBits →
    s.caps.bsCapBits < s.bs.length + (encodeAll s.ct l).length →
    ∃ front b rest, l = front ++ b :: rest ∧
      s.bs.length + (encodeAll s.ct front).length ≤ s.caps.bsCapBits ∧
      s.caps.bsCapBits < s.bs.length + (encodeAll s.ct (front ++ [b])).length ∧
      encodeLoop l.length a s =
        .raised .capacityExceeded { s with bs := s.bs ++ encodeAll s.ct front } := by
  induction l with
  | nil => intro a s _ _ h hc; simp at hc; omega
  | cons b l ih =>
    intro a s hh hs h0 hc
    obtain ⟨hb, hl⟩ := holds_cons.mp hh
    obtain ⟨c, hcb⟩ := Option.isSome_iff_exists.mp (hs b (by simp))
    rw [encodeAll_cons hcb, List.length_append] at hc
    rw [List.length_cons, encodeLoop]
    by_cases hf : s.bs.length + c.length ≤ s.caps.bsCapBits
    · have h1 : encodeAt a s = .ok { s with bs := s.bs ++ c } :=
        encodeAt_ok.mpr ⟨b, hb, encodeSymbol_ok.mpr ⟨c, hcb, hf, rfl⟩⟩
      rw [h1, primitive_ok, done_andThen]
      obtain ⟨front, d, rest, rfl, x1, x2, x3⟩ := ih (a + 1) { s with bs := s.bs ++ c } hl
        (fun d hd => hs d (by simp [hd])) (by simpa using hf)
        (by simp only [List.length_append]; omega)
      simp only [List.length_append] at x1 x2
      refine ⟨b :: front, d, rest, rfl, ?_, ?_, by rw [x3, encodeAll_cons hcb]; simp⟩
      · rw [encodeAll_cons hcb, List.length_append]; omega
      · rw [List.cons_append, encodeAll_cons hcb, List.length_append]; omega
    · have h1 : encodeAt a s = .error (.err .capacityExceeded) :=
        encodeAt_error.mpr (.inr ⟨b, hb, encodeSymbol_error.mpr
          (.inr ⟨c, hcb, rfl, by simp only [State.bsWr]; omega⟩)⟩)
      rw [h1]
      refine ⟨[], b, l, rfl, by simpa using h0, ?_, by simp⟩
      rw [List.nil_append, encodeAll_cons hcb, List.length_append]; omega

/-- The decoding loop over bits that spell symbols that fit in OUT (44_encdec.md R174). -/
theorem decodeLoop_append : ∀ (ps : List Bits) (out : List Byte) (k : Nat) (s : State),
    List.Forall₂ s.tree.reads ps out → ps.flatten <+: s.bs.drop s.bsRd → out.length ≤ k →
    s.outLen + out.length ≤ s.caps.outCap →
    decodeLoop k s = decodeLoop (k - out.length) { s with
      bsRd := s.bsRd + ps.flatten.length
      outLen := s.outLen + out.length
      outBuf := Mem.writeList s.outBuf s.outLen out } := by
  intro ps
  induction ps with
  | nil => intro out k s h _ _ _; cases h; simp [Mem.writeList]
  | cons p ps ih =>
    intro out k s h hpre hk hcap
    cases h with
    | @cons _ b _ out hp hps =>
      obtain ⟨n, rfl⟩ : ∃ n, k = n + 1 := ⟨k - 1, by simp at hk; omega⟩
      obtain ⟨rest, hr⟩ := hpre
      rw [List.flatten_cons, List.append_assoc] at hr
      simp only [List.length_cons] at hcap hk
      have h0 : decodeAppend s = .ok { s with
          bsRd := s.bsRd + p.length
          outBuf := Mem.write s.outBuf s.outLen b
          outLen := s.outLen + 1 } :=
        decodeAppend_ok.mpr
          ⟨b, p.length, by rw [State.unread, ← hr]; exact traverseRoot_of_reads hp _, by omega, rfl⟩
      rw [decodeLoop, h0, primitive_ok, done_andThen,
        ih out n { s with
          bsRd := s.bsRd + p.length
          outBuf := Mem.write s.outBuf s.outLen b
          outLen := s.outLen + 1 } hps
          ⟨rest, by simp only; rw [← List.drop_drop, ← hr, List.drop_left]⟩ (by omega)
          (by simp only; omega)]
      simp only [List.length_cons, List.flatten_cons, List.length_append, Mem.writeList]
      congr 1
      · omega
      · congr 1 <;> omega

/-- Where the decoding loop raises an error (60_exceptions.md R233): the symbols in front were appended and
their bits consumed, and the next symbol is cut off by the end of the stream or does not fit in OUT. -/
theorem decodeLoop_stops : ∀ (k : Nat) (s t : State) (e : Err), s.tree ≠ .none →
    decodeLoop k s = .raised e t →
    ∃ (bits : Bits) (out : List Byte), s.tree.spells bits out ∧ bits <+: s.bs.drop s.bsRd ∧
      out.length < k ∧
      t = { s with
        bsRd := s.bsRd + bits.length
        outLen := s.outLen + out.length
        outBuf := Mem.writeList s.outBuf s.outLen out } ∧
      (e = .corruptPayload ∧ (∀ p b, s.tree.reads p b → ¬ p <+: t.bs.drop t.bsRd) ∨
        e = .capacityExceeded ∧ s.caps.outCap ≤ t.outLen ∧
          ∃ p b, s.tree.reads p b ∧ p <+: t.bs.drop t.bsRd) := by
  intro k
  induction k with
  | zero => intro s t e _ h; cases h
  | succ k ih =>
    intro s t e hne h
    rw [decodeLoop] at h
    rcases andThen_eq_raised.mp h with h | ⟨u, h1, h2⟩
    · obtain ⟨h, rfl⟩ := primitive_eq_raised.mp h
      refine ⟨[], [], ⟨[], rfl, .nil⟩, List.nil_prefix, by simp, by simp [Mem.writeList], ?_⟩
      rcases decodeAppend_error.mp h with h | ⟨r, hr, h, hc⟩
      · rcases decodeOne_error.mp h with ⟨-, h⟩ | ⟨h, -, hn⟩
        · exact absurd h hne
        · cases h
          refine .inl ⟨rfl, ?_⟩
          rintro p b hp ⟨x, hx⟩
          rw [State.unread, ← hx, traverseRoot_of_reads hp] at hn
          cases hn
      · cases h
        exact .inr ⟨rfl, by omega, _, r.1, reads_of_traverseRoot hr, List.take_prefix _ _⟩
    · obtain ⟨b, n, hb, hc, rfl⟩ := decodeAppend_ok.mp (primitive_eq_done.mp h1)
      obtain ⟨bits, out, ⟨ps, rfl, hps⟩, b2, b3, b4, b5⟩ := ih { s with
        bsRd := s.bsRd + n
        outBuf := Mem.write s.outBuf s.outLen b
        outLen := s.outLen + 1 } t e hne h2
      have hn : (s.unread.take n).length = n := by
        rw [List.length_take]; have := (traverseRoot_length hb).1; omega
      refine ⟨(s.unread.take n :: ps).flatten, b :: out, ⟨_, rfl, .cons (reads_of_traverseRoot hb) hps⟩,
        ?_, by simpa using b3, ?_, b5⟩
      · rw [List.flatten_cons]
        conv_rhs => rw [← List.take_append_drop n (s.bs.drop s.bsRd), List.drop_drop]
        exact (List.prefix_append_right_inj _).mpr b2
      · rw [b4]
        simp only [List.flatten_cons, List.length_append, hn, List.length_cons, Mem.writeList]
        congr 1 <;> omega

/-- Bits that end inside a code do not decode. -/
theorem traverseRoot_none_of_cut {r : Root} {c bits : Bits} {b : Byte} (h : r.leadsTo c b)
    (hp : bits <+: c) (hl : bits.length < c.length) : traverseRoot r bits = Option.none := by
  refine traverseRoot_none_of_reads fun p d hpd hpre => ?_
  obtain ⟨x, rfl⟩ := hpre.trans hp
  have h1 := traverseRoot_of_reads hpd x
  have h2 := traverseRoot_of_leadsTo h []
  rw [List.append_nil, h1] at h2
  have := hpre.length_le
  simp only [Option.some.injEq, Prod.mk.injEq] at h2
  omega

/-- The decoding loop over the codes of a byte list, cut off before their end: it stops with
CORRUPT_PAYLOAD and has only consumed bits and appended to OUT (45_codec.md R199 b). -/
theorem decodeLoop_cut (l : List Byte) : ∀ (s : State), s.tree.symbols.Nodup →
    (∀ b ∈ l, (lookup (codesOf s.tree) b).isSome) → s.unread <+: encodeAll (codesOf s.tree) l →
    s.unread.length < (encodeAll (codesOf s.tree) l).length → s.outLen + l.length ≤ s.caps.outCap →
    ∃ t, decodeLoop l.length s = .raised .corruptPayload t ∧ (decodeLoop l.length s).leaves t := by
  induction l with
  | nil => intro s _ _ _ h _; simp at h
  | cons b l ih =>
    intro s hn hs hpre hlt hcap
    obtain ⟨c, hc⟩ := Option.isSome_iff_exists.mp (hs b (by simp))
    have hlead := (lookup_codesOf hn).mp hc
    rw [encodeAll_cons hc] at hpre hlt
    rw [List.length_cons, decodeLoop]
    simp only [List.length_cons] at hcap
    by_cases hf : c.length ≤ s.unread.length
    · obtain ⟨rest, hr⟩ : c <+: s.unread :=
        List.prefix_of_prefix_length_le (List.prefix_append _ _) hpre hf
      have h1 : decodeAppend s = .ok { s with
          bsRd := s.bsRd + c.length
          outBuf := Mem.write s.outBuf s.outLen b
          outLen := s.outLen + 1 } :=
        decodeAppend_ok.mpr
          ⟨b, c.length, by rw [← hr]; exact traverseRoot_of_leadsTo hlead _, by omega, rfl⟩
      have hu : s.bs.drop (s.bsRd + c.length) = rest := by
        rw [← List.drop_drop, ← State.unread, ← hr, List.drop_left]
      rw [← hr] at hpre hlt
      rw [h1, primitive_ok, done_andThen]
      refine ih { s with
        bsRd := s.bsRd + c.length
        outBuf := Mem.write s.outBuf s.outLen b
        outLen := s.outLen + 1 } hn (fun d hd => hs d (by simp [hd])) ?_ ?_ (by simp only; omega)
      · simp only [State.unread, hu]; exact (List.prefix_append_right_inj c).mp hpre
      · simp only [State.unread, hu]; simp only [List.length_append] at hlt; omega
    · have hcut : s.unread <+: c :=
        List.prefix_of_prefix_length_le hpre (List.prefix_append _ _) (by omega)
      have hne : s.tree ≠ .none := fun h => by rw [h] at hlead; exact hlead
      have h1 : decodeAppend s = .error (.err .corruptPayload) :=
        decodeAppend_error.mpr (.inl (decodeOne_error.mpr
          (.inr ⟨rfl, hne, traverseRoot_none_of_cut hlead hcut (by omega)⟩)))
      rw [h1]; exact ⟨s, rfl, rfl⟩

end Sys2Proof.Machine
end

