-- ==== Sys2Proof/Laws/Container.lean ====
section
/-! SUPPORT. The header of a container: its bytes, its length, and what parsing it gives
(45_codec.md R190 to R194). -/

namespace Sys2Proof.Machine

theorem getElem?_leBytes {v n m : Nat} (h : m < n) :
    (leBytes v n)[m]? = some (BitVec.ofNat 8 (v / 2 ^ (8 * m))) := by
  induction n generalizing v m with
  | zero => omega
  | succ n ih =>
    cases m with
    | zero => simp [leBytes]
    | succ m =>
      rw [leBytes, List.getElem?_cons_succ, ih (by omega), Nat.div_div_eq_div_mul, ← Nat.pow_add,
        show 8 * (m + 1) = 8 + 8 * m by omega]

/-- Records of nine bytes one after the other. -/
theorem length_flatMap_nine {α : Type} {f : α → List Byte} (hf : ∀ x, (f x).length = 9) (l : List α) :
    (l.flatMap f).length = 9 * l.length := by
  induction l with
  | nil => rfl
  | cons x l ih => simp [hf, ih]; omega

theorem getElem?_flatMap_nine {α : Type} {f : α → List Byte} (hf : ∀ x, (f x).length = 9) (l : List α)
    {j m : Nat} (hj : j < l.length) (hm : m < 9) : (l.flatMap f)[9 * j + m]? = (f l[j])[m]? := by
  induction l generalizing j with
  | nil => simp at hj
  | cons x l ih =>
    rw [List.flatMap_cons]
    cases j with
    | zero => rw [List.getElem?_append_left (by rw [hf]; omega)]; simp
    | succ j =>
      rw [List.getElem?_append_right (by rw [hf]; omega), hf,
        show 9 * (j + 1) + m - 9 = 9 * j + m by omega, ih (by simpa using hj)]
      simp

theorem length_headerEntry (t : FreqTable) (b : Byte) : (headerEntry t b).length = 9 := by
  simp [headerEntry]

/-- `hdr(FT)` takes 4 + 9k bytes (45_codec.md R190). -/
theorem length_header (t : FreqTable) : (header t).length = 4 + 9 * (keys t).length := by
  rw [header, List.length_append, length_leBytes, length_flatMap_nine (length_headerEntry t)]

/-- The bytes of one header entry. -/
def entry (e : Byte × Word) : List Byte := e.1 :: leBytes e.2.toNat 8

@[simp] theorem length_entry (e : Byte × Word) : (entry e).length = 9 := by simp [entry]

theorem entryBytes_eq (l : List (Byte × Word)) :
    entryBytes l = leBytes l.length 4 ++ l.flatMap entry := rfl

theorem length_entryBytes (l : List (Byte × Word)) : (entryBytes l).length = 4 + 9 * l.length := by
  rw [entryBytes_eq, List.length_append, length_leBytes, length_flatMap_nine length_entry]

/-- The header of a table is the header of its keys' entries. -/
theorem header_eq_entryBytes (t : FreqTable) :
    header t = entryBytes ((keys t).map fun b => (b, lookup t b)) := by
  simp [header, entryBytes, List.flatMap_map]; rfl

/-! ### Tables of entries -/

/-- A table with entries added one after the other. -/
def addEntries (t : FreqTable) (l : List (Byte × Word)) : FreqTable :=
  l.foldl (fun t e => update t e.1 e.2) t

theorem lookup_addEntries (l : List (Byte × Word)) (t : FreqTable) (hn : (l.map Prod.fst).Nodup) :
    (∀ e ∈ l, lookup (addEntries t l) e.1 = e.2) ∧
    ∀ b, b ∉ l.map Prod.fst → lookup (addEntries t l) b = lookup t b := by
  induction l generalizing t with
  | nil => simp [addEntries]
  | cons e l ih =>
    simp only [List.map_cons, List.nodup_cons] at hn
    obtain ⟨h1, h2⟩ := ih (update t e.1 e.2) hn.2
    have ea : addEntries t (e :: l) = addEntries (update t e.1 e.2) l := rfl
    rw [ea]
    constructor
    · intro d hd
      rcases List.mem_cons.mp hd with rfl | hd
      · rw [h2 _ hn.1]; simp
      · exact h1 d hd
    · intro b hb
      simp only [List.map_cons, List.mem_cons, not_or] at hb
      rw [h2 b hb.2, lookup_update_other _ _ hb.1]

theorem lookup_tableOf (l : List (Byte × Word)) (hn : (l.map Prod.fst).Nodup) :
    (∀ e ∈ l, lookup (tableOf l) e.1 = e.2) ∧
    ∀ b, b ∉ l.map Prod.fst → lookup (tableOf l) b = 0#64 := by
  induction l with
  | nil => simp [tableOf]
  | cons e l ih =>
    simp only [List.map_cons, List.nodup_cons] at hn
    obtain ⟨h1, h2⟩ := ih hn.2
    have ea : tableOf (e :: l) = update (tableOf l) e.1 e.2 := rfl
    rw [ea]
    constructor
    · intro d hd
      rcases List.mem_cons.mp hd with rfl | hd
      · simp
      · have hne : d.1 ≠ e.1 := fun h => hn.1 (h ▸ List.mem_map_of_mem hd)
        rw [lookup_update_other _ _ hne]; exact h1 d hd
    · intro b hb
      simp only [List.map_cons, List.mem_cons, not_or] at hb
      rw [lookup_update_other _ _ hb.1, h2 b hb.2]

theorem addEntries_empty {l : List (Byte × Word)} (hn : (l.map Prod.fst).Nodup) :
    addEntries emptyFreq l = tableOf l := by
  obtain ⟨a1, a2⟩ := lookup_addEntries l emptyFreq hn
  obtain ⟨b1, b2⟩ := lookup_tableOf l hn
  refine table_ext fun b => ?_
  by_cases h : b ∈ l.map Prod.fst
  · obtain ⟨e, he, rfl⟩ := List.mem_map.mp h
    rw [a1 e he, b1 e he]
  · rw [a2 b h, b2 b h, lookup_emptyFreq]

/-- The frequency sum of a table of entries. -/
theorem freqSum_tableOf {l : List (Byte × Word)} (hn : (l.map Prod.fst).Nodup) :
    freqSum (tableOf l) = (l.map fun e => e.2.toNat).sum := by
  induction l with
  | nil => simp [tableOf]
  | cons e l ih =>
    simp only [List.map_cons, List.nodup_cons] at hn
    have hz : lookup (tableOf l) e.1 = 0#64 := (lookup_tableOf l hn.2).2 _ hn.1
    have ea : tableOf (e :: l) = update (tableOf l) e.1 e.2 := rfl
    rw [ea, freqSum_update_zero hz, ih hn.2, List.map_cons, List.sum_cons]; omega

/-- The bytes with an entry are the keys of the table of entries that are not 0. -/
theorem mem_keys_tableOf {l : List (Byte × Word)} (hg : goodEntries l) {b : Byte} :
    b ∈ keys (tableOf l) ↔ b ∈ l.map Prod.fst := by
  obtain ⟨h1, h2⟩ := lookup_tableOf l hg.1
  rw [mem_keys]
  constructor
  · intro h; by_contra hn; exact h (h2 b hn)
  · intro h
    obtain ⟨e, he, rfl⟩ := List.mem_map.mp h
    rw [h1 e he]; exact hg.2.1 e he

theorem goodEntries_keys {t : FreqTable} (h : freqSum t ≤ 2 ^ 64 - 1) :
    goodEntries ((keys t).map fun b => (b, lookup t b)) := by
  refine ⟨by simpa [Function.comp_def] using keys_nodup t, ?_, ?_⟩
  · intro e he
    obtain ⟨b, hb, rfl⟩ := List.mem_map.mp he
    exact mem_keys.mp hb
  · simp only [List.map_map, Function.comp_def]; rw [sum_keys]; exact h

theorem tableOf_keys (t : FreqTable) : tableOf ((keys t).map fun b => (b, lookup t b)) = t := by
  obtain ⟨b1, b2⟩ := lookup_tableOf ((keys t).map fun b => (b, lookup t b))
    (by simpa [Function.comp_def] using keys_nodup t)
  refine table_ext fun b => ?_
  by_cases h : b ∈ keys t
  · exact b1 (b, lookup t b) (List.mem_map_of_mem h)
  · rw [b2 b (by simpa [Function.comp_def] using h)]
    by_contra hc
    exact h (mem_keys.mpr (Ne.symm hc))

theorem length_goodEntries {l : List (Byte × Word)} (h : goodEntries l) : l.length ≤ 256 := by
  have := (List.subperm_of_subset h.1 (fun b _ => mem_allBytes b)).length_le
  rwa [length_allBytes, List.length_map] at this

/-! ### Parsing (45_codec.md R193) -/

/-- Reading the symbol count. -/
theorem read_count {s : State} {k : Nat} (hk : k < 2 ^ 32) (h : holds s.inBuf 0 (leBytes k 4)) :
    inReadList s 0 4 = .ok (leBytes k 4) ∧ leNat (leBytes k 4) = k :=
  ⟨inReadList_ok.mpr ⟨by simp, h⟩, leNat_leBytes_of_lt (by simpa using hk)⟩

/-- Reading one entry. -/
theorem read_entry {s : State} {a : Nat} {e : Byte × Word} (h : holds s.inBuf a (entry e)) :
    inRead s a = .ok e.1 ∧ inReadList s (a + 1) 8 = .ok (leBytes e.2.toNat 8) ∧
    leNat (leBytes e.2.toNat 8) = e.2.toNat := by
  obtain ⟨h0, h1⟩ := holds_cons.mp h
  exact ⟨inRead_ok.mpr h0, inReadList_ok.mpr ⟨by simp, h1⟩,
    leNat_leBytes_of_lt (by have := e.2.isLt; omega)⟩

/-- The entry loop runs through entries that are accepted. -/
theorem parseEntries_append (s : State) : ∀ (l : List (Byte × Word)) (k a sum : Nat) (t : FreqTable),
    holds s.inBuf a (l.flatMap entry) → (l.map Prod.fst).Nodup → (∀ e ∈ l, e.2 ≠ 0#64) →
    (∀ e ∈ l, lookup t e.1 = 0#64) → sum + (l.map fun e => e.2.toNat).sum ≤ 2 ^ 64 - 1 →
    parseEntries s (k + l.length) a t sum =
      parseEntries s k (a + 9 * l.length) (addEntries t l) (sum + (l.map fun e => e.2.toNat).sum) := by
  intro l
  induction l with
  | nil => intro k a sum t _ _ _ _ _; simp [addEntries]
  | cons e l ih =>
    intro k a sum t hh hn hz ht hs
    rw [List.flatMap_cons] at hh
    obtain ⟨h1, h2⟩ := holds_append.mp hh
    rw [length_entry] at h2
    simp only [List.map_cons, List.nodup_cons, List.sum_cons] at hn hs ⊢
    obtain ⟨hb, hl, hv⟩ := read_entry h1
    have hne : e.2.toNat ≠ 0 := fun h => hz e (by simp) (BitVec.eq_of_toNat_eq (by simpa using h))
    rw [List.length_cons, ← Nat.add_assoc, parseEntries, hb]
    simp only [hl, hv, hne, ht e (by simp), if_false, ne_eq, not_true_eq_false,
      show ¬ (sum + e.2.toNat > 2 ^ 64 - 1) by omega]
    rw [BitVec.ofNat_toNat, BitVec.setWidth_eq, ih k (a + 9) _ _ h2 hn.2
      (fun d hd => hz d (by simp [hd])) (fun d hd => by
        have hne : d.1 ≠ e.1 := fun h => hn.1 (h ▸ List.mem_map_of_mem hd)
        rw [lookup_update_other _ _ hne]; exact ht d (by simp [hd])) (by omega),
      show a + 9 + 9 * l.length = a + 9 * (l.length + 1) by omega, Nat.add_assoc sum]
    rfl

/-- A header whose entries are good is accepted (45_codec.md R193). -/
theorem parseHeader_entryBytes {s : State} {l : List (Byte × Word)} (hg : goodEntries l)
    (hh : holds s.inBuf 0 (entryBytes l)) (hl : (entryBytes l).length ≤ s.inLenNat) :
    parseHeader s = .ok (tableOf l, 4 + 9 * l.length) := by
  rw [entryBytes_eq] at hh
  obtain ⟨h1, h2⟩ := holds_append.mp hh
  rw [length_leBytes, Nat.zero_add] at h2
  have hlen := length_goodEntries hg
  obtain ⟨c1, c2⟩ := read_count (by omega) h1
  rw [length_entryBytes] at hl
  refine parseHeader_ok.mpr ⟨_, c1, by omega, by rw [c2], hl, ?_⟩
  have := parseEntries_append s l 0 4 0 emptyFreq h2 hg.1 hg.2.1 (fun e _ => lookup_emptyFreq _)
    (by have := hg.2.2; omega)
  rw [Nat.zero_add] at this
  rw [c2, this, parseEntries, addEntries_empty hg.1]

/-- The header of a table is accepted and gives the table back (45_codec.md R194, R198). -/
theorem parseHeader_header {s : State} {t : FreqTable} (ht : freqSum t ≤ 2 ^ 64 - 1)
    (hh : holds s.inBuf 0 (header t)) (hl : (header t).length ≤ s.inLenNat) :
    parseHeader s = .ok (t, 4 + 9 * (keys t).length) := by
  rw [header_eq_entryBytes] at hh hl
  have := parseHeader_entryBytes (goodEntries_keys ht) hh hl
  rwa [tableOf_keys, List.length_map] at this

/-! ### Counts of a byte list -/

@[simp] theorem lookup_freqOf (l : List Byte) (b : Byte) :
    lookup (freqOf l) b = BitVec.ofNat 64 (l.count b) := by
  unfold lookup freqOf
  simp only [Vector.getElem_ofFn, BitVec.ofNat_toNat, BitVec.setWidth_eq]

/-- FA_ANALYZE on a byte list stores its frequency table. -/
theorem storeCounts_countBytes (l : List Byte) : storeCounts (countBytes zeroCounts l) = freqOf l :=
  table_ext fun b => by simp [lookup_countBytes]

theorem freqSum_freqOf {l : List Byte} (h : l.length ≤ 2 ^ 64 - 1) : freqSum (freqOf l) = l.length := by
  have hs : (countBytes zeroCounts l).toList.sum = l.length := by
    rw [sum_countBytes, sum_zeroCounts, Nat.zero_add]
  rw [← storeCounts_countBytes, freqSum_storeCounts (by omega), hs]

theorem mem_keys_freqOf {l : List Byte} (h : l.length ≤ 2 ^ 64 - 1) {b : Byte} :
    b ∈ keys (freqOf l) ↔ b ∈ l := by
  rw [mem_keys, lookup_freqOf, ← List.count_pos_iff]
  have : l.count b ≤ l.length := List.count_le_length
  constructor
  · intro hc; by_contra hn; exact hc (by simp [Nat.le_zero.mp (Nat.not_lt.mp hn)])
  · intro hp hc
    have := congrArg BitVec.toNat hc
    simp only [BitVec.toNat_ofNat] at this
    omega

/-- Every byte of a list has a code in the tree of its own frequencies. -/
theorem code_of_mem {l : List Byte} (h : l.length ≤ 2 ^ 64 - 1) {b : Byte} (hb : b ∈ l) :
    (lookup (codesOf (treeOf (freqOf l))) b).isSome := by
  rw [codesOf_treeOf_isSome, ← mem_keys, mem_keys_freqOf h]; exact hb

end Sys2Proof.Machine
end

