-- ==== Sys2Proof/Laws/Encoding.lean ====
section
/-! SUPPORT. The laws of the command encoding: what the mask of a format asks of a value's bits, and
that the encoder puts a value's fields back where the decoder read them. -/

namespace Sys2Proof

theorem extractLsb'_eq_zero_iff {m : Nat} (v : BitVec m) (s n : Nat) :
    v.extractLsb' s n = 0#n ↔ ∀ k, s ≤ k → k < s + n → v.getLsbD k = false := by
  constructor
  · intro h k h1 h2
    have := congrArg (fun x => x.getLsbD (k - s)) h
    simpa [show k - s < n by omega, show s + (k - s) = k by omega] using this
  · intro h
    refine BitVec.eq_of_getLsbD_eq fun k hk => ?_
    simp [hk, h (s + k) (by omega) (by omega)]

/-- The mask bits of a format above its opcode (30_encoding.md R72). -/
theorem mask_getLsbD (f : Format) (k : Nat) (h : k < 24) :
    f.mask.getLsbD (8 + k) = match f with
      | .N => true
      | .T => decide (k ≠ 8)
      | .C => decide (6 ≤ k)
      | .B => decide (k < 8 ∨ 16 ≤ k)
      | .W => decide (k < 8 ∨ 18 ≤ k) := by
  revert f
  have : ∀ k < 24, ∀ f ∈ [Format.N, .T, .C, .B, .W], f.mask.getLsbD (8 + k) = match f with
      | .N => true
      | .T => decide (k ≠ 8)
      | .C => decide (6 ≤ k)
      | .B => decide (k < 8 ∨ 16 ≤ k)
      | .W => decide (k < 8 ∨ 18 ≤ k) := by decide
  intro f
  exact this k h f (by cases f <;> simp)

theorem mask_low (f : Format) (k : Nat) (h : k < 8) : f.mask.getLsbD k = true := by
  have : ∀ k < 8, ∀ f ∈ [Format.N, .T, .C, .B, .W], f.mask.getLsbD k = true := by decide
  exact this k h f (by cases f <;> simp)

/-- The mask test of 30_encoding.md R73 asks for 0 in every masked bit above the opcode. -/
theorem mask_test_iff (f : Format) (v : Word) :
    v.extractLsb' 0 32 &&& f.mask = (v.extractLsb' 0 8).setWidth 32 ↔
      ∀ k, k < 24 → f.mask.getLsbD (8 + k) = true → v.getLsbD (8 + k) = false := by
  constructor
  · intro h k hk hm
    have := congrArg (fun x => x.getLsbD (8 + k)) h
    rw [BitVec.getLsbD_and, hm, BitVec.getLsbD_setWidth, BitVec.getLsbD_extractLsb',
      BitVec.getLsbD_extractLsb'] at this
    simpa [show 8 + k < 32 by omega] using this
  · intro h
    refine BitVec.eq_of_getLsbD_eq fun k hk => ?_
    by_cases h8 : k < 8
    · simp [h8, hk, mask_low f k h8]
    · cases hm : f.mask.getLsbD k with
      | false => simp [h8, hm]
      | true =>
        have := h (k - 8) (by omega) (by rwa [show 8 + (k - 8) = k by omega])
        rw [show 8 + (k - 8) = k by omega] at this
        simp [h8, this]

/-- The mask test, format by format, as fields that must be 0 (30_encoding.md R72). -/
theorem mask_test_fields (f : Format) (v : Word) :
    v.extractLsb' 0 32 &&& f.mask = (v.extractLsb' 0 8).setWidth 32 ↔
      match f with
      | .N => v.extractLsb' 8 24 = 0#24
      | .T => v.extractLsb' 8 8 = 0#8 ∧ v.extractLsb' 17 15 = 0#15
      | .C => v.extractLsb' 14 18 = 0#18
      | .B => v.extractLsb' 8 8 = 0#8 ∧ v.extractLsb' 24 8 = 0#8
      | .W => v.extractLsb' 8 8 = 0#8 ∧ v.extractLsb' 26 6 = 0#6 := by
  rw [mask_test_iff]
  have shift : ∀ p : Nat → Prop, (∀ k, k < 24 → p k → v.getLsbD (8 + k) = false) ↔
      ∀ k, 8 ≤ k → k < 32 → p (k - 8) → v.getLsbD k = false := by
    intro p
    constructor
    · intro h k h1 h2 hp
      have := h (k - 8) (by omega) hp
      rwa [show 8 + (k - 8) = k by omega] at this
    · intro h k h1 hp
      exact h (8 + k) (by omega) (by omega) (by rwa [show 8 + k - 8 = k by omega])
  rw [shift]
  cases f <;> simp only [extractLsb'_eq_zero_iff]
  · refine ⟨fun h k h1 h2 => h k h1 (by omega) ?_, fun h k h1 h2 _ => h k h1 (by omega)⟩
    rw [mask_getLsbD _ _ (by omega)]
  · refine ⟨fun h => ⟨fun k h1 h2 => h k (by omega) (by omega) ?_,
      fun k h1 h2 => h k (by omega) (by omega) ?_⟩, fun h k h1 h2 hm => ?_⟩
    · rw [mask_getLsbD _ _ (by omega)]; exact decide_eq_true (by omega)
    · rw [mask_getLsbD _ _ (by omega)]; exact decide_eq_true (by omega)
    · rw [mask_getLsbD _ _ (by omega)] at hm
      have := of_decide_eq_true hm
      rcases Nat.lt_or_ge k 16 with h3 | h3
      · exact h.1 k (by omega) (by omega)
      · exact h.2 k (by omega) (by omega)
  · refine ⟨fun h k h1 h2 => h k (by omega) (by omega) ?_, fun h k h1 h2 hm => ?_⟩
    · rw [mask_getLsbD _ _ (by omega)]; exact decide_eq_true (by omega)
    · rw [mask_getLsbD _ _ (by omega)] at hm
      have := of_decide_eq_true hm
      exact h k (by omega) (by omega)
  · refine ⟨fun h => ⟨fun k h1 h2 => h k (by omega) (by omega) ?_,
      fun k h1 h2 => h k (by omega) (by omega) ?_⟩, fun h k h1 h2 hm => ?_⟩
    · rw [mask_getLsbD _ _ (by omega)]; exact decide_eq_true (by omega)
    · rw [mask_getLsbD _ _ (by omega)]; exact decide_eq_true (by omega)
    · rw [mask_getLsbD _ _ (by omega)] at hm
      have := of_decide_eq_true hm
      rcases Nat.lt_or_ge k 16 with h3 | h3
      · exact h.1 k (by omega) (by omega)
      · exact h.2 k (by omega) (by omega)
  · refine ⟨fun h => ⟨fun k h1 h2 => h k (by omega) (by omega) ?_,
      fun k h1 h2 => h k (by omega) (by omega) ?_⟩, fun h k h1 h2 hm => ?_⟩
    · rw [mask_getLsbD _ _ (by omega)]; exact decide_eq_true (by omega)
    · rw [mask_getLsbD _ _ (by omega)]; exact decide_eq_true (by omega)
    · rw [mask_getLsbD _ _ (by omega)] at hm
      have := of_decide_eq_true hm
      rcases Nat.lt_or_ge k 16 with h3 | h3
      · exact h.1 k (by omega) (by omega)
      · exact h.2 k (by omega) (by omega)

/-! ### The encoder puts the fields back -/

theorem wordN_fields {v : Word} (hh : v.extractLsb' 32 32 = 0#32) (h : v.extractLsb' 8 24 = 0#24) :
    wordN (v.extractLsb' 0 8) = v := by
  rw [extractLsb'_eq_zero_iff] at hh h
  refine BitVec.eq_of_getLsbD_eq fun k hk => ?_
  rw [wordN, BitVec.getLsbD_setWidth, BitVec.getLsbD_append]
  rcases Nat.lt_or_ge k 8 with h1 | h1
  · simp [hk, h1]
  · have : v.getLsbD k = false := by
      rcases Nat.lt_or_ge k 32 with h2 | h2
      · exact h k h1 h2
      · exact hh k h2 (by omega)
    simp [show ¬ k < 8 by omega, this]

theorem wordT_fields {v : Word} (hh : v.extractLsb' 32 32 = 0#32)
    (h : v.extractLsb' 8 8 = 0#8 ∧ v.extractLsb' 17 15 = 0#15) :
    wordT (v.extractLsb' 0 8) ((v.extractLsb' 16 8).getLsbD 0) = v := by
  simp only [extractLsb'_eq_zero_iff] at hh h
  refine BitVec.eq_of_getLsbD_eq fun k hk => ?_
  simp only [wordT, BitVec.getLsbD_setWidth, BitVec.getLsbD_append, BitVec.getLsbD_zero,
    BitVec.getLsbD_ofBool, BitVec.getLsbD_extractLsb']
  rcases Nat.lt_or_ge k 8 with h1 | h1
  · simp [hk, h1]
  rcases Nat.lt_or_ge k 16 with h2 | h2
  · simp [show ¬ k < 8 by omega, show k - 8 < 8 by omega, h.1 k h1 h2]
  rcases Nat.eq_or_lt_of_le h2 with rfl | h3
  · simp
  · have : v.getLsbD k = false := by
      rcases Nat.lt_or_ge k 32 with h4 | h4
      · exact h.2 k h3 h4
      · exact hh k h4 (by omega)
    simp [show ¬ k < 8 by omega, show ¬ k - 8 < 8 by omega, show ¬ k - 8 - 8 = 0 by omega, this]

theorem wordC_fields {v : Word} (hh : v.extractLsb' 32 32 = 0#32) (h : v.extractLsb' 14 18 = 0#18) :
    wordC (v.extractLsb' 0 8) (v.extractLsb' 8 6).toNat = v := by
  simp only [extractLsb'_eq_zero_iff] at hh h
  refine BitVec.eq_of_getLsbD_eq fun k hk => ?_
  simp only [wordC, BitVec.ofNat_toNat, BitVec.setWidth_eq, BitVec.getLsbD_setWidth,
    BitVec.getLsbD_append, BitVec.getLsbD_zero, BitVec.getLsbD_extractLsb']
  rcases Nat.lt_or_ge k 8 with h1 | h1
  · simp [hk, h1]
  rcases Nat.lt_or_ge k 14 with h2 | h2
  · simp [hk, show ¬ k < 8 by omega, show k - 8 < 6 by omega, show 8 + (k - 8) = k by omega]
  · have : v.getLsbD k = false := by
      rcases Nat.lt_or_ge k 32 with h4 | h4
      · exact h k h2 h4
      · exact hh k h4 (by omega)
    simp [show ¬ k < 8 by omega, show ¬ k - 8 < 6 by omega, this]

theorem wordB_fields {v : Word} (hh : v.extractLsb' 32 32 = 0#32)
    (h : v.extractLsb' 8 8 = 0#8 ∧ v.extractLsb' 24 8 = 0#8) :
    wordB (v.extractLsb' 0 8) (v.extractLsb' 16 8) = v := by
  simp only [extractLsb'_eq_zero_iff] at hh h
  refine BitVec.eq_of_getLsbD_eq fun k hk => ?_
  simp only [wordB, BitVec.getLsbD_setWidth, BitVec.getLsbD_append, BitVec.getLsbD_zero,
    BitVec.getLsbD_extractLsb']
  rcases Nat.lt_or_ge k 8 with h1 | h1
  · simp [hk, h1]
  rcases Nat.lt_or_ge k 16 with h2 | h2
  · simp [show ¬ k < 8 by omega, show k - 8 < 8 by omega, h.1 k h1 h2]
  rcases Nat.lt_or_ge k 24 with h3 | h3
  · simp [hk, show ¬ k < 8 by omega, show ¬ k - 8 < 8 by omega, show k - 8 - 8 < 8 by omega,
      show 16 + (k - 8 - 8) = k by omega]
  · have : v.getLsbD k = false := by
      rcases Nat.lt_or_ge k 32 with h4 | h4
      · exact h.2 k h3 h4
      · exact hh k h4 (by omega)
    simp [show ¬ k < 8 by omega, show ¬ k - 8 < 8 by omega, show ¬ k - 8 - 8 < 8 by omega, this]

theorem wordW_fields {v : Word} (hh : v.extractLsb' 32 32 = 0#32)
    (h : v.extractLsb' 8 8 = 0#8 ∧ v.extractLsb' 26 6 = 0#6) :
    wordW (v.extractLsb' 0 8) (v.extractLsb' 16 8) (v.extractLsb' 24 2).toNat = v := by
  simp only [extractLsb'_eq_zero_iff] at hh h
  refine BitVec.eq_of_getLsbD_eq fun k hk => ?_
  simp only [wordW, BitVec.ofNat_toNat, BitVec.setWidth_eq, BitVec.getLsbD_setWidth,
    BitVec.getLsbD_append, BitVec.getLsbD_zero, BitVec.getLsbD_extractLsb']
  rcases Nat.lt_or_ge k 8 with h1 | h1
  · simp [hk, h1]
  rcases Nat.lt_or_ge k 16 with h2 | h2
  · simp [show ¬ k < 8 by omega, show k - 8 < 8 by omega, h.1 k h1 h2]
  rcases Nat.lt_or_ge k 24 with h3 | h3
  · simp [hk, show ¬ k < 8 by omega, show ¬ k - 8 < 8 by omega, show k - 8 - 8 < 8 by omega,
      show 16 + (k - 8 - 8) = k by omega]
  rcases Nat.lt_or_ge k 26 with h5 | h5
  · simp [hk, show ¬ k < 8 by omega, show ¬ k - 8 < 8 by omega, show ¬ k - 8 - 8 < 8 by omega,
      show k - 8 - 8 - 8 < 2 by omega, show 24 + (k - 8 - 8 - 8) = k by omega]
  · have : v.getLsbD k = false := by
      rcases Nat.lt_or_ge k 32 with h4 | h4
      · exact h.2 k h5 h4
      · exact hh k h4 (by omega)
    simp [show ¬ k < 8 by omega, show ¬ k - 8 < 8 by omega, show ¬ k - 8 - 8 < 8 by omega,
      show ¬ k - 8 - 8 - 8 < 2 by omega, this]

/-! ### The opcode map (30_encoding.md R75) -/

/-- The opcodes of a format. -/
def formatOpcodes : Format → List Nat
  | .N => [0x00, 0x01, 0x02, 0x10, 0x13, 0x15, 0x16, 0x20, 0x21, 0x23, 0x30, 0x31, 0x41, 0x42, 0x43,
      0x50, 0x51, 0x60, 0x61]
  | .T => [0x11]
  | .C => [0x12, 0x14]
  | .B => [0x22, 0x32, 0x40]
  | .W => [0x33]

/-- An assigned opcode is one of its format's. -/
theorem opcodeMap_format {op : Nat} {f : Fields} {fmt : Format} {i : Instr}
    (h : opcodeMap op f = some (fmt, i)) : op ∈ formatOpcodes fmt := by
  unfold opcodeMap at h
  split at h <;> cases h <;> decide

theorem opcodeMap_none {op : Nat} {f : Fields} :
    opcodeMap op f = none ↔ op ∉ [0x00, 0x01, 0x02, 0x10, 0x11, 0x12, 0x13, 0x14, 0x15, 0x16, 0x20,
      0x21, 0x22, 0x23, 0x30, 0x31, 0x32, 0x33, 0x40, 0x41, 0x42, 0x43, 0x50, 0x51, 0x60, 0x61] := by
  unfold opcodeMap
  split
  case h_27 =>
    simp only [List.mem_cons, List.not_mem_nil, or_false, true_iff]
    intro h
    repeat' first | contradiction | rcases h with h | h
  all_goals simp

/-- The word of a format with an opcode and fields (30_encoding.md R72). -/
def formatWord (op : BitVec 8) (f : Fields) : Format → Word
  | .N => wordN op
  | .T => wordT op (f.b.getLsbD 0)
  | .C => wordC op f.cnt
  | .B => wordB op f.b
  | .W => wordW op f.b f.w

/-- An assigned opcode's command encodes to a word of its format with the same fields, and is well formed
when they are in range. -/
theorem opcodeMap_encode {op : BitVec 8} {n : Nat} {f : Fields} {fmt : Format} {i : Instr}
    (hn : op = BitVec.ofNat 8 n) (h : opcodeMap n f = some (fmt, i)) (hc : f.cnt < 64) (hw : f.w < 4) :
    i.wellFormed = true ∧ encode i = formatWord op f fmt := by
  subst hn
  unfold opcodeMap at h
  split at h <;> cases h <;>
    exact ⟨by first | rfl | exact decide_eq_true hc | exact decide_eq_true hw, rfl⟩

end Sys2Proof
end

