-- ==== Sys2Proof/Laws/Invariant.lean ====
section
/-! SUPPORT. The invariant under each kind of update, and what it gives of the code table. -/

namespace Sys2Proof.Machine

/-- The invariant looks at no other field. -/
theorem inv_congr {s t : State} (h : StateInv s) (h1 : t.caps = s.caps) (h2 : t.bs = s.bs)
    (h3 : t.bsRd = s.bsRd) (h4 : t.outLen = s.outLen) (h5 : t.outBuf = s.outBuf) (h6 : t.ft = s.ft)
    (h7 : t.tree = s.tree) (h8 : t.ct = s.ct) (h9 : t.inBuf = s.inBuf) : StateInv t := by
  cases s
  cases t
  simp only at h1 h2 h3 h4 h5 h6 h7 h8 h9
  subst h1 h2 h3 h4 h5 h6 h7 h8 h9
  exact ⟨h.caps, h.readCursor, h.writeCursor, h.outLen, h.outWritten, h.freq, h.tree, h.codes, h.input,
    h.output⟩

theorem inv_raiseError {s : State} (h : StateInv s) (e : Err) : StateInv (s.raiseError e) :=
  inv_congr h rfl rfl rfl rfl rfl rfl rfl rfl rfl

theorem inv_clearError {s : State} (h : StateInv s) : StateInv s.clearError :=
  inv_congr h rfl rfl rfl rfl rfl rfl rfl rfl rfl

theorem inv_tick {s : State} (h : StateInv s) : StateInv s.tick := inv_congr h rfl rfl rfl rfl rfl rfl rfl rfl rfl

/-- An empty OUT meets every bound. -/
theorem inv_outClear {s : State} (h : StateInv s) : StateInv { s with outLen := 0 } where
  caps := h.caps
  readCursor := h.readCursor
  writeCursor := h.writeCursor
  outLen := Nat.zero_le _
  outWritten := fun a ha => absurd ha (Nat.not_lt_zero a)
  freq := h.freq
  tree := h.tree
  codes := h.codes
  input := h.input
  output := h.output

/-- A stream that fits, read from a place in it. -/
theorem inv_stream {s : State} (h : StateInv s) {l : Bits} {n : Nat} (hn : n ≤ l.length)
    (hl : l.length ≤ s.caps.bsCapBits) : StateInv { s with bs := l, bsRd := n } where
  caps := h.caps
  readCursor := hn
  writeCursor := hl
  outLen := h.outLen
  outWritten := h.outWritten
  freq := h.freq
  tree := h.tree
  codes := h.codes
  input := h.input
  output := h.output

theorem inv_clearStream {s : State} (h : StateInv s) : StateInv (clearStream s) :=
  inv_stream h (Nat.le_refl 0) (Nat.zero_le _)

theorem inv_outAppend {l : List Byte} {s t : State} (h : StateInv s) (ho : outAppend l s = .ok t) : StateInv t := by
  have hr := outAppend_read ho
  obtain ⟨hc, rfl⟩ := outAppend_ok.mp ho
  exact {
    caps := h.caps
    readCursor := h.readCursor
    writeCursor := h.writeCursor
    outLen := hc
    outWritten := fun a ha => by
      by_cases hs : a < s.outLen
      · rw [hr.1 a hs]; exact h.outWritten a hs
      · have := hr.2 (a - s.outLen) (by simp only at ha; omega)
        rw [show s.outLen + (a - s.outLen) = a by omega] at this
        rw [this]; rfl
    freq := h.freq
    tree := h.tree
    codes := h.codes
    input := h.input
    output := ⟨Mem.wf_writeList l h.output.1 _, Mem.bound_writeList l h.output.2 hc⟩ }

/-- A table whose sum fits. -/
theorem inv_ft {s : State} (h : StateInv s) {T : FreqTable} (hT : freqSum T ≤ 2 ^ 64 - 1) :
    StateInv { s with ft := T } where
  caps := h.caps
  readCursor := h.readCursor
  writeCursor := h.writeCursor
  outLen := h.outLen
  outWritten := h.outWritten
  freq := hT
  tree := h.tree
  codes := h.codes
  input := h.input
  output := h.output

theorem inv_buildTree {s t : State} (h : StateInv s) (hb : buildTree s = .ok t) : StateInv t := by
  obtain ⟨-, rfl⟩ := buildTree_ok.mp hb
  exact {
    caps := h.caps
    readCursor := h.readCursor
    writeCursor := h.writeCursor
    outLen := h.outLen
    outWritten := h.outWritten
    freq := h.freq
    tree := treeOf_wf h.freq
    codes := .inl rfl
    input := h.input
    output := h.output }

theorem inv_generateCodes {s : State} (h : StateInv s) : StateInv (generateCodes s) where
  caps := h.caps
  readCursor := h.readCursor
  writeCursor := h.writeCursor
  outLen := h.outLen
  outWritten := h.outWritten
  freq := h.freq
  tree := h.tree
  codes := .inr rfl
  input := h.input
  output := h.output

/-- A byte of IN inside IN_CAP. -/
theorem inv_writeIn {s : State} (h : StateInv s) {a : Nat} (ha : a < s.caps.inCap) (x : Byte) :
    StateInv { s with inBuf := Mem.write s.inBuf a x } where
  caps := h.caps
  readCursor := h.readCursor
  writeCursor := h.writeCursor
  outLen := h.outLen
  outWritten := h.outWritten
  freq := h.freq
  tree := h.tree
  codes := h.codes
  input := ⟨Mem.wf_write h.input.1 a x, Mem.bound_write h.input.2 ha x⟩
  output := h.output

theorem inv_appendBits {l : Bits} {s t : State} (h : StateInv s) (ha : appendBits l s = .ok t) : StateInv t := by
  obtain ⟨hc, rfl⟩ := appendBits_ok.mp ha
  have := h.readCursor
  exact inv_stream (n := s.bsRd) h (by simp [State.bsWr] at *; omega) (by simpa [State.bsWr] using hc)

/-- Consuming bits that stand in the stream. -/
theorem inv_consume {s : State} (h : StateInv s) {n : Nat} (hn : s.bsRd + n ≤ s.bsWr) (res : Word) :
    StateInv { s with res := res, bsRd := s.bsRd + n } :=
  inv_congr (inv_stream (l := s.bs) h hn h.writeCursor) rfl rfl rfl rfl rfl rfl rfl rfl rfl

theorem inv_loadStream {off : Nat} {s t : State} (h : StateInv s) (hl : loadStream off s = .ok t) : StateInv t := by
  obtain ⟨-, -, hc, l, hr, rfl⟩ := loadStream_ok.mp hl
  have := (inReadList_ok.mp hr).1
  exact inv_stream h (Nat.zero_le _) (by simp; omega)

/-- The counts of readable input fit a u64. -/
theorem length_inputBytes {s : State} {l : List Byte} (h : inputBytes s = .ok l) :
    l.length ≤ 2 ^ 64 - 1 := by
  rw [(inputBytes_ok.mp h).2.1, State.inLenNat]
  have := s.inLen.isLt
  omega

theorem inv_analyze {s t : State} (h : StateInv s) (ha : analyze s = .ok t) : StateInv t := by
  obtain ⟨l, hl, rfl⟩ := analyze_ok.mp ha
  have hs : (countBytes zeroCounts l).toList.sum ≤ 2 ^ 64 - 1 := by
    rw [sum_countBytes, sum_zeroCounts, Nat.zero_add]; exact length_inputBytes hl
  exact inv_ft h (by rw [freqSum_storeCounts hs]; exact hs)

theorem inv_accumulate {s t : State} (h : StateInv s) (ha : accumulate s = .ok t) : StateInv t := by
  obtain ⟨l, hl, hc, rfl⟩ := accumulate_ok.mp ha
  have hs : (countBytes (countsOf s.ft) l).toList.sum ≤ 2 ^ 64 - 1 := by
    rw [sum_countBytes, ← freqSum_eq_sum_countsOf]; exact hc
  exact inv_ft h (by rw [freqSum_storeCounts hs]; exact hs)

theorem inv_readHeader {s t : State} (h : StateInv s) (hr : readHeader s = .ok t) : StateInv t := by
  obtain ⟨-, T, n, hp, rfl⟩ := readHeader_ok.mp hr
  exact inv_congr (inv_ft h (freqSum_parseHeader hp)) rfl rfl rfl rfl rfl rfl rfl rfl rfl

theorem inv_encodeSymbol {b : Byte} {s t : State} (h : StateInv s) (he : encodeSymbol b s = .ok t) : StateInv t := by
  obtain ⟨c, -, hc, rfl⟩ := encodeSymbol_ok.mp he
  exact inv_appendBits h (appendBits_ok.mpr ⟨hc, rfl⟩)

/-- What a traversal consumes stands in the stream. -/
theorem consumed_le {s : State} {b : Byte} {n : Nat} (h : StateInv s)
    (ht : traverseRoot s.tree s.unread = some (b, n)) : s.bsRd + n ≤ s.bsWr := by
  have h1 := (traverseRoot_length ht).1
  have h2 := h.readCursor
  simp only [State.unread, List.length_drop, State.bsWr] at *
  omega

theorem inv_decodeSymbol {s t : State} (h : StateInv s) (hd : decodeSymbol s = .ok t) : StateInv t := by
  obtain ⟨b, n, ht, rfl⟩ := decodeSymbol_ok.mp hd
  exact inv_consume h (consumed_le h ht) _

theorem inv_decodeAppend {s t : State} (h : StateInv s) (hd : decodeAppend s = .ok t) : StateInv t := by
  obtain ⟨b, n, ht, hc, rfl⟩ := decodeAppend_ok.mp hd
  have h1 := inv_consume h (consumed_le h ht) s.res
  exact inv_outAppend (l := [b]) h1 (outAppend_ok.mpr ⟨hc, rfl⟩)

theorem inv_encodeLoop {n a : Nat} {s t : State} (h : StateInv s) (hl : (encodeLoop n a s).leaves t) : StateInv t := by
  induction n generalizing a s with
  | zero => rw [hl]; exact h
  | succ n ih =>
    refine leaves_andThen (P := StateInv) hl (fun u hu => leaves_primitive hu h fun v hv => ?_)
      fun u hu hv => ih hu hv
    obtain ⟨b, -, hb⟩ := encodeAt_ok.mp hv
    exact inv_encodeSymbol h hb

theorem inv_encodeBlock {s t : State} (h : StateInv s) (hl : (encodeBlock s).leaves t) : StateInv t := by
  unfold encodeBlock at hl
  split at hl
  · rw [hl]; exact h
  · exact inv_encodeLoop h hl

theorem inv_decodeLoop {k : Nat} {s t : State} (h : StateInv s) (hl : (decodeLoop k s).leaves t) : StateInv t := by
  induction k generalizing s with
  | zero => rw [hl]; exact h
  | succ k ih =>
    exact leaves_andThen (P := StateInv) hl
      (fun u hu => leaves_primitive hu h fun v hv => inv_decodeAppend h hv) fun u hu hv => ih hu hv

theorem inv_compressSteps {s t : State} (h : StateInv s) (hl : (compressSteps s).leaves t) : StateInv t := by
  unfold compressSteps at hl
  split at hl
  · rw [hl]; exact h
  refine leaves_andThen (P := StateInv) hl (fun u hu => leaves_primitive hu h fun v hv => inv_analyze h hv)
    fun u h hl => ?_
  split at hl
  · rw [hl]; exact inv_congr h rfl rfl rfl rfl rfl rfl rfl rfl rfl
  refine leaves_andThen (P := StateInv) hl (fun u hu => leaves_primitive hu h fun v hv => inv_buildTree h hv)
    fun u h hl => ?_
  refine leaves_andThen (P := StateInv) hl
    (fun u hu => by rw [hu]; exact inv_clearStream (inv_generateCodes h)) fun u h hl => ?_
  refine leaves_andThen (P := StateInv) hl (fun u hu => inv_encodeBlock h hu) fun u h hl => ?_
  refine leaves_andThen (P := StateInv) hl (fun u hu => leaves_primitive hu h fun v hv => inv_outAppend h hv)
    fun u h hl => ?_
  refine leaves_andThen (P := StateInv) hl (fun u hu => leaves_primitive hu h fun v hv => inv_outAppend h hv)
    fun u h hl => ?_
  rw [hl]; exact inv_congr h rfl rfl rfl rfl rfl rfl rfl rfl rfl

theorem inv_decompressSteps {s t : State} (h : StateInv s) (hl : (decompressSteps s).leaves t) : StateInv t := by
  unfold decompressSteps at hl
  split at hl
  · rw [hl]; exact h
  split at hl
  · rw [hl]; exact inv_congr h rfl rfl rfl rfl rfl rfl rfl rfl rfl
  refine leaves_andThen (P := StateInv) hl (fun u hu => leaves_primitive hu h fun v hv => inv_readHeader h hv)
    fun u h hl => ?_
  refine leaves_andThen (P := StateInv) hl (fun u hu => leaves_primitive hu h fun v hv => inv_buildTree h hv)
    fun u h hl => ?_
  refine leaves_andThen (P := StateInv) hl (fun u hu => leaves_primitive hu h fun v hv => inv_loadStream h hv)
    fun u h hl => ?_
  refine leaves_andThen (P := StateInv) hl (fun u hu => inv_decodeLoop h hu) fun u h hl => ?_
  rw [hl]; exact inv_congr h rfl rfl rfl rfl rfl rfl rfl rfl rfl

end Sys2Proof.Machine
end

