-- ==== Sys2Proof/Laws/PerInstr.lean ====
section
/-! SUPPORT. The per-instruction family `EncodedWord`: the reserved bits of every command's encoding
are 0 (30_encoding.md R70, R71). -/

namespace Sys2Proof.Laws.EncodedWord

/-- The value a host writes to CMD for the command has 0 in bits [15:14] and [31:26], the reserved bits
of the command word (R71), and in CMD[63:32] (R70). -/
def Statement (i : Instr) : Prop :=
  ∀ k, (14 ≤ k ∧ k < 16) ∨ 26 ≤ k → (encode i).getLsbD k = false

theorem reserved_wordN (op : BitVec 8) (k : Nat) (h : (14 ≤ k ∧ k < 16) ∨ 26 ≤ k) :
    (wordN op).getLsbD k = false := by
  rw [wordN, BitVec.getLsbD_setWidth, BitVec.getLsbD_append]
  simp [show ¬ k < 8 by omega]

theorem reserved_wordT (op : BitVec 8) (t : Bool) (k : Nat) (h : (14 ≤ k ∧ k < 16) ∨ 26 ≤ k) :
    (wordT op t).getLsbD k = false := by
  simp only [wordT, BitVec.getLsbD_setWidth, BitVec.getLsbD_append, BitVec.getLsbD_zero,
    BitVec.getLsbD_ofBool]
  rcases h with h | h
  · simp [show ¬ k < 8 by omega, show k - 8 < 8 by omega]
  · simp [show ¬ k < 8 by omega, show ¬ k - 8 < 8 by omega, show ¬ k - 8 - 8 = 0 by omega]

theorem reserved_wordC (op : BitVec 8) (cnt k : Nat) (h : (14 ≤ k ∧ k < 16) ∨ 26 ≤ k) :
    (wordC op cnt).getLsbD k = false := by
  simp only [wordC, BitVec.getLsbD_setWidth, BitVec.getLsbD_append, BitVec.getLsbD_zero]
  simp [show ¬ k < 8 by omega, show ¬ k - 8 < 6 by omega]

theorem reserved_wordB (op : BitVec 8) (b : Byte) (k : Nat) (h : (14 ≤ k ∧ k < 16) ∨ 26 ≤ k) :
    (wordB op b).getLsbD k = false := by
  simp only [wordB, BitVec.getLsbD_setWidth, BitVec.getLsbD_append, BitVec.getLsbD_zero]
  rcases h with h | h
  · simp [show ¬ k < 8 by omega, show k - 8 < 8 by omega]
  · simp [show ¬ k < 8 by omega, show ¬ k - 8 < 8 by omega, show ¬ k - 8 - 8 < 8 by omega]

theorem reserved_wordW (op : BitVec 8) (b : Byte) (w k : Nat) (h : (14 ≤ k ∧ k < 16) ∨ 26 ≤ k) :
    (wordW op b w).getLsbD k = false := by
  simp only [wordW, BitVec.getLsbD_setWidth, BitVec.getLsbD_append, BitVec.getLsbD_zero]
  rcases h with h | h
  · simp [show ¬ k < 8 by omega, show k - 8 < 8 by omega]
  · simp [show ¬ k < 8 by omega, show ¬ k - 8 < 8 by omega, show ¬ k - 8 - 8 < 8 by omega,
      show ¬ k - 8 - 8 - 8 < 2 by omega]

theorem nop : Statement .nop := reserved_wordN _
theorem errClear : Statement .errClear := reserved_wordN _
theorem outClear : Statement .outClear := reserved_wordN _
theorem bsClear : Statement .bsClear := reserved_wordN _
theorem bsWbit (t : Bool) : Statement (.bsWbit t) := reserved_wordT _ t
theorem bsWbits (cnt : Nat) : Statement (.bsWbits cnt) := reserved_wordC _ cnt
theorem bsRbit : Statement .bsRbit := reserved_wordN _
theorem bsRbits (cnt : Nat) : Statement (.bsRbits cnt) := reserved_wordC _ cnt
theorem bsGetbuf : Statement .bsGetbuf := reserved_wordN _
theorem bsLoad : Statement .bsLoad := reserved_wordN _
theorem faAnalyze : Statement .faAnalyze := reserved_wordN _
theorem faAccum : Statement .faAccum := reserved_wordN _
theorem faRead (b : Byte) : Statement (.faRead b) := reserved_wordB _ b
theorem faTotal : Statement .faTotal := reserved_wordN _
theorem htBuild : Statement .htBuild := reserved_wordN _
theorem htCodes : Statement .htCodes := reserved_wordN _
theorem ctLen (b : Byte) : Statement (.ctLen b) := reserved_wordB _ b
theorem ctWord (b : Byte) (w : Nat) : Statement (.ctWord b w) := reserved_wordW _ b w
theorem encSym (b : Byte) : Statement (.encSym b) := reserved_wordB _ b
theorem encBlock : Statement .encBlock := reserved_wordN _
theorem decSym : Statement .decSym := reserved_wordN _
theorem decBlock : Statement .decBlock := reserved_wordN _
theorem hdrWrite : Statement .hdrWrite := reserved_wordN _
theorem hdrParse : Statement .hdrParse := reserved_wordN _
theorem codecCompress : Statement .codecCompress := reserved_wordN _
theorem codecDecompress : Statement .codecDecompress := reserved_wordN _

end Sys2Proof.Laws.EncodedWord
end

