-- ==== Sys2Proof/Tests/Slice0.lean ====
section
/-! SUPPORT. The model's own tests: ill-formed terms, decoding, one step per command, the host's
actions and the assembler. Every expected value is taken from the spec: an example of the rule a test
cites, a vector of 95_test_vectors.md, or a hand calculation from the rule. -/

-- One theorem at a time, so that the kernel's work on them does not pile up in memory.
set_option Elab.async false

namespace Sys2Proof.Machine.Tests

/-! ### Helpers -/

/-- The command answers a next state that meets `p`. -/
def answers (r : Host.Outcome State Fault Refusal) (p : State → Bool) : Bool :=
  match r with
  | .next t => p t
  | .fault _ => false
  | .refused _ => false

/-- The next state of an answer, `d` when there is none. -/
def nextOf (r : Host.Outcome State Fault Refusal) (d : State) : State :=
  match r with
  | .next t => t
  | .fault _ => d
  | .refused _ => d

theorem eq_next_of_answers {r : Host.Outcome State Fault Refusal} {p : State → Bool} (d : State)
    (h : answers r p = true) : r = .next (nextOf r d) := by
  cases r with
  | next t => rfl
  | fault f => cases h
  | refused f => cases h

/-- The state after power-up with the bits `l` in BS, BS_RD at `rd`. -/
def stream (l : Bits) (rd : Nat) : State := { State.reset with bs := l, bsRd := rd }

/-- Bits spelled as the spec spells them, `1` and `0`. -/
def bits (l : List Nat) : Bits := l.map (· == 1)

/-- The state after power-up with the byte list in IN and its length in IN_LEN. -/
def input (l : List Byte) : State := withInput l State.reset

/-- "ABRACADABRA" (42_frequency.md R130). -/
def abra : List Byte :=
  [0x41#8, 0x42#8, 0x52#8, 0x41#8, 0x43#8, 0x41#8, 0x44#8, 0x41#8, 0x42#8, 0x52#8, 0x41#8]

/-- Its frequencies (R130). -/
def abraTable : FreqTable :=
  tableOf [(0x41#8, 5#64), (0x42#8, 2#64), (0x43#8, 1#64), (0x44#8, 1#64), (0x52#8, 2#64)]

/-- Its tree (43_tree.md R144). -/
def abraTree : Root :=
  .full 11 (.leaf 0x41#8 5) (.node 6 (.node 2 (.leaf 0x43#8 1) (.leaf 0x44#8 1))
    (.node 4 (.leaf 0x42#8 2) (.leaf 0x52#8 2)))

/-- Its codes (43_tree.md R145). -/
def abraCodes : CodeTable :=
  update (update (update (update (update emptyCodes 0x41#8 (some (bits [0])))
    0x43#8 (some (bits [1, 0, 0]))) 0x44#8 (some (bits [1, 0, 1])))
    0x42#8 (some (bits [1, 1, 0]))) 0x52#8 (some (bits [1, 1, 1]))

/-- The state with the tables of "ABRACADABRA". -/
def abraState : State :=
  { input abra with ft := abraTable, tree := abraTree, ct := abraCodes }

/-- The payload bytes 6E 8A DC of "ABRACADABRA" (44_encdec.md R173) as bits. -/
def abraBits : Bits := unpackBytes [0x6E#8, 0x8A#8, 0xDC#8]

/-- The 52-byte container of "ABRACADABRA" (95_test_vectors.md C1). -/
def abraContainer : List Byte :=
  [5, 0, 0, 0, 0x41, 5, 0, 0, 0, 0, 0, 0, 0, 0x42, 2, 0, 0, 0, 0, 0, 0, 0] ++
  [0x43, 1, 0, 0, 0, 0, 0, 0, 0, 0x44, 1, 0, 0, 0, 0, 0, 0, 0] ++
  [0x52, 2, 0, 0, 0, 0, 0, 0, 0, 0x6E, 0x8A, 0xDC]

/-- The first `n` bytes of OUT. -/
def outBytes (s : State) (n : Nat) : List (Option Byte) := (List.range n).map (Mem.read s.outBuf)

/-! ### Well-formedness: one ill-formed term for each check -/

theorem test_wf_bsWbits : (Instr.bsWbits 64).wellFormed = false := by decide
theorem test_wf_bsRbits : (Instr.bsRbits 64).wellFormed = false := by decide
theorem test_wf_ctWord : (Instr.ctWord 0x41#8 4).wellFormed = false := by decide

/-! ### Decoding: every command, from words spelled by 30_encoding.md R72 and R75 -/

theorem test_decode_control :
    decode 0b00000000000000000000000000000000#64 = .ok .nop ∧
    decode 0b00000000000000000000000000000001#64 = .ok .errClear ∧
    decode 0b00000000000000000000000000000010#64 = .ok .outClear := by decide +kernel

theorem test_decode_bitstream :
    decode 0b00000000000000000000000000010000#64 = .ok .bsClear ∧
    decode 0b00000000000000010000000000010001#64 = .ok (.bsWbit true) ∧
    decode 0b00000000000000000000000000010001#64 = .ok (.bsWbit false) ∧
    decode 0b00000000000000000010000100010010#64 = .ok (.bsWbits 33) ∧
    decode 0b00000000000000000000000000010011#64 = .ok .bsRbit ∧
    decode 0b00000000000000000000110000010100#64 = .ok (.bsRbits 12) ∧
    decode 0b00000000000000000000000000010101#64 = .ok .bsGetbuf ∧
    decode 0b00000000000000000000000000010110#64 = .ok .bsLoad := by decide +kernel

theorem test_decode_frequency :
    decode 0b00000000000000000000000000100000#64 = .ok .faAnalyze ∧
    decode 0b00000000000000000000000000100001#64 = .ok .faAccum ∧
    decode 0b00000000010000010000000000100010#64 = .ok (.faRead 0x41#8) ∧
    decode 0b00000000000000000000000000100011#64 = .ok .faTotal := by decide +kernel

theorem test_decode_tree :
    decode 0b00000000000000000000000000110000#64 = .ok .htBuild ∧
    decode 0b00000000000000000000000000110001#64 = .ok .htCodes ∧
    decode 0b00000000010000110000000000110010#64 = .ok (.ctLen 0x43#8) ∧
    decode 0b00000011111111110000000000110011#64 = .ok (.ctWord 0xFF#8 3) ∧
    decode 0b00000001010000100000000000110011#64 = .ok (.ctWord 0x42#8 1) := by decide +kernel

theorem test_decode_encdec :
    decode 0b00000000100000010000000001000000#64 = .ok (.encSym 0x81#8) ∧
    decode 0b00000000000000000000000001000001#64 = .ok .encBlock ∧
    decode 0b00000000000000000000000001000010#64 = .ok .decSym ∧
    decode 0b00000000000000000000000001000011#64 = .ok .decBlock := by decide +kernel

theorem test_decode_codec :
    decode 0b00000000000000000000000001010000#64 = .ok .hdrWrite ∧
    decode 0b00000000000000000000000001010001#64 = .ok .hdrParse ∧
    decode 0b00000000000000000000000001100000#64 = .ok .codecCompress ∧
    decode 0b00000000000000000000000001100001#64 = .ok .codecDecompress := by decide +kernel

/-- The illegal words of 95_test_vectors.md E1 to E6. -/
theorem test_decode_illegal :
    decode 0x0000000100000000#64 = .error .highBitsSet ∧
    decode 0x0000000000000003#64 = .error .unassignedOpcode ∧
    decode 0x0000000000020011#64 = .error .reservedBitSet ∧
    decode 0x0000000000000110#64 = .error .reservedBitSet ∧
    decode 0x0000000004000032#64 = .error .reservedBitSet ∧
    decode 0x0000000000004012#64 = .error .reservedBitSet := by decide +kernel

theorem test_decodeTableWord :
    decodeTableWord 32 0x03FF0033 = some (.ctWord 0xFF#8 3) ∧
    decodeTableWord 32 0x00000110 = none := by decide +kernel

/-! ### Control commands (40_control.md) -/

theorem test_nop : exec .nop abraState = .next abraState := rfl

theorem test_errClear : answers (exec .errClear { abraState with err := .emptyFreqTable })
    (fun t => { abraState with err := .emptyFreqTable }.status == 0x105#64 && t.status == 0x100#64) =
    true := by decide +kernel

theorem test_outClear : answers (exec .outClear { State.reset with outLen := 52 })
    (fun t => t.outLen == 0) = true := by decide +kernel

/-! ### BitStream commands (41_bitstream.md) -/

theorem test_bsClear : answers (exec .bsClear (stream (List.replicate 23 true) 5))
    (fun t => t.bsWr == 0 && t.bsRd == 0) = true := by decide +kernel

theorem test_bsWbit : answers (exec (.bsWbit true) State.reset)
    (fun t => t.bs == bits [1] && t.bsRd == 0) = true := by decide +kernel

theorem test_bsWbits : answers (exec (.bsWbits 8) { State.reset with opnd := 0xA5#64 })
    (fun t => t.bs == bits [1, 0, 1, 0, 0, 1, 0, 1]) = true := by decide +kernel

/-- OPND[63:32] and the bits at and above CNT are ignored (R103). -/
theorem test_bsWbits_high_bits : answers
    (exec (.bsWbits 32) { State.reset with opnd := 0xFFFFFFFF80000001#64 })
    (fun t => t.bs == true :: (List.replicate 30 false ++ [true])) = true := by decide +kernel

theorem test_bsRbit : answers (exec .bsRbit (stream (bits [1, 0, 1, 1]) 0))
    (fun t => t.res == 1#64 && t.bsRd == 1) = true := by decide +kernel

theorem test_bsRbit_end : answers (exec .bsRbit (stream (bits [1, 0, 1, 1]) 4))
    (fun t => t.err == .endOfStream && t.bsRd == 4) = true := by decide +kernel

theorem test_bsRbits : answers
    (exec (.bsRbits 8) (stream (bits [1, 0, 1, 1, 1, 0, 1, 0, 0, 1, 0, 1]) 4))
    (fun t => t.res == 0xA5#64 && t.bsRd == 12) = true := by decide +kernel

/-- Both checks are made before any bit is consumed (R105). -/
theorem test_bsRbits_short : answers (exec (.bsRbits 5) (stream (bits [1, 0, 1, 1]) 0))
    (fun t => t.err == .endOfStream && t.bsRd == 0 && t.res == 0#64) = true := by decide +kernel

theorem test_bsGetbuf : answers
    (exec .bsGetbuf (stream (bits [1, 0, 1, 1, 1, 0, 1, 0, 0, 1, 0, 1]) 12))
    (fun t => t.outLen == 2 && outBytes t 2 == [some 0xBA#8, some 0x50#8]) = true := by
  decide +kernel

theorem test_bsLoad : answers (exec .bsLoad (input [0xBA#8, 0x50#8]))
    (fun t => t.bs == bits [1, 0, 1, 1, 1, 0, 1, 0, 0, 1, 0, 1, 0, 0, 0, 0] && t.bsRd == 0) = true := by
  decide +kernel

/-- OPND = IN_LEN loads an empty stream (R107). -/
theorem test_bsLoad_empty : answers (exec .bsLoad { input [0xBA#8] with opnd := 1#64, bs := [true] })
    (fun t => t.err == .none && t.bsWr == 0) = true := by decide +kernel

/-! ### Frequency commands (42_frequency.md) -/

theorem test_faAnalyze : answers (exec .faAnalyze (input abra)) (fun t => t.ft.toList == abraTable.toList) = true := by
  decide +kernel

/-- FT of "ABRA", then the chunk "CADABRA" (R131). -/
theorem test_faAccum : answers
    (exec .faAccum { input [0x43#8, 0x41#8, 0x44#8, 0x41#8, 0x42#8, 0x52#8, 0x41#8] with
      ft := tableOf [(0x41#8, 2#64), (0x42#8, 1#64), (0x52#8, 1#64)] })
    (fun t => t.ft.toList == abraTable.toList) = true := by decide +kernel

theorem test_faAccum_full : answers
    (exec .faAccum { input [0x41#8] with ft := tableOf [(0x42#8, 0xFFFFFFFFFFFFFFFF#64)] })
    (fun t => t.err == .capacityExceeded) = true := by decide +kernel

theorem test_faRead : answers (exec (.faRead 0x41#8) abraState) (fun t => t.res == 5#64) = true := by
  decide +kernel

theorem test_faTotal : answers (exec .faTotal abraState) (fun t => t.res == 11#64) = true := by
  decide +kernel

/-! ### Tree and code table (43_tree.md) -/

theorem test_htBuild : answers (exec .htBuild { abraState with tree := .none })
    (fun t => t.tree == abraTree && t.ct.toList == emptyCodes.toList) = true := by decide +kernel

/-- One distinct symbol gives the wrapper (R143; 95_test_vectors.md T5). -/
theorem test_htBuild_one : answers (exec .htBuild { State.reset with ft := tableOf [(0x61#8, 3#64)] })
    (fun t => t.tree == .wrap 3 0x61#8 3 && t.status == 0x100#64) = true := by decide +kernel

theorem test_htCodes : answers (exec .htCodes { abraState with ct := emptyCodes })
    (fun t => t.ct.toList == abraCodes.toList) = true := by decide +kernel

/-- Four bytes of one frequency: A and B are merged before C and D, and of the two nodes of frequency 2
the earlier one goes left (R141, R142). -/
theorem test_htCodes_ties : answers
    (exec .htCodes { State.reset with
      tree := treeOf (tableOf [(0x41#8, 1#64), (0x42#8, 1#64), (0x43#8, 1#64), (0x44#8, 1#64)]) })
    (fun t => lookup t.ct 0x41#8 == some (bits [0, 0]) && lookup t.ct 0x42#8 == some (bits [0, 1]) &&
      lookup t.ct 0x43#8 == some (bits [1, 0]) && lookup t.ct 0x44#8 == some (bits [1, 1])) = true := by
  decide +kernel

theorem test_ctLen : answers (exec (.ctLen 0x43#8) abraState) (fun t => t.res == 3#64) = true := by
  decide +kernel

theorem test_ctWord : answers (exec (.ctWord 0x42#8 0) abraState)
    (fun t => t.res == 0xC000000000000000#64) = true := by decide +kernel

/-- A code of 255 ones read at W = 3: RES[0] is 0 (R148). -/
theorem test_ctWord_last : answers
    (exec (.ctWord 0x42#8 3)
      { State.reset with ct := update emptyCodes 0x42#8 (some (List.replicate 255 true)) })
    (fun t => t.res == 0xFFFFFFFFFFFFFFFE#64) = true := by decide +kernel

/-! ### Encoder and decoder (44_encdec.md) -/

theorem test_encSym : answers (exec (.encSym 0x42#8) abraState)
    (fun t => t.bs == bits [1, 1, 0]) = true := by decide +kernel

theorem test_encSym_miss : answers (exec (.encSym 0x5A#8) abraState)
    (fun t => t.err == .codeTableMiss && t.bs == []) = true := by decide +kernel

theorem test_encBlock : answers (exec .encBlock abraState)
    (fun t => t.bs == abraBits.take 23) = true := by decide +kernel

/-- "ABZ" with the codes of "ABRACADABRA": the two symbols in front stay appended (R171,
60_exceptions.md R233). -/
theorem test_encBlock_miss : answers
    (exec .encBlock { input [0x41#8, 0x42#8, 0x5A#8] with ct := abraCodes })
    (fun t => t.err == .codeTableMiss && t.bs == bits [0, 1, 1, 0]) = true := by decide +kernel

theorem test_decSym : answers (exec .decSym { abraState with bs := abraBits, bsRd := 1 })
    (fun t => t.res == 0x42#64 && t.bsRd == 4) = true := by decide +kernel

/-- The wrapper reads a bit of any value (R172). -/
theorem test_decSym_wrap : answers
    (exec .decSym { stream [true] 0 with tree := .wrap 3 0x61#8 3 })
    (fun t => t.res == 0x61#64 && t.bsRd == 1) = true := by decide +kernel

theorem test_decBlock : answers
    (exec .decBlock { abraState with bs := abraBits, opnd := 11#64 })
    (fun t => t.bsRd == 23 && t.outLen == 11 && outBytes t 11 == abra.map some) = true := by
  decide +kernel

/-- After "AB" the bits `11` end inside a symbol (R174). -/
theorem test_decBlock_short : answers
    (exec .decBlock { abraState with bs := bits [0, 1, 1, 0, 1, 1], opnd := 3#64 })
    (fun t => t.err == .corruptPayload && t.bsRd == 4 && t.outLen == 2) = true := by decide +kernel

/-! ### Container and codec (45_codec.md) -/

/-- FT of "ab" (R192). -/
theorem test_hdrWrite : answers
    (exec .hdrWrite { State.reset with ft := tableOf [(0x61#8, 1#64), (0x62#8, 1#64)] })
    (fun t => t.outLen == 22 && outBytes t 22 ==
      ([2, 0, 0, 0, 0x61, 1, 0, 0, 0, 0, 0, 0, 0, 0x62, 1, 0, 0, 0, 0, 0, 0, 0] : List Byte).map some) =
    true := by decide +kernel

theorem test_hdrParse : answers (exec .hdrParse (input abraContainer))
    (fun t => t.ft.toList == abraTable.toList && t.res == 49#64) = true := by decide +kernel

theorem test_codecCompress : answers (exec .codecCompress (input [0x61#8, 0x61#8, 0x61#8]))
    (fun t => t.res == 14#64 && t.outLen == 14 && outBytes t 14 ==
      ([1, 0, 0, 0, 0x61, 3, 0, 0, 0, 0, 0, 0, 0, 0] : List Byte).map some) = true := by decide +kernel

theorem test_codecCompress_abra : answers (exec .codecCompress (input abra))
    (fun t => t.res == 52#64 && outBytes t 52 == abraContainer.map some && t.bsWr == 23) = true := by
  decide +kernel

theorem test_codecDecompress : answers (exec .codecDecompress (input abraContainer))
    (fun t => t.res == 11#64 && outBytes t 11 == abra.map some && t.bsRd == 23 && t.ct.toList == emptyCodes.toList) =
    true := by decide +kernel

/-- The container without its last byte (95_test_vectors.md C10). -/
theorem test_codecDecompress_truncated : answers (exec .codecDecompress (input abraContainer.dropLast))
    (fun t => t.err == .corruptPayload && t.outLen == 0 && t.res == 49#64 && t.bsRd == 16) = true := by
  decide +kernel

/-! ### Host actions (10_state.md R40) -/

/-- From power-up the block idles (70_reset_and_hazards.md R252). -/
theorem test_step_idle : step State.reset = .next State.reset := rfl

theorem test_withFetchWord :
    answers (step (State.reset.withFetchWord 32 0x00010011)) (fun t => t.bs == [true]) = true := by
  decide +kernel

/-- A dropped command, then ERR_CLEAR (60_exceptions.md R235, R236). -/
theorem test_sticky :
    answers (step { State.reset with err := .noTree, host := [.writeReg 8 0 0x00010011#64] })
      (fun t => t.err == .noTree && t.bs == []) = true ∧
    answers (step { State.reset with err := .noTree, host := [.writeReg 8 0 1#64] })
      (fun t => t.err == .none) = true := by decide +kernel

/-- An unwritten IN byte faults the command that reads it (93_implementation_defined.md U4). -/
theorem test_unwritten :
    (match exec .faAnalyze { State.reset with inLen := 1#64 } with
      | .fault (.unwrittenInput a) => a == 0
      | _ => false) = true := by decide +kernel

/-! ### Host programs (30_encoding.md R78 to R80) -/

/-- Steps 1, 5 and 7 of 95_test_vectors.md S1, as text. -/
theorem test_assemble :
    assemble ["bs.wbit 1 ; a comment".toList, "opnd 0xA5".toList, "bs.wbits 8".toList, "".toList,
      "bs.rbits 8".toList] =
    some [.writeReg 8 0 0x00010011#64, .writeReg 8 8 0xA5#64, .writeReg 8 0 0x00000812#64,
      .writeReg 8 0 0x00000814#64] := by decide +kernel

theorem test_assemble_operands :
    assembleLine "fa.read 'A'".toList = some [.writeReg 8 0 0x00410022#64] ∧
    assembleLine "ct.word 'B', 0".toList = some [.writeReg 8 0 0x00420033#64] ∧
    assembleLine "bs.rbits 64".toList = none ∧
    assembleLine "rd RES".toList = some [.readReg 8 0x10] := by decide +kernel

theorem test_assemble_pseudo :
    assembleLine "in.set 41 42".toList =
      some [.writeIn 0 0x41#8, .writeIn 1 0x42#8, .writeReg 8 0x20 2#64] ∧
    assembleLine "bs.wbits.v 8, 0xA5".toList =
      some [.writeReg 8 8 0xA5#64, .writeReg 8 0 0x00000812#64] ∧
    assembleLine "ht.prepare".toList =
      some [.writeReg 8 0 0x30#64, .writeReg 8 0 0x31#64] := by decide +kernel

/-! ### Witnesses: for every statement of Certificates/Slice0/Obligations.lean that has hypotheses, a
state and operands that meet them, clause by clause, at the ends of their ranges -/

/-- The state a command answers. -/
def runOne (i : Instr) (s : State) : State := nextOf (exec i s) s

/-- The state a step answers. -/
def stepOne (s : State) : State := nextOf (step s) s

theorem exec_runOne {i : Instr} {s : State} (h : answers (exec i s) (fun _ => true) = true) :
    exec i s = .next (runOne i s) := eq_next_of_answers s h

theorem step_stepOne {s : State} (h : answers (step s) (fun _ => true) = true) :
    step s = .next (stepOne s) := eq_next_of_answers s h

/-- A block of four bytes of IN, four of OUT and eight bits of BS, after power-up. -/
def tiny : State := State.powerUp { inCap := 4, outCap := 4, bsCapBits := 8 }

/-- "AAAA" fills the IN of `tiny`. -/
def tinyFull : State := withInput [0x41#8, 0x41#8, 0x41#8, 0x41#8] tiny

/-- `abraState` with host actions pending. -/
def pending (l : List HostAction) : State := { abraState with host := l }

/-- `pending` with an error. -/
def failed (l : List HostAction) : State := { pending l with err := .noTree }

theorem abraState_inv : StateInv abraState where
  caps := by decide
  readCursor := by decide
  writeCursor := by decide
  outLen := by decide
  outWritten := by decide
  freq := by decide +kernel
  tree := by decide +kernel
  codes := .inr rfl
  input := by decide +kernel
  output := by decide

theorem pending_inv (l : List HostAction) : StateInv (pending l) :=
  { abraState_inv with }

/-- `abraState` after a write of one byte to OUT, at its last address but one free. -/
def written : State := { pending [.readOut 0] with outBuf := [(0, 0x41#8)], outLen := 1 }

theorem written_inv : StateInv written :=
  { abraState_inv with
    outLen := by decide
    outWritten := by decide
    output := by decide }

theorem inputReady_abra : InputReady 0 abraState := by
  refine ⟨by decide, fun a _ h => ?_⟩
  have : ∀ a < abraState.inLenNat, (Mem.read abraState.inBuf a).isSome := by decide +kernel
  exact this a h

theorem inputReady_tiny (off : Nat) : InputReady off tinyFull := by
  refine ⟨by decide, fun a _ h => ?_⟩
  have : ∀ a < tinyFull.inLenNat, (Mem.read tinyFull.inBuf a).isSome := by decide +kernel
  exact this a h

/-! Encoding and the step -/

theorem witness_DecodeOfEncodeIsIdentity :
    (Instr.bsWbits 63).wellFormed = true ∧ (Instr.ctWord 0xFF#8 3).wellFormed = true := by decide

theorem witness_DecodedValueIsTheEncoding :
    decode 0x0000000003FF0033#64 = .ok (.ctWord 0xFF#8 3) := by decide +kernel

theorem witness_CommandLinesSpellTheirCommands :
    (Instr.bsRbits 63).wellFormed = true ∧ readCommand "bs.rbits" [63] = some (.bsRbits 63) := by
  decide +kernel

theorem witness_StepRunsTheDecodedCommand :
    (∃ (s : State) (rest : List HostAction) (v : Word) (i : Instr), s.err = .none ∧
      decode v = .ok i ∧ s.host = .writeReg 8 0x00 v :: rest) ∧
    (∃ (s : State) (nbits w : Nat) (i : Instr), s.err = .none ∧ decodeTableWord nbits w = some i) ∧
    (∃ (s : State) (rest : List HostAction) (i : Instr), s.err = .none ∧ i.wellFormed = true ∧
      s.host = (HostLine.command i).expand ++ rest) :=
  ⟨⟨pending [.writeReg 8 0x00 0x00000812#64], [], 0x00000812#64, .bsWbits 8, rfl, by decide +kernel, rfl⟩,
    ⟨State.reset, 32, 0x00000812, .bsWbits 8, rfl, by decide +kernel⟩,
    ⟨pending [issue .decSym], [], .decSym, rfl, rfl, rfl⟩⟩

theorem witness_PendingErrorDropsCommands :
    (∃ (s : State) (rest : List HostAction) (v : Word), s.err ≠ .none ∧ v ≠ 1#64 ∧
      s.host = .writeReg 8 0x00 v :: rest) ∧
    (∃ (s : State) (rest : List HostAction) (v : Word), s.err ≠ .none ∧
      s.host = .writeReg 8 0x08 v :: rest) ∧
    (∃ (s : State) (rest : List HostAction) (v : Word), s.err ≠ .none ∧
      s.host = .writeReg 8 0x20 v :: rest) ∧
    (∃ (s : State) (rest : List HostAction) (a : Nat) (x : Byte), s.err ≠ .none ∧ a < s.caps.inCap ∧
      s.host = .writeIn a x :: rest) ∧
    (∃ (s : State) (rest : List HostAction) (off : Nat), s.err ≠ .none ∧ off % 8 = 0 ∧ off < 0x100 ∧
      s.host = .readReg 8 off :: rest) :=
  ⟨⟨failed [.writeReg 8 0x00 0x0000000100000001#64], [], _, by decide, by decide, rfl⟩,
    ⟨failed [.writeReg 8 0x08 7#64], [], _, by decide, rfl⟩,
    ⟨failed [.writeReg 8 0x20 7#64], [], _, by decide, rfl⟩,
    ⟨failed [.writeIn 4095 7#8], [], _, _, by decide, by decide, rfl⟩,
    ⟨failed [.readReg 8 0xF8], [], _, by decide, by decide, by decide, rfl⟩⟩

theorem witness_OnlyErrClearAndResetClearAnError :
    (∃ (s : State) (rest : List HostAction), s.host = .writeReg 8 0x00 1#64 :: rest) ∧
    (∃ s t : State, s.err ≠ .none ∧ step s = .next t ∧ t.err ≠ s.err) :=
  ⟨⟨pending [.writeReg 8 0x00 1#64], [], rfl⟩,
    ⟨failed [.reset], _, by decide, step_stepOne (by decide +kernel), by decide +kernel⟩⟩

theorem witness_IllegalCommandChangesOnlyErr : ∃ (s : State) (rest : List HostAction) (v : Word)
    (r : Illegal), s.err = .none ∧ decode v = .error r ∧ s.host = .writeReg 8 0x00 v :: rest :=
  ⟨pending [.writeReg 8 0x00 0x62#64], [], _, .unassignedOpcode, rfl, by decide +kernel, rfl⟩

/-! Registers, host accesses and reset -/

theorem witness_RegisterWindowIsAsMapped :
    (∀ off ∈ [0x00, 0x08, 0x10, 0x18, 0x20, 0x28, 0x30, 0x38, 0x40, 0xF8],
      ∃ (s : State) (rest : List HostAction), StateInv s ∧ off % 8 = 0 ∧ off < 0x100 ∧
        s.host = .readReg 8 off :: rest) ∧
    (∀ off ∈ [0x08, 0x10, 0x18, 0x20, 0x28, 0x30, 0x38, 0x40, 0xF8],
      ∃ (s : State) (rest : List HostAction) (v : Word), off % 8 = 0 ∧ off < 0x100 ∧ off ≠ 0x00 ∧
        s.host = .writeReg 8 off v :: rest) := by
  constructor
  · intro off h
    refine ⟨pending [.readReg 8 off], [], pending_inv _, ?_, ?_, rfl⟩ <;> revert off <;> decide
  · intro off h
    refine ⟨pending [.writeReg 8 off 7#64], [], 7#64, ?_, ?_, ?_, rfl⟩ <;> revert off <;> decide

theorem witness_StatusHoldsErrAndTreeValid :
    (∀ e : Err, ∃ s : State, s.err = e) ∧ abraState.tree ≠ .none ∧ tiny.tree = .none :=
  ⟨fun e => ⟨{ tiny with err := e }, rfl⟩, by decide, rfl⟩

theorem witness_HostReadsArePureAndWritesIdempotent :
    (∀ act ∈ [HostAction.readReg 8 0x38, .readIn 4095, .readOut 4095],
      ∃ s t : State, s.host = [act, act] ∧ step s = .next t) ∧
    (∀ act ∈ [HostAction.writeReg 8 0x08 7#64, .writeReg 8 0xF8 7#64, .writeIn 4095 7#8],
      ∃ s t : State, s.host = [act, act] ∧ step s = .next t) := by
  constructor
  · intro act h
    refine ⟨pending [act, act], stepOne (pending [act, act]), rfl, step_stepOne ?_⟩
    simp only [List.mem_cons, List.not_mem_nil, or_false] at h
    rcases h with rfl | rfl | rfl <;> rfl
  · intro act h
    refine ⟨pending [act, act], stepOne (pending [act, act]), rfl, step_stepOne ?_⟩
    simp only [List.mem_cons, List.not_mem_nil, or_false] at h
    rcases h with rfl | rfl | rfl <;> rfl

theorem witness_HostAccessesOfBuffersAndRefusals :
    (∃ (s : State) (a : Nat) (x : Byte), a < s.caps.inCap ∧ s.host = [.writeIn a x]) ∧
    (∃ (s : State) (a : Nat) (x : Byte), a < s.caps.inCap ∧ Mem.read s.inBuf a = some x ∧
      s.host = [.readIn a]) ∧
    (∃ (s : State) (a : Nat), StateInv s ∧ a < s.outLen ∧ s.host = [.readOut a]) ∧
    (∃ (s : State) (n : Nat), n ≠ 8 ∧ s.host = [.readReg n 0x08]) ∧
    (∃ (s : State) (off : Nat) (v : Word), off % 8 ≠ 0 ∧ s.host = [.writeReg 8 off v]) ∧
    (∃ (s : State) (off : Nat), off % 8 = 0 ∧ 0x100 ≤ off ∧ s.host = [.readReg 8 off]) ∧
    (∃ (s : State) (a : Nat) (x : Byte), s.caps.inCap ≤ a ∧ s.host = [.writeIn a x]) ∧
    (∃ (s : State) (a : Nat), s.caps.outCap ≤ a ∧ s.host = [.readOut a]) ∧
    (∃ s : State, s.host = [.other]) :=
  ⟨⟨pending [.writeIn 4095 7#8], 4095, 7#8, by decide, rfl⟩,
    ⟨pending [.readIn 10], 10, 0x41#8, by decide, by decide +kernel, rfl⟩,
    ⟨written, 0, written_inv, by decide, rfl⟩,
    ⟨pending [.readReg 4 0x08], 4, by decide, rfl⟩,
    ⟨pending [.writeReg 8 0x0C 7#64], 0x0C, 7#64, by decide, rfl⟩,
    ⟨pending [.readReg 8 0x100], 0x100, by decide, by decide, rfl⟩,
    ⟨pending [.writeIn 4096 7#8], 4096, 7#8, by decide, rfl⟩,
    ⟨pending [.readOut 4096], 4096, by decide, rfl⟩,
    ⟨pending [.other], rfl⟩⟩

theorem witness_ResetRestoresTheResetValues : ∃ s : State, s.host = [.reset] :=
  ⟨failed [.reset], rfl⟩

theorem witness_InvariantHoldsAtReset :
    Capacities.legal { inCap := 1, outCap := 1, bsCapBits := 8 } ∧
    Capacities.legal { inCap := 2 ^ 64 - 1, outCap := 2 ^ 64 - 1, bsCapBits := 2 ^ 64 - 8 } := by
  decide

theorem witness_EveryStepKeepsTheInvariant : ∃ s t : State, StateInv s ∧ step s = .next t :=
  ⟨pending [issue .encBlock], _, pending_inv _, step_stepOne (by decide +kernel)⟩

theorem witness_CodeTableIsAlwaysAPrefixCode :
    ∃ (s : State) (b : Byte) (p : Bits), StateInv s ∧ lookup s.ct b = some p :=
  ⟨abraState, 0x52#8, bits [1, 1, 1], abraState_inv, by decide +kernel⟩

/-! Whole-machine rules -/

/-- `tiny` with IN_LEN = 4 and only IN[3] unwritten. -/
def lastUnwritten : State := { withInput [0x41#8, 0x41#8, 0x41#8] tiny with inLen := 4#64 }

/-- Bytes in IN, and IN_LEN one more than were written. -/
def oneShort (l : List Byte) : State := { input l with inLen := BitVec.ofNat 64 (l.length + 1) }

theorem witness_UnwrittenInputStopsTheReader :
    (lastUnwritten.inLenNat ≤ lastUnwritten.caps.inCap ∧ firstUnwritten 0 3 lastUnwritten) ∧
    (∃ s : State, s.inLenNat ≤ s.caps.inCap ∧ firstUnwritten s.opnd.toNat 3 s ∧
      8 * (s.inLenNat - s.opnd.toNat) ≤ s.caps.bsCapBits) ∧
    (∃ (s : State) (l : List Byte), s.inLenNat ≤ s.caps.inCap ∧ l.length = 3 ∧ holds s.inBuf 0 l ∧
      firstUnwritten 0 3 s ∧ (∀ b ∈ l, (lookup s.ct b).isSome) ∧
      s.bs.length + (encodeAll s.ct l).length = s.caps.bsCapBits) ∧
    (∃ s : State, s.inLenNat ≤ s.caps.inCap ∧ headerStopsAt 3 s) ∧
    (∃ s : State, s.inLenNat ≤ s.caps.inCap ∧ headerStopsAt 21 s ∧ s.inLenNat = 22) ∧
    (∃ (s : State) (l : List (Byte × Word)), s.inLenNat ≤ s.caps.inCap ∧ l ≠ [] ∧ goodEntries l ∧
      holds s.inBuf 0 (entryBytes l) ∧ firstUnwritten (entryBytes l).length 13 s ∧
      8 * (s.inLenNat - (entryBytes l).length) ≤ s.caps.bsCapBits) := by
  refine ⟨by decide +kernel, ⟨{ lastUnwritten with opnd := 3#64 }, by decide +kernel⟩,
    ⟨{ lastUnwritten with ct := abraCodes, bs := List.replicate 5 true }, [0x41#8, 0x41#8, 0x41#8],
      by decide +kernel⟩,
    ⟨lastUnwritten, by decide, by decide, .inl (by decide +kernel)⟩,
    ⟨oneShort [2, 0, 0, 0, 0x61, 3, 0, 0, 0, 0, 0, 0, 0, 0x62, 1, 0, 0, 0, 0, 0, 0], by decide, ?_, rfl⟩,
    ⟨oneShort [1, 0, 0, 0, 0x61, 3, 0, 0, 0, 0, 0, 0, 0], [(0x61#8, 3#64)], by decide, by decide,
      ⟨by decide, by simp, by decide⟩, by decide +kernel⟩⟩
  exact ⟨by decide, .inr ⟨2, [(0x61#8, 3#64)], by decide, by decide, by decide,
    ⟨by decide, by simp, by decide⟩, by decide +kernel⟩⟩

theorem witness_CommandsLeaveHostStateAlone : ∃ t, exec .codecCompress abraState = .next t :=
  ⟨_, exec_runOne (by decide +kernel)⟩

theorem witness_PrimitiveErrorsAreAtomic : ∃ (i : Instr) (s t : State), isSequence i = false ∧
    s.err = .none ∧ exec i s = .next t ∧ t.err ≠ .none :=
  ⟨.bsWbits 33, abraState, _, rfl, rfl, exec_runOne (by decide +kernel), by decide +kernel⟩

theorem witness_FailedCompositeClearsOutLen :
    (∃ s t : State, s.err = .none ∧ exec .codecCompress s = .next t ∧ t.err ≠ .none) ∧
    (∃ s t : State, s.err = .none ∧ exec .codecDecompress s = .next t ∧ t.err ≠ .none) ∧
    (∃ s t : State, s.err = .none ∧ exec .encBlock s = .next t ∧ t.err ≠ .none ∧
      s.inLenNat ≤ s.caps.inCap) ∧
    (∃ s t : State, s.err = .none ∧ exec .decBlock s = .next t ∧ t.err ≠ .none ∧ s.tree ≠ .none) :=
  ⟨⟨tinyFull, _, rfl, exec_runOne (by decide +kernel), by decide +kernel⟩,
    ⟨tinyFull, _, rfl, exec_runOne (by decide +kernel), by decide +kernel⟩,
    ⟨tinyFull, _, rfl, exec_runOne (by decide +kernel), by decide +kernel, by decide⟩,
    ⟨{ tiny with tree := abraTree, bs := [false, true], opnd := 2#64 }, _, rfl,
      exec_runOne (by decide +kernel), by decide +kernel, by decide⟩⟩

/-- For OnlyTheNamedCommandsWriteRes, OnlyTheNamedCommandsMoveTheStream, OnlyTheNamedCommandsWriteTables
and OutIsAppendOnly: one command outside each list of 10_state.md R23, R27 to R29, R31 and R32 to R35,
and one that fails. -/
theorem witness_OnlyTheNamedCommands :
    (∃ t, exec .hdrWrite abraState = .next t) ∧ (∃ t, exec .encBlock abraState = .next t) ∧
    (∃ t, exec .htCodes abraState = .next t) ∧ (∃ t, exec .bsGetbuf abraState = .next t) ∧
    (∃ t, exec .outClear abraState = .next t) ∧
    (∃ t : State, exec .bsRbit abraState = .next t ∧ abraState.err = .none ∧ t.err ≠ .none) :=
  ⟨⟨_, exec_runOne (by decide +kernel)⟩, ⟨_, exec_runOne (by decide +kernel)⟩,
    ⟨_, exec_runOne (by decide +kernel)⟩, ⟨_, exec_runOne (by decide +kernel)⟩,
    ⟨_, exec_runOne (by decide +kernel)⟩, ⟨_, exec_runOne (by decide +kernel), rfl, by decide +kernel⟩⟩

/-! BitStream -/

/-- `tiny` with `n` bits in BS. -/
def filled (n : Nat) : State := { tiny with bs := List.replicate n true }

theorem witness_SingleBitWriteAndRead :
    ((filled 7).bs.length + 1 ≤ (filled 7).caps.bsCapBits) ∧
    ((filled 8).caps.bsCapBits < (filled 8).bs.length + 1) ∧
    (∃ s : State, s.bsRd < s.bs.length) ∧ (∃ s : State, s.bsRd = s.bs.length) :=
  ⟨by decide, by decide, ⟨{ filled 8 with bsRd := 7 }, by decide⟩, ⟨{ filled 8 with bsRd := 8 }, by decide⟩⟩

theorem witness_WriteBitsAppendsTheLowBitsOfOpnd :
    (∃ s : State, 32 ≤ 32 ∧ s.bs.length + 32 ≤ s.caps.bsCapBits) ∧
    ((filled 7).bs.length + 1 ≤ (filled 7).caps.bsCapBits) ∧ 32 < 33 ∧
    ((filled 7).caps.bsCapBits < (filled 7).bs.length + 2) :=
  ⟨⟨abraState, by decide⟩, by decide, by decide, by decide⟩

theorem witness_ReadBitsComposesMsbFirst :
    (∃ s : State, s.bsRd + 32 ≤ s.bs.length) ∧ (filled 8).bsRd + 8 ≤ (filled 8).bs.length ∧ 32 < 33 ∧
    (filled 8).bs.length < (filled 8).bsRd + 9 :=
  ⟨⟨stream (List.replicate 32 true) 0, by decide⟩, by decide, by decide, by decide⟩

theorem witness_GetBufferPacksMsbFirst :
    (∃ s : State, s.outLen + (s.bs.length + 7) / 8 ≤ s.caps.outCap ∧ s.bs.length = 1) ∧
    (∃ s : State, s.caps.outCap < s.outLen + (s.bs.length + 7) / 8) :=
  ⟨⟨{ filled 1 with outLen := 3 }, by decide⟩, ⟨{ filled 1 with outLen := 4 }, by decide⟩⟩

theorem witness_LoadReplacesTheStream :
    (∃ s : State, InputReady s.opnd.toNat s ∧ s.opnd.toNat ≤ s.inLenNat ∧
      8 * (s.inLenNat - s.opnd.toNat) ≤ s.caps.bsCapBits ∧ s.inLenNat - s.opnd.toNat = 1) ∧
    (∃ s : State, s.caps.inCap < s.inLenNat) ∧ (∃ s : State, s.inLenNat < s.opnd.toNat) ∧
    (∃ s : State, s.inLenNat ≤ s.caps.inCap ∧ s.opnd.toNat ≤ s.inLenNat ∧
      s.caps.bsCapBits < 8 * (s.inLenNat - s.opnd.toNat)) :=
  ⟨⟨{ tinyFull with opnd := 3#64 }, inputReady_tiny 3, by decide, by decide, by decide⟩,
    ⟨{ tiny with inLen := 5#64 }, by decide⟩, ⟨{ tinyFull with opnd := 5#64 }, by decide⟩,
    ⟨{ tinyFull with opnd := 2#64 }, by decide, by decide, by decide⟩⟩

theorem witness_SplitWritesReadBackInAnySplit :
    ∃ (pieces : List Piece) (counts : List Nat) (s : State), s.err = .none ∧ s.bsRd = s.bs.length ∧
      (∀ v cnt, .inr (v, cnt) ∈ pieces → cnt ≤ 32) ∧ (∀ c ∈ counts, c ≤ 32) ∧
      counts.sum = (pieces.flatMap pieceBits).length ∧
      s.bs.length + counts.sum ≤ s.caps.bsCapBits ∧ counts.length = 2 := by
  refine ⟨[.inl true, .inr (0xA5#64, 32)], [32, 1], State.reset, rfl, rfl, ?_, by decide, by decide,
    by decide, rfl⟩
  intro v cnt h
  simp only [List.mem_cons, reduceCtorEq, Sum.inr.injEq, Prod.mk.injEq, List.not_mem_nil, or_false,
    false_or] at h
  omega

/-- One bit in BS, and its one byte in OUT copied to IN. -/
theorem witness_GetBufferThenLoadPads : ∃ s t u : State, s.err = .none ∧ exec .bsGetbuf s = .next t ∧
    t.err = .none ∧ u.opnd = 0#64 ∧ u.inLenNat = (s.bs.length + 7) / 8 ∧ u.inLenNat ≤ u.caps.inCap ∧
    8 * u.inLenNat ≤ u.caps.bsCapBits ∧
    (∀ j, j < u.inLenNat → Mem.read u.inBuf j = Mem.read t.outBuf (s.outLen + j)) ∧ s.bs ≠ [] :=
  ⟨filled 1, _, withInput [0x80#8] tiny, rfl, exec_runOne (by decide +kernel), by decide +kernel, rfl,
    by decide, by decide, by decide, by decide +kernel, by decide⟩

/-! Frequencies, tree and codes -/

theorem witness_AnalyzeCountsTheInput :
    InputReady 0 tinyFull ∧ ∃ s : State, s.caps.inCap < s.inLenNat :=
  ⟨inputReady_tiny 0, { tiny with inLen := 5#64 }, by decide⟩

/-- `tinyFull` with one key of frequency `k`. -/
def nearlyFull (k : Word) : State := { tinyFull with ft := tableOf [(0x42#8, k)] }

theorem witness_AccumulateAddsTheCounts :
    (∃ s : State, InputReady 0 s ∧ freqSum s.ft + s.inLenNat = 2 ^ 64 - 1) ∧
    (∃ s : State, s.caps.inCap < s.inLenNat) ∧
    (∃ s : State, InputReady 0 s ∧ 2 ^ 64 - 1 < freqSum s.ft + s.inLenNat) :=
  ⟨⟨nearlyFull (BitVec.ofNat 64 (2 ^ 64 - 5)), inputReady_tiny 0, by decide +kernel⟩,
    ⟨{ tiny with inLen := 5#64 }, by decide⟩,
    ⟨nearlyFull (BitVec.ofNat 64 (2 ^ 64 - 4)), inputReady_tiny 0, by decide +kernel⟩⟩

theorem witness_FrequencyReads : StateInv abraState := abraState_inv

theorem witness_ChunkedCountingMatchesTheWhole :
    ∃ (cs : List (List Byte)) (s : State), s.err = .none ∧ (∀ c ∈ cs, c.length ≤ s.caps.inCap) ∧
      freqSum s.ft + cs.flatten.length ≤ 2 ^ 64 - 1 ∧ cs.flatten.length ≤ 2 ^ 64 - 1 ∧ cs.length = 2 :=
  ⟨[[0x41#8, 0x42#8, 0x52#8, 0x41#8], [0x43#8]], tiny, rfl, by decide, by decide +kernel, by decide, rfl⟩

theorem witness_BuildMakesTheTreeOfTheTable :
    (∃ b, lookup abraState.ft b ≠ 0#64) ∧ 2 ≤ (keys abraState.ft).length ∧
    (keys (tableOf [(0x61#8, 3#64)])).length = 1 ∧ (∀ b, lookup tiny.ft b = 0#64) :=
  ⟨⟨0x41#8, by decide +kernel⟩, by decide +kernel, by decide +kernel, lookup_emptyFreq⟩

/-- Two keys, the fewest of a table that is merged. -/
theorem witness_BuildMergesInKeyOrder :
    ∃ s : State, (seeds s.ft).length = 2 ∧ ∃ t, exec .htBuild s = .next t :=
  ⟨{ tiny with ft := tableOf [(0x61#8, 1#64), (0x62#8, 1#64)] }, by decide +kernel, _,
    exec_runOne (by decide +kernel)⟩

theorem witness_CodesAreTheTreePaths : abraState.tree.symbols.Nodup := by decide

/-- `tiny` with one key. -/
def oneKey : State := { tiny with ft := tableOf [(0x61#8, 3#64)] }

/-- The counts of "ABRACADABRA" (R130). -/
theorem counts_abra (b : Byte) : abra.count b = (lookup abraTable b).toNat := by
  have h : (allBytes.all fun b => abra.count b == (lookup abraTable b).toNat) = true := by decide +kernel
  simpa using List.all_eq_true.mp h b (mem_allBytes b)

/-- For BuiltCodesArePrefixFree, BuiltCodesMeetKraft and PayloadBitsAreTheNodeFrequencies: a built tree and
its codes, for two keys or more and for one key (R146). -/
theorem witness_BuiltCodes :
    (∃ s t u : State, (∃ b, lookup s.ft b ≠ 0#64) ∧ exec .htBuild s = .next t ∧
      exec .htCodes t = .next u ∧ 2 ≤ (keys s.ft).length ∧ (∃ f l r, t.tree = .full f l r) ∧
      (lookup u.ct 0x41#8).isSome ∧ ∀ b, abra.count b = (lookup s.ft b).toNat) ∧
    (∃ s t u : State, (∃ b, lookup s.ft b ≠ 0#64) ∧ exec .htBuild s = .next t ∧
      exec .htCodes t = .next u ∧ keys s.ft = [0x61#8]) :=
  ⟨⟨abraState, _, _, ⟨0x41#8, by decide +kernel⟩, exec_runOne (by decide +kernel),
      exec_runOne (by decide +kernel), by decide +kernel, ⟨11, .leaf 0x41#8 5, .node 6 (.node 2 (.leaf 0x43#8 1)
        (.leaf 0x44#8 1)) (.node 4 (.leaf 0x42#8 2) (.leaf 0x52#8 2)), by decide +kernel⟩,
      by decide +kernel, counts_abra⟩,
    ⟨oneKey, _, _, ⟨0x61#8, by decide +kernel⟩, exec_runOne (by decide +kernel),
      exec_runOne (by decide +kernel), by decide +kernel⟩⟩

theorem witness_MoreFrequentSymbolsGetShorterCodes : ∃ (s t u : State) (a b : Byte),
    exec .htBuild s = .next t ∧ exec .htCodes t = .next u ∧ lookup s.ft b ≠ 0#64 ∧
    (lookup s.ft b).toNat < (lookup s.ft a).toNat :=
  ⟨abraState, _, _, 0x42#8, 0x43#8, exec_runOne (by decide +kernel), exec_runOne (by decide +kernel),
    by decide +kernel, by decide +kernel⟩

theorem witness_CodeTableReads : StateInv abraState ∧ lookup abraState.ct 0x5A#8 = Option.none ∧
    lookup abraState.ct 0x42#8 = some (bits [1, 1, 0]) :=
  ⟨abraState_inv, by decide +kernel, by decide +kernel⟩

/-! Encoder and decoder -/

/-- `tiny` with the codes of "ABRACADABRA" and `n` bits in BS. -/
def coding (n : Nat) : State := { filled n with ct := abraCodes }

theorem witness_EncodeSymbolAppendsTheCode :
    (lookup (coding 5).ct 0x42#8 = some (bits [1, 1, 0]) ∧ (coding 5).bs.length + 3 ≤ (coding 5).caps.bsCapBits) ∧
    lookup (coding 5).ct 0x5A#8 = Option.none ∧
    (lookup (coding 6).ct 0x42#8 = some (bits [1, 1, 0]) ∧
      (coding 6).caps.bsCapBits < (coding 6).bs.length + 3) := by decide +kernel

/-- "AB" and "AZ" in the IN of `coding`. -/
def codingAB (n : Nat) (b : Byte) : State := withInput [0x41#8, b] (coding n)

theorem witness_EncodeBlockAppendsInOrder :
    (∃ (s : State) (l : List Byte), holds s.inBuf 0 l ∧ s.inLenNat = l.length ∧
      s.inLenNat ≤ s.caps.inCap ∧ (∀ b ∈ l, (lookup s.ct b).isSome) ∧
      s.bs.length + (encodeAll s.ct l).length = s.caps.bsCapBits) ∧
    (∃ s : State, s.caps.inCap < s.inLenNat) ∧
    (∃ (s : State) (l : List Byte) (b : Byte), holds s.inBuf 0 (l ++ [b]) ∧ l.length < s.inLenNat ∧
      s.inLenNat ≤ s.caps.inCap ∧ (∀ c ∈ l, (lookup s.ct c).isSome) ∧
      s.bs.length + (encodeAll s.ct l).length ≤ s.caps.bsCapBits ∧ lookup s.ct b = Option.none) ∧
    (∃ (s : State) (l : List Byte) (b : Byte) (p : Bits), holds s.inBuf 0 (l ++ [b]) ∧
      l.length < s.inLenNat ∧ s.inLenNat ≤ s.caps.inCap ∧ (∀ c ∈ l, (lookup s.ct c).isSome) ∧
      s.bs.length + (encodeAll s.ct l).length ≤ s.caps.bsCapBits ∧ lookup s.ct b = some p ∧
      s.caps.bsCapBits < s.bs.length + (encodeAll s.ct l).length + p.length) :=
  ⟨⟨codingAB 4 0x42#8, [0x41#8, 0x42#8], by decide +kernel⟩, ⟨{ tiny with inLen := 5#64 }, by decide⟩,
    ⟨codingAB 7 0x5A#8, [0x41#8], 0x5A#8, by decide +kernel⟩,
    ⟨codingAB 5 0x42#8, [0x41#8], 0x42#8, bits [1, 1, 0], by decide +kernel⟩⟩

/-- `tiny` with the tree of "ABRACADABRA" and the bits `l`. -/
def decoding (l : Bits) : State := { tiny with tree := abraTree, bs := l }

theorem not_reads_of_none {r : Root} {l : Bits} (h : traverseRoot r l = Option.none) (p : Bits) (b : Byte)
    (hr : r.reads p b) : ¬ p <+: l := by
  rintro ⟨q, rfl⟩
  cases r with
  | none => exact hr
  | wrap f c g =>
    obtain ⟨hp, -⟩ := hr
    match p, hp with
    | x :: _, _ => cases h
  | full f x y =>
    obtain ⟨g, hg⟩ := hr
    have aux : ∀ (t : HTree) (p : Bits), t.follow p = some (.leaf b g) →
        traverse t (p ++ q) ≠ Option.none := by
      intro t
      induction t with
      | leaf c k => intro p _; simp [traverse]
      | node k l r ihl ihr =>
        intro p hp
        match p, hp with
        | false :: p, hp =>
          have := ihl p hp
          simp only [List.cons_append, traverse]
          cases ht : traverse l (p ++ q) with
          | none => exact absurd ht this
          | some x => simp
        | true :: p, hp =>
          have := ihr p hp
          simp only [List.cons_append, traverse]
          cases ht : traverse r (p ++ q) with
          | none => exact absurd ht this
          | some x => simp
    exact aux _ p hg h

theorem witness_DecodeSymbolFollowsTheTree :
    (∃ s : State, s.tree = .none) ∧
    (∃ (s : State) (p : Bits) (b : Byte), s.tree.reads p b ∧ p <+: s.bs.drop s.bsRd) ∧
    (∃ s : State, s.tree ≠ .none ∧ ∀ p b, s.tree.reads p b → ¬ p <+: s.bs.drop s.bsRd) ∧
    (∃ (s : State) (f : Nat) (l r : HTree), s.tree = .full f l r ∧
      (HTree.node f l r).depth = (s.bs.drop s.bsRd).length) ∧
    (∃ (s : State) (f g : Nat) (c : Byte) (x : Bool) (rest : Bits), s.tree = .wrap f c g ∧
      s.bs.drop s.bsRd = x :: rest) :=
  ⟨⟨tiny, rfl⟩, ⟨decoding (bits [1, 1, 0]), bits [1, 1, 0], 0x42#8, ⟨2, rfl⟩, by decide⟩,
    ⟨decoding (bits [1, 1]), by decide, not_reads_of_none (by decide)⟩,
    ⟨decoding (bits [1, 1, 0]), 11, _, _, rfl, by decide⟩,
    ⟨{ tiny with tree := .wrap 3 0x61#8 3, bs := [true] }, 3, 3, 0x61#8, true, [], rfl, rfl⟩⟩

theorem spells_AB : abraTree.spells (bits [0, 1, 1, 0]) [0x41#8, 0x42#8] :=
  ⟨[bits [0], bits [1, 1, 0]], rfl, .cons ⟨5, rfl⟩ (.cons ⟨2, rfl⟩ .nil)⟩

theorem witness_DecodeBlockAppendsTheSymbols : ∃ (s : State) (bits : Bits) (out : List Byte),
    s.tree ≠ .none ∧ s.tree.spells bits out ∧ bits <+: s.bs.drop s.bsRd ∧
    s.opnd.toNat = out.length ∧ s.outLen + out.length = s.caps.outCap ∧ out ≠ [] :=
  ⟨{ decoding (bits [0, 1, 1, 0, 1]) with opnd := 2#64, outLen := 2 }, _, _, by decide, spells_AB,
    by decide, rfl, rfl, by decide⟩

theorem witness_DecodeBlockStopsAtTheFailingSymbol :
    (∃ s : State, s.tree = .none) ∧
    (∃ (s : State) (bits : Bits) (out : List Byte), s.tree ≠ .none ∧ s.tree.spells bits out ∧
      bits <+: s.bs.drop s.bsRd ∧ out.length < s.opnd.toNat ∧
      s.outLen + out.length ≤ s.caps.outCap ∧
      ∀ p b, s.tree.reads p b → ¬ p <+: (s.bs.drop s.bsRd).drop bits.length) ∧
    (∃ (s : State) (bits : Bits) (out : List Byte) (p : Bits) (b : Byte), s.tree ≠ .none ∧
      s.tree.spells bits out ∧ bits <+: s.bs.drop s.bsRd ∧ out.length < s.opnd.toNat ∧
      s.tree.reads p b ∧ p <+: (s.bs.drop s.bsRd).drop bits.length ∧
      s.outLen + out.length = s.caps.outCap) :=
  ⟨⟨tiny, rfl⟩,
    ⟨{ decoding (bits [0, 1, 1, 0, 1, 1]) with opnd := 3#64 }, _, _, by decide, spells_AB, by decide,
      by decide, by decide, not_reads_of_none (by decide)⟩,
    ⟨{ decoding (bits [0, 1, 1, 0, 0]) with opnd := 3#64, outLen := 2 }, _, _, bits [0], 0x41#8,
      by decide, spells_AB, by decide, by decide, ⟨5, rfl⟩, by decide, rfl⟩⟩

theorem witness_DecodeUndoesEncode : ∃ (s t u : State) (l : List Byte), StateInv s ∧ s.tree ≠ .none ∧
    s.ct = codesOf s.tree ∧ s.err = .none ∧ holds s.inBuf 0 l ∧ s.inLenNat = l.length ∧
    exec .encBlock s = .next t ∧ t.err = .none ∧ u = { t with opnd := s.inLen, bsRd := s.bs.length } ∧
    s.outLen + l.length ≤ s.caps.outCap ∧ l ≠ [] :=
  ⟨abraState, _, _, abra, abraState_inv, by decide, rfl, rfl, by decide +kernel, by decide,
    exec_runOne (by decide +kernel), by decide +kernel, rfl, by decide, by decide⟩

/-! Container and codec -/

theorem witness_WriteHeaderSerialisesTheTable :
    (∃ s : State, s.outLen + (4 + 9 * (keys s.ft).length) = s.caps.outCap ∧ keys s.ft ≠ []) ∧
    (∃ s : State, s.caps.outCap < s.outLen + (4 + 9 * (keys s.ft).length)) :=
  ⟨⟨{ oneKey with caps := { inCap := 4, outCap := 13, bsCapBits := 8 } }, by decide +kernel⟩,
    ⟨oneKey, by decide +kernel⟩⟩

/-- The header entries of "ABRACADABRA", not in ascending order. -/
def entries : List (Byte × Word) :=
  [(0x52#8, 2#64), (0x41#8, 5#64), (0x42#8, 2#64), (0x43#8, 1#64), (0x44#8, 1#64)]

theorem goodEntries_entries : goodEntries entries :=
  ⟨by decide, by simp [entries], by decide⟩

theorem witness_ParseHeaderReadsTheTable :
    (∃ (s : State) (l : List (Byte × Word)), goodEntries l ∧ holds s.inBuf 0 (entryBytes l) ∧
      (entryBytes l).length ≤ s.inLenNat ∧ s.inLenNat ≤ s.caps.inCap ∧ l ≠ []) ∧
    (∃ (s : State) (T : FreqTable), freqSum T ≤ 2 ^ 64 - 1 ∧ holds s.inBuf 0 (header T) ∧
      (header T).length ≤ s.inLenNat ∧ s.inLenNat ≤ s.caps.inCap ∧ keys T ≠ []) :=
  ⟨⟨input (entryBytes entries), entries, goodEntries_entries, by decide +kernel⟩,
    ⟨input abraContainer, abraTable, by decide +kernel⟩⟩

/-- A header that lists one byte and then a second entry `e`. -/
def twoEntries (e : Byte × Word) : State := input (entryBytes [(0x41#8, 0xFFFFFFFFFFFFFFFE#64), e])

theorem witness_ParseHeaderRejectsMalformedHeaders :
    (∃ s : State, s.caps.inCap < s.inLenNat) ∧
    (∃ s : State, s.inLenNat ≤ s.caps.inCap ∧ s.inLenNat = 3) ∧
    (∃ (s : State) (k : Nat), s.inLenNat ≤ s.caps.inCap ∧ 4 ≤ s.inLenNat ∧ k < 2 ^ 32 ∧
      holds s.inBuf 0 (leBytes k 4) ∧ k = 257) ∧
    (∃ (s : State) (k : Nat), s.inLenNat ≤ s.caps.inCap ∧ 4 ≤ s.inLenNat ∧ k < 2 ^ 32 ∧
      holds s.inBuf 0 (leBytes k 4) ∧ s.inLenNat + 9 = 4 + 9 * k) ∧
    (∀ e ∈ [((0x42 : Byte), (0 : Word)), (0x41#8, 1#64), (0x42#8, 2#64)],
      ∃ (s : State) (k : Nat) (l : List (Byte × Word)), s.inLenNat ≤ s.caps.inCap ∧ l.length < k ∧
        k ≤ 256 ∧ 4 + 9 * k ≤ s.inLenNat ∧ goodEntries l ∧
        holds s.inBuf 0 (leBytes k 4 ++ (l ++ [e]).flatMap fun e => e.1 :: leBytes e.2.toNat 8) ∧
        (e.2 = 0#64 ∨ e.1 ∈ l.map Prod.fst ∨
          2 ^ 64 - 1 < (l.map fun e => e.2.toNat).sum + e.2.toNat)) := by
  refine ⟨⟨{ tiny with inLen := 5#64 }, by decide⟩, ⟨input [0, 0, 0], by decide⟩,
    ⟨input [1, 1, 0, 0], 257, by decide +kernel⟩, ⟨input [1, 0, 0, 0], 1, by decide +kernel⟩, ?_⟩
  intro e he
  refine ⟨twoEntries e, 2, [(0x41#8, 0xFFFFFFFFFFFFFFFE#64)], ?_⟩
  simp only [List.mem_cons, List.not_mem_nil, or_false] at he
  rcases he with rfl | rfl | rfl <;>
    exact ⟨by decide +kernel, by decide, by decide, by decide +kernel,
      ⟨by decide, by simp, by decide +kernel⟩, by decide +kernel, by decide +kernel⟩

/-- "AAAA" in a block whose OUT holds 14 bytes, or only 13. -/
def compressing (outCap : Nat) : State :=
  { tinyFull with caps := { inCap := 4, outCap := outCap, bsCapBits := 8 } }

theorem witness_CompressWritesTheContainer :
    (∃ (s : State) (l : List Byte), l ≠ [] ∧ holds s.inBuf 0 l ∧ s.inLenNat = l.length ∧
      s.inLenNat ≤ s.caps.inCap ∧ (payloadBits l).length ≤ s.caps.bsCapBits ∧
      (container l).length = s.caps.outCap) ∧
    (∃ (s : State) (l : List Byte), l ≠ [] ∧ holds s.inBuf 0 l ∧ s.inLenNat = l.length ∧
      s.inLenNat ≤ s.caps.inCap ∧ (payloadBits l).length = s.caps.bsCapBits + 1) ∧
    (∃ (s : State) (l : List Byte), l ≠ [] ∧ holds s.inBuf 0 l ∧ s.inLenNat = l.length ∧
      s.inLenNat ≤ s.caps.inCap ∧ (payloadBits l).length ≤ s.caps.bsCapBits ∧
      (container l).length = s.caps.outCap + 1) ∧
    (∃ s : State, s.inLenNat = 0) ∧ (∃ s : State, s.caps.inCap < s.inLenNat) := by
  have hp : (payloadBits [0x41#8, 0x41#8, 0x41#8, 0x41#8]).length = 4 ∧
      (container [0x41#8, 0x41#8, 0x41#8, 0x41#8]).length = 14 := by
    decide +kernel
  exact ⟨⟨compressing 14, [0x41#8, 0x41#8, 0x41#8, 0x41#8], by decide, by decide +kernel, rfl, by decide,
      by rw [hp.1]; decide, hp.2⟩,
    ⟨{ compressing 14 with caps := { inCap := 4, outCap := 14, bsCapBits := 3 } },
      [0x41#8, 0x41#8, 0x41#8, 0x41#8], by decide, by decide +kernel, rfl, by decide, hp.1⟩,
    ⟨compressing 13, [0x41#8, 0x41#8, 0x41#8, 0x41#8], by decide, by decide +kernel, rfl, by decide,
      by rw [hp.1]; decide, hp.2⟩,
    ⟨tiny, rfl⟩, ⟨{ tiny with inLen := 5#64 }, by decide⟩⟩

/-- The container of "aaa": one entry, and a payload byte of which three bits are read (R196, R197). -/
theorem witness_DecompressDecodesTheContainer :
    (∃ (s : State) (l : List (Byte × Word)) (payload : List Byte) (bits : Bits) (out : List Byte),
      l ≠ [] ∧ goodEntries l ∧ holds s.inBuf 0 (entryBytes l ++ payload) ∧
      s.inLenNat = (entryBytes l ++ payload).length ∧ s.inLenNat ≤ s.caps.inCap ∧
      8 * payload.length ≤ s.caps.bsCapBits ∧ (treeOf (tableOf l)).spells bits out ∧
      bits <+: unpackBytes payload ∧ out.length = (l.map fun e => e.2.toNat).sum ∧
      out.length ≤ s.caps.outCap) ∧
    (∃ s : State, s.inLenNat = 0) ∧ (∃ s : State, s.caps.inCap < s.inLenNat) := by
  refine ⟨⟨input (entryBytes [(0x61#8, 3#64)] ++ [0x1F#8]), [(0x61#8, 3#64)], [0x1F#8],
      [false, false, false], [0x61#8, 0x61#8, 0x61#8], by decide, ⟨by decide, by simp, by decide +kernel⟩,
      by decide +kernel, by decide +kernel, by decide +kernel, by decide +kernel, ?_,
      by decide +kernel, by decide +kernel, by decide +kernel⟩,
    ⟨tiny, rfl⟩,
    ⟨{ tiny with inLen := 5#64 }, by decide⟩⟩
  have ht : treeOf (tableOf [(0x61#8, 3#64)]) = .wrap 3 0x61#8 3 := by decide +kernel
  rw [ht]
  exact ⟨[[false], [false], [false]], rfl, .cons ⟨rfl, rfl⟩ (.cons ⟨rfl, rfl⟩ (.cons ⟨rfl, rfl⟩ .nil))⟩

/-- The header of "ABRACADABRA" and two payload bytes, in a block that holds eight bits. -/
def smallStream : State :=
  { input (entryBytes entries ++ [0x6E#8, 0x8A#8]) with
    caps := { inCap := 4096, outCap := 4096, bsCapBits := 8 } }

theorem readHeader_short {s : State} (h : s.inLenNat ≤ s.caps.inCap) (h' : s.inLenNat < 4) :
    readHeader s = .error (.err .malformedHeader) := by
  have hp : parseHeader s = .error (.err .malformedHeader) := if_pos h'
  rw [readHeader, if_neg (Nat.not_lt.mpr h), hp]

theorem malformed_short {s : State} (h : s.inLenNat ≤ s.caps.inCap) (h' : s.inLenNat < 4) :
    exec .hdrParse { s with outLen := 0 } = .next { s with outLen := 0, err := .malformedHeader } := by
  show (primitive (readHeader { s with outLen := 0 }) _).outcome = _
  rw [readHeader_short (s := { s with outLen := 0 }) h h']; rfl

/-- The header of "aaa" and of 12 bytes `a`, each with a payload of one byte, in blocks whose OUT holds
eight bytes and two. -/
theorem witness_DecompressStopsAtTheFirstError_loop :
    ∀ c ∈ [(12#64, 8, Err.corruptPayload), (3#64, 2, Err.capacityExceeded)],
      ∃ (s : State) (l : List (Byte × Word)) (payload : List Byte) (bits : Bits) (out : List Byte),
        s.err = .none ∧ s.inLenNat ≤ s.caps.inCap ∧ l ≠ [] ∧ goodEntries l ∧
        holds s.inBuf 0 (entryBytes l ++ payload) ∧ s.inLenNat = (entryBytes l ++ payload).length ∧
        8 * payload.length ≤ s.caps.bsCapBits ∧ (treeOf (tableOf l)).spells bits out ∧
        bits <+: unpackBytes payload ∧ out.length < (l.map fun x => x.2.toNat).sum ∧
        out.length ≤ s.caps.outCap ∧
        (c.2.2 = .corruptPayload ∧
            (∀ p b, (treeOf (tableOf l)).reads p b → ¬ p <+: (unpackBytes payload).drop bits.length) ∨
          c.2.2 = .capacityExceeded ∧ out.length = s.caps.outCap ∧
            ∃ p b, (treeOf (tableOf l)).reads p b ∧ p <+: (unpackBytes payload).drop bits.length) := by
  have spelled : ∀ (f n : Nat), (Root.wrap f 0x61#8 f).spells (List.replicate n true)
      (List.replicate n 0x61#8) := by
    intro f n
    refine ⟨List.replicate n [true], by simp, ?_⟩
    induction n with
    | zero => exact .nil
    | succ n ih => exact .cons ⟨rfl, rfl⟩ ih
  have h12 : treeOf (tableOf [(0x61#8, 12#64)]) = .wrap 12 0x61#8 12 := by decide +kernel
  have h3 : treeOf (tableOf [(0x61#8, 3#64)]) = .wrap 3 0x61#8 3 := by decide +kernel
  intro c hc
  simp only [List.mem_cons, List.not_mem_nil, or_false] at hc
  rcases hc with rfl | rfl
  · refine ⟨{ input (entryBytes [(0x61#8, 12#64)] ++ [0xFF#8]) with
        caps := { inCap := 4096, outCap := 8, bsCapBits := 8 } }, [(0x61#8, 12#64)], [0xFF#8],
      List.replicate 8 true, List.replicate 8 0x61#8, rfl, by decide +kernel, by decide,
      ⟨by decide, by simp, by decide⟩, by decide +kernel, by decide +kernel, by decide, ?_, by decide,
      by decide, by decide, .inl ⟨rfl, ?_⟩⟩
    · rw [h12]; exact spelled 12 8
    · rw [h12]; exact not_reads_of_none (by decide)
  · refine ⟨{ input (entryBytes [(0x61#8, 3#64)] ++ [0xFF#8]) with
        caps := { inCap := 4096, outCap := 2, bsCapBits := 8 } }, [(0x61#8, 3#64)], [0xFF#8],
      List.replicate 2 true, List.replicate 2 0x61#8, rfl, by decide +kernel, by decide,
      ⟨by decide, by simp, by decide⟩, by decide +kernel, by decide +kernel, by decide, ?_, by decide,
      by decide, by decide, .inr ⟨rfl, rfl, [true], 0x61#8, ?_, by decide⟩⟩
    · rw [h3]; exact spelled 3 2
    · rw [h3]; exact ⟨rfl, rfl⟩

theorem witness_DecompressStopsAtTheFirstError :
    (∃ s : State, s.err = .none ∧ s.inLenNat ≤ s.caps.inCap ∧ s.inLenNat ≠ 0 ∧
      exec .hdrParse { s with outLen := 0 } = .next { s with outLen := 0, err := .malformedHeader }) ∧
    (∃ s : State, s.err = .none ∧ s.inLenNat ≤ s.caps.inCap ∧ 4 ≤ s.inLenNat ∧
      holds s.inBuf 0 (leBytes 0 4)) ∧
    (∃ (s : State) (l : List (Byte × Word)), s.err = .none ∧ s.inLenNat ≤ s.caps.inCap ∧ l ≠ [] ∧
      goodEntries l ∧ holds s.inBuf 0 (entryBytes l) ∧ (entryBytes l).length ≤ s.inLenNat ∧
      s.caps.bsCapBits < 8 * (s.inLenNat - (entryBytes l).length)) :=
  ⟨⟨input [0x41#8], rfl, by decide, by decide, malformed_short (by decide) (by decide)⟩,
    ⟨input [0, 0, 0, 0], rfl, by decide, by decide, by decide +kernel⟩,
    ⟨smallStream, entries, rfl, by decide +kernel, by decide, goodEntries_entries, by decide +kernel⟩⟩

/-- "ABRACADABRA" compressed, and its container in the IN of a second block. -/
theorem witness_DecompressUndoesCompress : ∃ s t u : State, s.err = .none ∧ InputReady 0 s ∧
    exec .codecCompress s = .next t ∧ t.err = .none ∧ u.inLenNat = t.outLen ∧
    u.inLenNat ≤ u.caps.inCap ∧ (∀ a, a < t.outLen → Mem.read u.inBuf a = Mem.read t.outBuf a) ∧
    8 * (t.outLen - (4 + 9 * (keys t.ft).length)) ≤ u.caps.bsCapBits ∧
    s.inLenNat ≤ u.caps.outCap ∧ s.inLenNat ≠ 0 :=
  ⟨abraState, _, input abraContainer, rfl, inputReady_abra, exec_runOne (by decide +kernel),
    by decide +kernel, by decide +kernel, by decide, by decide +kernel, by decide +kernel, by decide,
    by decide⟩

theorem witness_TruncatedContainerIsCorrupt : ∃ (u : State) (l : List Byte), l ≠ [] ∧
    l.length ≤ 2 ^ 64 - 1 ∧ holds u.inBuf 0 (container l).dropLast ∧
    u.inLenNat = (container l).length - 1 ∧ u.inLenNat ≤ u.caps.inCap ∧
    8 * (packBytes (payloadBits l)).length ≤ u.caps.bsCapBits + 8 ∧ l.length ≤ u.caps.outCap := by
  have hc : container abra = abraContainer := by
    unfold container payloadBits freqOf; decide +kernel
  have hl : (packBytes (payloadBits abra)).length = 3 := by
    unfold payloadBits freqOf; decide +kernel
  refine ⟨input abraContainer.dropLast, abra, by decide, by decide, ?_, ?_, by decide, ?_, by decide⟩
  · rw [hc]; decide +kernel
  · rw [hc]; decide
  · rw [hl]; decide

end Sys2Proof.Machine.Tests
end

namespace Sys2Proof.Machine

/-! ### The invariant along every step (10_state.md R30 to R37) -/

/-- Every command leaves a state that meets the invariant. -/
theorem inv_runOf {i : Instr} {s t : State} (h : StateInv s) (hl : (runOf i s).leaves t) : StateInv t := by
  have keep {r : Except Halt State} (hr : (primitive r s).leaves t) (ok : ∀ u, r = .ok u → StateInv u) :
      StateInv t := leaves_primitive hr h ok
  have writeRes {v : Word} (e : t = { s with res := v }) : StateInv t :=
    e ▸ inv_congr h rfl rfl rfl rfl rfl rfl rfl rfl rfl
  cases i with
  | nop => exact hl ▸ h
  | errClear => exact hl ▸ inv_clearError h
  | outClear => exact hl ▸ inv_outClear h
  | bsClear => exact hl ▸ inv_clearStream h
  | bsWbit b => exact keep hl fun _ => inv_appendBits h
  | bsWbits cnt =>
    refine keep hl fun u hu => ?_
    obtain ⟨-, hc, rfl⟩ := writeBits_ok.mp hu
    exact inv_appendBits h (appendBits_ok.mpr ⟨by rwa [length_bitsMsb], rfl⟩)
  | bsRbit =>
    refine keep hl fun u hu => ?_
    obtain ⟨b, hb, rfl⟩ := readBit_ok.mp hu
    exact inv_consume h (List.getElem?_eq_some_iff.mp hb).1 _
  | bsRbits cnt =>
    refine keep hl fun u hu => ?_
    obtain ⟨-, hc, rfl⟩ := readBits_ok.mp hu
    exact inv_consume h hc _
  | bsGetbuf => exact keep hl fun _ => inv_outAppend h
  | bsLoad => exact keep hl fun _ => inv_loadStream h
  | faAnalyze => exact keep hl fun _ => inv_analyze h
  | faAccum => exact keep hl fun _ => inv_accumulate h
  | faRead b => exact writeRes hl
  | faTotal => exact writeRes hl
  | htBuild => exact keep hl fun _ => inv_buildTree h
  | htCodes => exact hl ▸ inv_generateCodes h
  | ctLen b => exact writeRes hl
  | ctWord b w => exact writeRes hl
  | encSym b => exact keep hl fun _ => inv_encodeSymbol h
  | encBlock => exact inv_encodeBlock h hl
  | decSym => exact keep hl fun _ => inv_decodeSymbol h
  | decBlock =>
    simp only [runOf, decodeBlock] at hl
    split at hl
    · exact inv_decodeLoop h hl
    · exact hl ▸ h
  | hdrWrite => exact keep hl fun _ => inv_outAppend h
  | hdrParse => exact keep hl fun _ => inv_readHeader h
  | codecCompress =>
    exact leaves_clearOut hl (fun u => inv_compressSteps (inv_outClear h)) fun u => inv_outClear
  | codecDecompress =>
    exact leaves_clearOut hl (fun u => inv_decompressSteps (inv_outClear h)) fun u => inv_outClear

theorem inv_exec {i : Instr} {s t : State} (h : StateInv s) (he : exec i s = .next t) : StateInv t :=
  next_of_leaves (exec_eq_runOf i s ▸ he) (fun _ => inv_runOf h) fun _ e hu => inv_raiseError hu e

theorem inv_executeCommand {v : Word} {s t : State} (h : StateInv s) (he : executeCommand v s = .next t) :
    StateInv t := by
  unfold executeCommand at he
  split at he
  · split at he
    · exact inv_exec h he
    · cases he; exact h
  · split at he
    · cases he; exact inv_raiseError h _
    · exact inv_exec h he

theorem inv_writeRegister {off : Nat} {v : Word} {s t : State} (h : StateInv s)
    (hw : writeRegister off v s = .next t) : StateInv t := by
  unfold writeRegister at hw
  split at hw
  · exact inv_executeCommand h hw
  · cases hw; exact inv_congr h rfl rfl rfl rfl rfl rfl rfl rfl rfl
  · cases hw; exact inv_congr h rfl rfl rfl rfl rfl rfl rfl rfl rfl
  · cases hw; exact h

/-- No tree meets the tree invariants. -/
theorem wf_none : Root.none.wf := by
  simp [Root.wf, Root.symbols, Root.leaves, Root.sumsOk, Root.freq]

/-- The state after power-up meets the invariant (10_state.md R41). -/
theorem inv_powerUp {c : Capacities} (h : c.legal) : StateInv (State.powerUp c) where
  caps := h
  readCursor := Nat.le_refl 0
  writeCursor := Nat.zero_le _
  outLen := Nat.zero_le _
  outWritten := fun a ha => absurd ha (Nat.not_lt_zero a)
  freq := freqSum_emptyFreq ▸ Nat.zero_le (2 ^ 64 - 1)
  tree := wf_none
  codes := .inl rfl
  input := ⟨List.Pairwise.nil, fun _ h => absurd h List.not_mem_nil⟩
  output := ⟨List.Pairwise.nil, fun _ h => absurd h List.not_mem_nil⟩

/-- The reset values meet the invariant with the bytes of IN and OUT that stay (70_reset_and_hazards.md
R251). -/
theorem inv_resetAction {s : State} (h : StateInv s) : StateInv (resetAction s) :=
  { inv_powerUp h.caps with
    outWritten := fun a ha => absurd ha (Nat.not_lt_zero a)
    input := h.input
    output := h.output }

theorem inv_reply {s : State} (h : StateInv s) (r : Reply) : StateInv { s with reply := r } :=
  inv_congr h rfl rfl rfl rfl rfl rfl rfl rfl rfl

/-- Every host action keeps the invariant. -/
theorem inv_perform {act : HostAction} {s t : State} (h : StateInv s) (hp : perform act s = .next t) :
    StateInv t := by
  cases act with
  | reset => cases hp; exact inv_tick (inv_resetAction h)
  | writeReg bytes off v =>
    simp only [perform] at hp
    split at hp
    · cases hp
    · exact inv_writeRegister (inv_tick h) hp
  | readReg bytes off =>
    simp only [perform] at hp
    split at hp
    · cases hp
    · cases hp; exact inv_reply h _
  | writeIn a x =>
    simp only [perform] at hp
    split at hp
    · next ha => cases hp; exact inv_tick (inv_writeIn h ha x)
    · cases hp
  | readIn a =>
    simp only [perform] at hp
    split at hp
    · cases hp; exact inv_reply h _
    · cases hp
  | readOut a =>
    simp only [perform] at hp
    split at hp
    · cases hp; exact inv_reply h _
    · cases hp
  | other => cases hp

theorem inv_step {s t : State} (h : StateInv s) (hs : step s = .next t) : StateInv t := by
  unfold step hostStep at hs
  split at hs
  · cases hs; exact h
  · next act rest _ =>
    have consumed : StateInv { s with host := rest } := inv_congr h rfl rfl rfl rfl rfl rfl rfl rfl rfl
    exact inv_perform consumed hs

/-- Settles O16: every host action keeps the invariant, a command because each of its steps does. -/
theorem everyStepKeepsTheInvariant : Obligations.EveryStepKeepsTheInvariant :=
  fun _ _ => inv_step

/-- Settles O15: the reset values meet the invariant, and the capacities of `State.reset` are legal. -/
theorem invariantHoldsAtReset : Obligations.InvariantHoldsAtReset :=
  ⟨fun _ => inv_powerUp, inv_powerUp (by decide)⟩

/-- A code table has at most 256 symbols. -/
theorem length_symbols_le {r : Root} (hn : r.symbols.Nodup) : r.symbols.length ≤ 256 :=
  length_allBytes ▸ (List.subperm_of_subset hn fun b _ => mem_allBytes b).length_le

/-- Settles O17: the table is empty, or holds the paths of a tree without repeated symbols. -/
theorem codeTableIsAlwaysAPrefixCode : Obligations.CodeTableIsAlwaysAPrefixCode := by
  intro s h
  obtain ⟨hn, -⟩ := h.tree
  rcases h.codes with he | hc
  · rw [he]
    exact ⟨fun a b _ p q hp => by simp at hp, fun b p hp => by simp at hp⟩
  · rw [hc]
    refine ⟨prefixFree_codesOf hn, fun b p hp => ?_⟩
    have hlen := codeLength_codesOf hn hp
    have hsym := length_symbols_le hn
    omega

end Sys2Proof.Machine

namespace Sys2Proof.Machine

/-! ### What a step does with each host action (10_state.md R40) -/

/-- A step performs the oldest pending host action. -/
theorem step_of_host {s : State} {act : HostAction} {rest : List HostAction} (h : s.host = act :: rest) :
    step s = perform act { s with host := rest } := by
  simp only [step, hostStep, h]

/-- The one defined form of a register access (20_memory.md R57, R62). -/
theorem registerAccess_defined {off : Nat} (ha : off % 8 = 0) (hw : off < 0x100) :
    registerAccess 8 off = Option.none := by
  simp [registerAccess, ha, hw]

theorem registerAccess_width {n : Nat} (off : Nat) (h : n ≠ 8) :
    registerAccess n off = some (.registerWidth n) := by
  simp [registerAccess, h]

theorem registerAccess_unaligned {off : Nat} (h : off % 8 ≠ 0) :
    registerAccess 8 off = some (.registerUnaligned off) := by
  simp [registerAccess, h]

theorem registerAccess_outside {off : Nat} (ha : off % 8 = 0) (h : 0x100 ≤ off) :
    registerAccess 8 off = some (.registerOutsideWindow off) := by
  simp [registerAccess, ha, h]

/-- A defined register write, with its host action consumed. -/
theorem step_writeReg {s : State} {rest : List HostAction} {off : Nat} {v : Word} (ha : off % 8 = 0)
    (hw : off < 0x100) (h : s.host = .writeReg 8 off v :: rest) :
    step s = writeRegister off v { s with host := rest, epoch := s.epoch + 1 } := by
  rw [step_of_host h, perform, registerAccess_defined ha hw]; rfl

/-- A defined register read. -/
theorem step_readReg {s : State} {rest : List HostAction} {off : Nat} (ha : off % 8 = 0)
    (hw : off < 0x100) (h : s.host = .readReg 8 off :: rest) :
    step s = .next { s with host := rest, reply := .word (registerValue off s) } := by
  rw [step_of_host h, perform, registerAccess_defined ha hw]; rfl

/-- A register access outside the defined form is refused for what is wrong with it. -/
theorem step_register_refused {s : State} {rest : List HostAction} {n off : Nat} {v : Word} {r : Refusal}
    (hr : registerAccess n off = some r)
    (h : s.host = .writeReg n off v :: rest ∨ s.host = .readReg n off :: rest) : step s = .refused r := by
  rcases h with h | h <;> rw [step_of_host h, perform, hr]

theorem step_writeIn {s : State} {rest : List HostAction} {a : Nat} {x : Byte} (ha : a < s.caps.inCap)
    (h : s.host = .writeIn a x :: rest) :
    step s = .next { s with host := rest, epoch := s.epoch + 1, inBuf := Mem.write s.inBuf a x } := by
  rw [step_of_host h, perform, if_pos ha]; rfl

theorem step_readIn {s : State} {rest : List HostAction} {a : Nat} (ha : a < s.caps.inCap)
    (h : s.host = .readIn a :: rest) :
    step s = .next { s with host := rest, reply := .byte (hostReadIn a s) } := by
  rw [step_of_host h, perform, if_pos ha]; rfl

theorem step_readOut {s : State} {rest : List HostAction} {a : Nat} (ha : a < s.caps.outCap)
    (h : s.host = .readOut a :: rest) :
    step s = .next { s with host := rest, reply := .byte (hostReadOut a s) } := by
  rw [step_of_host h, perform, if_pos ha]; rfl

theorem step_input_refused {s : State} {rest : List HostAction} {a : Nat} {x : Byte} (ha : s.caps.inCap ≤ a)
    (h : s.host = .writeIn a x :: rest ∨ s.host = .readIn a :: rest) :
    step s = .refused (.inputAddress a) := by
  rcases h with h | h <;> rw [step_of_host h, perform, if_neg (Nat.not_lt.mpr ha)]

theorem step_output_refused {s : State} {rest : List HostAction} {a : Nat} (ha : s.caps.outCap ≤ a)
    (h : s.host = .readOut a :: rest) : step s = .refused (.outputAddress a) := by
  rw [step_of_host h, perform, if_neg (Nat.not_lt.mpr ha)]

theorem hostReadIn_written {s : State} {a : Nat} {x : Byte} (h : Mem.read s.inBuf a = some x) :
    hostReadIn a s = x := by
  simp only [hostReadIn, h]

theorem hostReadOut_written {s : State} {a : Nat} {x : Byte} (ha : a < s.outLen)
    (h : Mem.read s.outBuf a = some x) : hostReadOut a s = x := by
  simp only [hostReadOut, if_pos ha, h]

/-- A write to CMD with no error pending runs the command the value decodes to (30_encoding.md R73). -/
theorem executeCommand_ok {v : Word} {i : Instr} {s : State} (he : s.err = .none) (hd : decode v = .ok i) :
    executeCommand v s = exec i s := by
  simp only [executeCommand, he, hd, ne_eq, not_true_eq_false, if_false]

/-! ### The register window (10_state.md R21) -/

theorem registerValue_reserved {off : Nat} (s : State) (h : 0x40 ≤ off) : registerValue off s = 0#64 := by
  unfold registerValue
  split
  case h_8 => rfl
  all_goals omega

/-- After power-up every register reads 0 (10_state.md R41). -/
theorem registerValue_powerUp (c : Capacities) (off : Nat) : registerValue off (State.powerUp c) = 0#64 := by
  unfold registerValue
  split
  case h_3 => exact status_eq_zero rfl rfl
  all_goals rfl

/-- Away from CMD a write lands in OPND or IN_LEN or is ignored. -/
theorem writeRegister_not_cmd {off : Nat} (v : Word) (s : State) (h : off ≠ 0x00) :
    writeRegister off v s = .next { s with
      opnd := if off = 0x08 then v else s.opnd
      inLen := if off = 0x20 then v else s.inLen } := by
  unfold writeRegister
  split
  case h_1 => exact absurd rfl h
  case h_2 => rfl
  case h_3 => rfl
  case h_4 h8 h20 => rw [if_neg h8, if_neg h20]

/-- Settles O10: a read answers `registerValue`, whose naturals fit the register by the invariant. -/
theorem registerWindowIsAsMapped : Obligations.RegisterWindowIsAsMapped := by
  refine ⟨fun s rest off hi ha hw hh => ⟨registerValue off s, step_readReg ha hw hh, ?_⟩,
    fun s rest off v ha hw h0 hh => ?_, registerValue_powerUp⟩
  · obtain ⟨⟨-, ⟨-, houtCap⟩, ⟨-, hbsCap, -⟩⟩, hrd, hwr, hout, -⟩ := hi
    have fits {n : Nat} (h : n ≤ 2 ^ 64 - 1) : (BitVec.ofNat 64 n).toNat = n := by
      rw [BitVec.toNat_ofNat, Nat.mod_eq_of_lt (by omega)]
    refine ⟨?_, ?_, ?_, ?_, ?_, ?_, ?_, ?_, registerValue_reserved s⟩
    · rintro rfl; rfl
    · rintro rfl; rfl
    · rintro rfl; rfl
    · rintro rfl; rfl
    · rintro rfl; rfl
    · rintro rfl; exact fits (hout.trans houtCap)
    · rintro rfl; exact fits (hwr.trans hbsCap)
    · rintro rfl; exact fits (hrd.trans (hwr.trans hbsCap))
  · rw [step_writeReg ha hw hh, writeRegister_not_cmd v _ h0]

/-! ### STATUS (10_state.md R25) -/

theorem status_errBits (s : State) : s.status.extractLsb' 0 8 = s.err.code :=
  BitVec.extractLsb'_append_eq_right

/-- The bits of STATUS above the error code. -/
theorem status_getLsbD_above (s : State) {k : Nat} (h : 8 ≤ k) :
    s.status.getLsbD k = (decide (k = 8) && s.tv) := by
  show (0#55 ++ BitVec.ofBool s.tv ++ s.err.code).getLsbD k = _
  rw [BitVec.getLsbD_append, if_neg (by omega), BitVec.getLsbD_append, BitVec.getLsbD_zero,
    BitVec.getLsbD_ofBool]
  by_cases hk : k = 8
  · subst hk; simp
  · simp [hk, show ¬ k - 8 = 0 by omega]

/-- Settles O11: the three fields of STATUS, and `Err.code` for each error kind. -/
theorem statusHoldsErrAndTreeValid : Obligations.StatusHoldsErrAndTreeValid := by
  intro s
  have code {e : Err} (h : s.err = e) : s.status.extractLsb' 0 8 = e.code := h ▸ status_errBits s
  refine ⟨⟨code, code, code, code, code, code, code, code, code, code⟩, ?_, fun k hk => ?_⟩
  · rw [status_getLsbD_above s (Nat.le_refl 8)]
    simpa using tv_iff
  · rw [status_getLsbD_above s (by omega), decide_eq_false (by omega), Bool.false_and]

/-! ### Accesses of IN and OUT -/

/-- Settles O13: one lemma per host action and per way it is refused. -/
theorem hostAccessesOfBuffersAndRefusals : Obligations.HostAccessesOfBuffersAndRefusals := by
  intro s rest
  refine ⟨fun a x ha h => ⟨_, step_writeIn ha h, rfl, fun b => Mem.read_write _ _ _ _⟩,
    fun a x ha hx h => ?_, fun a hi ha h => ?_,
    fun n off v hn => step_register_refused (registerAccess_width off hn),
    fun off v hu => step_register_refused (registerAccess_unaligned hu),
    fun off v ha ho => step_register_refused (registerAccess_outside ha ho),
    fun a x => step_input_refused, fun a => step_output_refused, fun h => step_of_host h⟩
  · rw [step_readIn ha h, hostReadIn_written hx]
  · obtain ⟨x, hx⟩ := Option.isSome_iff_exists.mp (hi.outWritten a ha)
    exact ⟨x, hx, by rw [step_readOut (Nat.lt_of_lt_of_le ha hi.outLen) h, hostReadOut_written ha hx]⟩

/-! ### A command value and the command it spells (30_encoding.md R72, R73) -/

/-- The decoder on a value whose high half is 0 and whose reserved bits are 0. -/
theorem decode_of_mask {v : Word} {fmt : Format} {i : Instr} (hh : v.extractLsb' 32 32 = 0#32)
    (ho : opcodeMap (v.extractLsb' 0 8).toNat (fieldsOf v) = some (fmt, i))
    (hm : v.extractLsb' 0 32 &&& fmt.mask = (v.extractLsb' 0 8).setWidth 32) : decode v = .ok i := by
  simp only [decode, hh, ho, hm, ne_eq, not_true_eq_false, if_false]

theorem extractLsb'_eq_of_toNat {v : Word} {start len : Nat} {x : BitVec len}
    (h : v.toNat / 2 ^ start % 2 ^ len = x.toNat) : v.extractLsb' start len = x :=
  BitVec.eq_of_toNat_eq (by rw [BitVec.extractLsb'_toNat, Nat.shiftRight_eq_div_pow, h])

theorem extractLsb'_zero_of_toNat {v : Word} {start len : Nat} (h : v.toNat / 2 ^ start % 2 ^ len = 0) :
    v.extractLsb' start len = 0#len :=
  extractLsb'_eq_of_toNat (by rw [h, BitVec.toNat_ofNat, Nat.zero_mod])

theorem toNat_append_eq_add {m n : Nat} (x : BitVec m) (y : BitVec n) :
    (x ++ y).toNat = x.toNat * 2 ^ n + y.toNat := by
  rw [BitVec.toNat_append, ← Nat.shiftLeft_add_eq_or_of_lt y.isLt, Nat.shiftLeft_eq]

/-- A word of format C as a number (30_encoding.md R72). -/
theorem toNat_wordC (op : BitVec 8) {cnt : Nat} (h : cnt < 64) :
    (wordC op cnt).toNat = cnt * 2 ^ 8 + op.toNat := by
  have := op.isLt
  simp only [wordC, BitVec.toNat_setWidth, toNat_append_eq_add, BitVec.toNat_ofNat]
  omega

/-- A word of format W as a number (R72); those of format B are the words with W = 0. -/
theorem toNat_wordW (op : BitVec 8) (b : Byte) {w : Nat} (h : w < 4) :
    (wordW op b w).toNat = w * 2 ^ 24 + b.toNat * 2 ^ 16 + op.toNat := by
  have := op.isLt
  have := b.isLt
  simp only [wordW, BitVec.toNat_setWidth, toNat_append_eq_add, BitVec.toNat_ofNat]
  omega

theorem wordB_eq_wordW (op : BitVec 8) (b : Byte) : wordB op b = wordW op b 0 := by
  refine BitVec.eq_of_toNat_eq ?_
  rw [toNat_wordW op b (by decide)]
  have := op.isLt
  have := b.isLt
  simp only [wordB, BitVec.toNat_setWidth, toNat_append_eq_add, BitVec.toNat_ofNat]
  omega

theorem decode_wordC {op : BitVec 8} {cnt : Nat} {i : Instr} (h : cnt < 64)
    (ho : ∀ f : Fields, f.cnt = cnt → opcodeMap op.toNat f = some (.C, i)) :
    decode (wordC op cnt) = .ok i := by
  have hv := toNat_wordC op h
  have hop := op.isLt
  have h0 : (wordC op cnt).extractLsb' 0 8 = op := extractLsb'_eq_of_toNat (by rw [hv]; omega)
  refine decode_of_mask (fmt := .C) (extractLsb'_zero_of_toNat (by rw [hv]; omega)) ?_ ?_
  · rw [h0]
    refine ho _ ?_
    simp only [fieldsOf, BitVec.extractLsb'_toNat, Nat.shiftRight_eq_div_pow, hv]
    omega
  · exact (mask_test_fields .C _).mpr (extractLsb'_zero_of_toNat (by rw [hv]; omega))

/-- The fields a word of format W decodes with. -/
theorem wordW_high_fields (op : BitVec 8) (b : Byte) {w : Nat} (h : w < 4) :
    (wordW op b w).extractLsb' 32 32 = 0#32 ∧ (wordW op b w).extractLsb' 0 8 = op ∧
    (fieldsOf (wordW op b w)).b = b ∧ (fieldsOf (wordW op b w)).w = w ∧
    (wordW op b w).extractLsb' 8 8 = 0#8 ∧ (wordW op b w).extractLsb' 26 6 = 0#6 := by
  have hv := toNat_wordW op b h
  have hop := op.isLt
  have hb := b.isLt
  refine ⟨extractLsb'_zero_of_toNat (by rw [hv]; omega), extractLsb'_eq_of_toNat (by rw [hv]; omega),
    extractLsb'_eq_of_toNat (by rw [hv]; omega), ?_, extractLsb'_zero_of_toNat (by rw [hv]; omega),
    extractLsb'_zero_of_toNat (by rw [hv]; omega)⟩
  simp only [fieldsOf, BitVec.extractLsb'_toNat, Nat.shiftRight_eq_div_pow, hv]
  omega

theorem decode_wordW {op : BitVec 8} {b : Byte} {w : Nat} {i : Instr} (h : w < 4)
    (ho : ∀ f : Fields, f.b = b → f.w = w → opcodeMap op.toNat f = some (.W, i)) :
    decode (wordW op b w) = .ok i := by
  obtain ⟨hh, h0, hb, hw, hlow, hres⟩ := wordW_high_fields op b h
  exact decode_of_mask hh (by rw [h0]; exact ho _ hb hw) ((mask_test_fields .W _).mpr ⟨hlow, hres⟩)

theorem decode_wordB {op : BitVec 8} {b : Byte} {i : Instr}
    (ho : ∀ f : Fields, f.b = b → opcodeMap op.toNat f = some (.B, i)) : decode (wordB op b) = .ok i := by
  obtain ⟨hh, h0, hb, -, hlow, hres⟩ := wordW_high_fields op b (w := 0) (by decide)
  rw [wordB_eq_wordW]
  refine decode_of_mask hh (by rw [h0]; exact ho _ hb) ((mask_test_fields .B _).mpr ⟨hlow, ?_⟩)
  have hop := op.isLt
  have hbyte := b.isLt
  exact extractLsb'_zero_of_toNat (by rw [toNat_wordW op b (by decide)]; omega)

/-- The decoder reads back what the encoder writes (30_encoding.md R72, R73). -/
theorem decode_encode {i : Instr} (h : i.wellFormed = true) : decode (encode i) = .ok i := by
  cases i with
  | bsWbit t => cases t <;> rfl
  | bsWbits cnt => exact decode_wordC (of_decide_eq_true h) fun f hf => hf ▸ rfl
  | bsRbits cnt => exact decode_wordC (of_decide_eq_true h) fun f hf => hf ▸ rfl
  | faRead b => exact decode_wordB fun f hf => hf ▸ rfl
  | ctLen b => exact decode_wordB fun f hf => hf ▸ rfl
  | encSym b => exact decode_wordB fun f hf => hf ▸ rfl
  | ctWord b w => exact decode_wordW (of_decide_eq_true h) fun f hb hw => hb ▸ hw ▸ rfl
  | _ => rfl

theorem decode_of_tableWord {nbits w : Nat} {i : Instr} (h : decodeTableWord nbits w = some i) :
    decode (commandValue nbits w) = .ok i := by
  unfold decodeTableWord at h
  split at h
  · next hd => cases h; exact hd
  · cases h

/-- A step whose host action writes a value that decodes to CMD. -/
theorem step_command {s : State} {rest : List HostAction} {v : Word} {i : Instr} (he : s.err = .none)
    (hd : decode v = .ok i) (h : s.host = .writeReg 8 0x00 v :: rest) :
    step s = exec i { s with host := rest, epoch := s.epoch + 1 } := by
  rw [step_writeReg (by decide) (by decide) h]
  exact executeCommand_ok he hd

/-- Settles O6: the value written to CMD is spelled directly, by a table word, or by a command line,
which `decode_encode` reads back. -/
theorem stepRunsTheDecodedCommand : Obligations.StepRunsTheDecodedCommand :=
  ⟨fun _ _ _ _ he hd h => step_command he hd h,
    fun s _ _ _ he hd => step_command (s := queueCommand _ s) he (decode_of_tableWord hd) rfl,
    fun _ _ _ he hw h => step_command he (decode_encode hw) h⟩

end Sys2Proof.Machine

namespace Sys2Proof.Machine

/-! ### What each command can write -/

/-- The pieces of state a command that is not composite may write, whether it fails or not (10_state.md
R23 to R37); the values themselves are left open. STATUS.ERR is written after the run, by `Run.outcome`. -/
def Footprint : Instr → State → State → Prop
  | .nop, s, t => t = s
  | .errClear, s, t => t = s.clearError
  | .outClear, s, t => t = { s with outLen := 0 }
  | .bsClear, s, t | .bsLoad, s, t => ∃ l n, t = { s with bs := l, bsRd := n }
  | .bsWbit _, s, t | .bsWbits _, s, t | .encSym _, s, t | .encBlock, s, t =>
    ∃ l, t = { s with bs := s.bs ++ l }
  | .bsRbit, s, t | .bsRbits _, s, t | .decSym, s, t => ∃ v n, t = { s with res := v, bsRd := n }
  | .faRead _, s, t | .faTotal, s, t | .ctLen _, s, t | .ctWord _ _, s, t => ∃ v, t = { s with res := v }
  | .faAnalyze, s, t | .faAccum, s, t => ∃ T, t = { s with ft := T }
  | .hdrParse, s, t => ∃ T v, t = { s with ft := T, res := v }
  | .htBuild, s, t => ∃ r c, t = { s with tree := r, ct := c }
  | .htCodes, s, t => ∃ c, t = { s with ct := c }
  | .bsGetbuf, s, t | .hdrWrite, s, t => ∃ m n, t = { s with outBuf := m, outLen := n }
  | .decBlock, s, t => ∃ m n k, t = { s with outBuf := m, outLen := n, bsRd := k }
  | .codecCompress, _, _ | .codecDecompress, _, _ => True

/-- Every run stays in its command's footprint. -/
theorem footprint_runOf {i : Instr} {s t : State} (h : (runOf i s).leaves t) : Footprint i s t := by
  cases i with
  | nop => exact h
  | errClear => exact h
  | outClear => exact h
  | bsClear => exact ⟨_, _, h⟩
  | bsWbit b => exact leaves_primitive h ⟨[], by simp⟩ fun u hu => ⟨_, (appendBits_ok.mp hu).2⟩
  | bsWbits cnt => exact leaves_primitive h ⟨[], by simp⟩ fun u hu => ⟨_, (writeBits_ok.mp hu).2.2⟩
  | bsRbit =>
    refine leaves_primitive h ⟨_, _, rfl⟩ fun u hu => ?_
    obtain ⟨b, -, e⟩ := readBit_ok.mp hu
    exact ⟨_, _, e⟩
  | bsRbits cnt => exact leaves_primitive h ⟨_, _, rfl⟩ fun u hu => ⟨_, _, (readBits_ok.mp hu).2.2⟩
  | bsGetbuf => exact leaves_primitive h ⟨_, _, rfl⟩ fun u hu => ⟨_, _, (outAppend_ok.mp hu).2⟩
  | bsLoad =>
    refine leaves_primitive h ⟨_, _, rfl⟩ fun u hu => ?_
    obtain ⟨-, -, -, l, -, e⟩ := loadStream_ok.mp hu
    exact ⟨_, _, e⟩
  | faAnalyze =>
    refine leaves_primitive h ⟨_, rfl⟩ fun u hu => ?_
    obtain ⟨l, -, e⟩ := analyze_ok.mp hu
    exact ⟨_, e⟩
  | faAccum =>
    refine leaves_primitive h ⟨_, rfl⟩ fun u hu => ?_
    obtain ⟨l, -, -, e⟩ := accumulate_ok.mp hu
    exact ⟨_, e⟩
  | faRead b => exact ⟨_, h⟩
  | faTotal => exact ⟨_, h⟩
  | htBuild => exact leaves_primitive h ⟨_, _, rfl⟩ fun u hu => ⟨_, _, (buildTree_ok.mp hu).2⟩
  | htCodes => exact ⟨_, h⟩
  | ctLen b => exact ⟨_, h⟩
  | ctWord b w => exact ⟨_, h⟩
  | encSym b =>
    refine leaves_primitive h ⟨[], by simp⟩ fun u hu => ?_
    obtain ⟨c, -, -, e⟩ := encodeSymbol_ok.mp hu
    exact ⟨_, e⟩
  | encBlock => exact encodeBlock_leaves h
  | decSym =>
    refine leaves_primitive h ⟨_, _, rfl⟩ fun u hu => ?_
    obtain ⟨b, n, -, e⟩ := decodeSymbol_ok.mp hu
    exact ⟨_, _, e⟩
  | decBlock =>
    obtain ⟨n, l, e⟩ := decodeBlock_leaves h
    exact ⟨_, _, _, e⟩
  | hdrWrite => exact leaves_primitive h ⟨_, _, rfl⟩ fun u hu => ⟨_, _, (outAppend_ok.mp hu).2⟩
  | hdrParse =>
    refine leaves_primitive h ⟨_, _, rfl⟩ fun u hu => ?_
    obtain ⟨-, T, n, -, e⟩ := readHeader_ok.mp hu
    exact ⟨_, _, e⟩
  | codecCompress => trivial
  | codecDecompress => trivial

theorem leaves_of_done {r : Run} {t : State} (h : r = .done t) : r.leaves t := by rw [h]; rfl

theorem leaves_of_raised {r : Run} {e : Err} {t : State} (h : r = .raised e t) : r.leaves t := by
  rw [h]; rfl

/-- A command's next state is in its footprint but for STATUS.ERR. -/
theorem footprint_exec {i : Instr} {s t : State} (h : exec i s = .next t) :
    ∃ u, Footprint i s u ∧ t = u.raiseError t.err := by
  rcases exec_next.mp h with hd | ⟨e, u, hr, rfl⟩
  · exact ⟨t, footprint_runOf (leaves_of_done hd), rfl⟩
  · exact ⟨u, footprint_runOf (leaves_of_raised hr), rfl⟩

/-! ### FT, TREE and CT (10_state.md R32, R33, R35) -/

/-- Settles O25: the footprints of all other commands leave the three tables. -/
theorem onlyTheNamedCommandsWriteTables : Obligations.OnlyTheNamedCommandsWriteTables := by
  intro i s t h hc hd
  obtain ⟨u, hu, e⟩ := footprint_exec h
  rw [e]
  cases i
  case codecCompress => exact absurd rfl hc
  case codecDecompress => exact absurd rfl hd
  case nop | errClear | outClear => cases hu; simp
  case bsWbit | bsWbits | encSym | encBlock | faRead | faTotal | ctLen | ctWord | faAnalyze | faAccum
      | htCodes => obtain ⟨x, rfl⟩ := hu; simp
  case bsClear | bsLoad | bsRbit | bsRbits | decSym | bsGetbuf | hdrWrite | hdrParse | htBuild =>
    obtain ⟨x, y, rfl⟩ := hu; simp
  case decBlock => obtain ⟨x, y, z, rfl⟩ := hu; simp

/-! ### BS and its cursors (10_state.md R27 to R29) -/

/-- Settles O24: a footprint appends to BS, replaces the stream, or leaves it. -/
theorem onlyTheNamedCommandsMoveTheStream : Obligations.OnlyTheNamedCommandsMoveTheStream := by
  intro i s t h
  obtain ⟨u, hu, e⟩ := footprint_exec h
  rw [e]
  cases i
  case codecCompress | codecDecompress => simp
  case nop | errClear | outClear => cases hu; simp
  case bsWbit | bsWbits | encSym | encBlock => obtain ⟨l, rfl⟩ := hu; simp
  case faRead | faTotal | ctLen | ctWord | faAnalyze | faAccum | htCodes => obtain ⟨x, rfl⟩ := hu; simp
  case bsClear | bsLoad | bsRbit | bsRbits | decSym | bsGetbuf | hdrWrite | hdrParse | htBuild =>
    obtain ⟨x, y, rfl⟩ := hu; simp
  case decBlock => obtain ⟨x, y, z, rfl⟩ := hu; simp

/-! ### OUT (10_state.md R31) -/

/-- Every run but those of OUT_CLEAR and the composites only appends to OUT. -/
theorem out_appends_runOf {i : Instr} {s t : State} (h : (runOf i s).leaves t) (ho : i ≠ .outClear)
    (hc : isComposite i = false) :
    s.outLen ≤ t.outLen ∧ ∀ a, a < s.outLen → Mem.read t.outBuf a = Mem.read s.outBuf a := by
  by_cases he : i = .errClear
  · subst he
    cases h
    exact ⟨Nat.le_refl _, fun _ _ => rfl⟩
  · have hk := kept_runOf h he ho hc
    exact ⟨hk.outLen, hk.outBuf⟩

/-- Settles O26: outside the footprints that write OUT nothing changes it, and `Kept` says that the
commands which write it append. -/
theorem outIsAppendOnly : Obligations.OutIsAppendOnly := by
  intro i s t h
  refine ⟨fun hi => ?_, fun hi => by subst hi; cases h; rfl, fun ⟨ho, hc, hd⟩ => ?_⟩
  · obtain ⟨u, hu, e⟩ := footprint_exec h
    rw [e]
    cases i
    case outClear | bsGetbuf | decBlock | hdrWrite | codecCompress | codecDecompress => simp at hi
    case nop | errClear => cases hu; simp
    case bsWbit | bsWbits | encSym | encBlock | faRead | faTotal | ctLen | ctWord | faAnalyze | faAccum
        | htCodes => obtain ⟨x, rfl⟩ := hu; simp
    case bsClear | bsLoad | bsRbit | bsRbits | decSym | hdrParse | htBuild =>
      obtain ⟨x, y, rfl⟩ := hu; simp
  · have hp : isComposite i = false := by
      cases i
      case codecCompress => exact absurd rfl hc
      case codecDecompress => exact absurd rfl hd
      all_goals rfl
    exact next_of_leaves (P := fun t => s.outLen ≤ t.outLen ∧
        ∀ a, a < s.outLen → Mem.read t.outBuf a = Mem.read s.outBuf a)
      (exec_eq_runOf i s ▸ h) (fun _ hu => out_appends_runOf hu ho hp) fun _ _ hu => hu

/-! ### The host's state (10_state.md R22, R26, 20_memory.md R51) -/

/-- What no command writes: the host's registers and IN, and the model's own fields. -/
def State.hostPart (s : State) : Word × Word × Mem × Capacities × List HostAction × Reply × Nat :=
  (s.opnd, s.inLen, s.inBuf, s.caps, s.host, s.reply, s.epoch)

theorem Kept.hostPart {s t : State} (h : Kept s t) : t.hostPart = s.hostPart := by
  simp only [State.hostPart, h.opnd, h.inLen, h.inBuf, h.caps, h.host, h.reply, h.epoch]

theorem hostPart_runOf {i : Instr} {s t : State} (h : (runOf i s).leaves t) : t.hostPart = s.hostPart := by
  by_cases he : i = .errClear
  · subst he; cases h; rfl
  by_cases ho : i = .outClear
  · subst ho; cases h; rfl
  cases hc : isComposite i with
  | false => exact (kept_runOf h he ho hc).hostPart
  | true =>
    have composite {r : Run} (hr : r.clearOutOnError.leaves t)
        (hk : ∀ u, r.leaves u → Kept { s with outLen := 0 } u) : t.hostPart = s.hostPart :=
      leaves_clearOut (P := fun t => t.hostPart = s.hostPart) hr (fun u hu => (hk u hu).hostPart)
        fun _ hu => hu
    cases i
    case codecCompress => exact composite h fun u => kept_compressSteps
    case codecDecompress => exact composite h fun u => kept_decompressSteps
    all_goals cases hc

/-- Settles O20: no run writes the host's part of the state, and raising an error does not either. -/
theorem commandsLeaveHostStateAlone : Obligations.CommandsLeaveHostStateAlone := by
  intro i s t h
  have hp : t.hostPart = s.hostPart := next_of_leaves (P := fun t => t.hostPart = s.hostPart)
    (exec_eq_runOf i s ▸ h) (fun _ => hostPart_runOf) fun _ _ hu => hu
  simpa only [State.hostPart, Prod.mk.injEq] using hp

/-! ### RES (10_state.md R23) -/

/-- The state in which a run raises an error has the RES of `s`. -/
def Run.raisesWithRes (s : State) (r : Run) : Prop := ∀ e t, r = .raised e t → t.res = s.res

theorem raisesWithRes_primitive {s : State} {r : Except Halt State} :
    (primitive r s).raisesWithRes s := by
  intro e t h
  rw [(primitive_eq_raised.mp h).2]

theorem raisesWithRes_andThen {s : State} {r : Run} {k : State → Run} (hr : r.raisesWithRes s)
    (hk : ∀ u, r = .done u → u.res = s.res ∧ (k u).raisesWithRes u) :
    (r.andThen k).raisesWithRes s := by
  intro e t h
  rcases andThen_eq_raised.mp h with h | ⟨u, hu, h⟩
  · exact hr e t h
  · obtain ⟨h1, h2⟩ := hk u hu
    exact (h2 e t h).trans h1

theorem res_outAppend {l : List Byte} {s t : State} (h : primitive (outAppend l s) s = .done t) :
    t.res = s.res := by
  rw [(outAppend_ok.mp (primitive_eq_done.mp h)).2]

theorem res_encodeBlock {s t : State} (h : (encodeBlock s).leaves t) : t.res = s.res := by
  obtain ⟨l, rfl⟩ := encodeBlock_leaves h
  rfl

theorem res_decodeBlock {s t : State} (h : (decodeBlock s).leaves t) : t.res = s.res := by
  obtain ⟨n, l, rfl⟩ := decodeBlock_leaves h
  rfl

/-- CODEC_COMPRESS writes RES in its last step, after which nothing fails (45_codec.md R196). -/
theorem raisesWithRes_compressSteps (s : State) : (compressSteps s).raisesWithRes s := by
  unfold compressSteps
  split
  · intro e t h; cases h; rfl
  refine raisesWithRes_andThen raisesWithRes_primitive fun s1 h1 => ⟨?_, ?_⟩
  · obtain ⟨l, -, rfl⟩ := analyze_ok.mp (primitive_eq_done.mp h1); rfl
  split
  · intro e t h; cases h
  refine raisesWithRes_andThen raisesWithRes_primitive fun s2 h2 => ⟨?_, ?_⟩
  · rw [(buildTree_ok.mp (primitive_eq_done.mp h2)).2]
  refine raisesWithRes_andThen (fun e t h => by cases h) fun s3 h3 => ⟨by cases h3; rfl, ?_⟩
  refine raisesWithRes_andThen (fun e t h => res_encodeBlock (leaves_of_raised h)) fun s4 h4 =>
    ⟨res_encodeBlock (leaves_of_done h4), ?_⟩
  refine raisesWithRes_andThen raisesWithRes_primitive fun s5 h5 => ⟨res_outAppend h5, ?_⟩
  exact raisesWithRes_andThen raisesWithRes_primitive fun s6 h6 =>
    ⟨res_outAppend h6, fun e t h => by cases h⟩

/-- A command other than CODEC_DECOMPRESS that fails leaves RES (10_state.md R23). -/
theorem raisesWithRes_runOf {i : Instr} (hi : i ≠ .codecDecompress) (s : State) :
    (runOf i s).raisesWithRes s := by
  cases i
  case codecDecompress => exact absurd rfl hi
  case nop | errClear | outClear | bsClear | faRead | faTotal | htCodes | ctLen | ctWord =>
    intro e t h; cases h
  case bsWbit | bsWbits | bsRbit | bsRbits | bsGetbuf | bsLoad | faAnalyze | faAccum | htBuild | encSym
      | decSym | hdrWrite | hdrParse => exact raisesWithRes_primitive
  case encBlock => exact fun e t h => res_encodeBlock (leaves_of_raised h)
  case decBlock => exact fun e t h => res_decodeBlock (leaves_of_raised h)
  case codecCompress =>
    intro e t h
    obtain ⟨u, hu, rfl⟩ := clearOut_eq_raised.mp h
    exact raisesWithRes_compressSteps { s with outLen := 0 } e u hu

/-- A command that ends without raising an error leaves STATUS.ERR, but for ERR_CLEAR. -/
theorem err_of_done {i : Instr} {s t : State} (h : runOf i s = .done t) (he : s.err = .none) :
    t.err = .none := by
  have hl := leaves_of_done h
  cases i
  case errClear => cases h; rfl
  case outClear => cases h; exact he
  case codecCompress =>
    exact (kept_compressSteps (leaves_of_done (clearOut_eq_done.mp h))).err.trans he
  case codecDecompress =>
    exact (kept_decompressSteps (leaves_of_done (clearOut_eq_done.mp h))).err.trans he
  all_goals exact (kept_runOf hl (by simp) (by simp) rfl).err.trans he

/-- Settles O23: the footprints of the commands that are not named leave RES, and a failing run leaves it
where it raises its error. -/
theorem onlyTheNamedCommandsWriteRes : Obligations.OnlyTheNamedCommandsWriteRes := by
  intro i s t h
  refine ⟨fun hi => ?_, fun hi he ht => ?_⟩
  · obtain ⟨u, hu, e⟩ := footprint_exec h
    rw [e]
    cases i
    case bsRbit | bsRbits | faRead | faTotal | ctLen | ctWord | decSym | hdrParse | codecCompress
        | codecDecompress => simp at hi
    case nop | errClear | outClear => cases hu; simp
    case bsWbit | bsWbits | encSym | encBlock | faAnalyze | faAccum | htCodes =>
      obtain ⟨x, rfl⟩ := hu; simp
    case bsClear | bsLoad | bsGetbuf | hdrWrite | htBuild => obtain ⟨x, y, rfl⟩ := hu; simp
    case decBlock => obtain ⟨x, y, z, rfl⟩ := hu; simp
  · rcases exec_next.mp h with hd | ⟨e, u, hr, rfl⟩
    · exact absurd (err_of_done hd he) ht
    · exact raisesWithRes_runOf hi s e u hr

end Sys2Proof.Machine

namespace Sys2Proof.Machine

/-! ### Faults (93_implementation_defined.md U4) -/

/-- The fault is at a byte of IN below IN_LEN that the host never wrote. -/
def Fault.AtUnwritten (s : State) (f : Fault) : Prop :=
  ∃ a, f = .unwrittenInput a ∧ a < s.inLenNat ∧ Mem.read s.inBuf a = Option.none

/-- Every fault of the run is at a byte of IN below IN_LEN that the host never wrote. -/
def Run.FaultsUnwritten (s : State) (r : Run) : Prop := ∀ f, r = .stopped f → f.AtUnwritten s

theorem faults_done (s t : State) : (Run.done t).FaultsUnwritten s := fun _ h => by cases h

theorem faults_raised (s t : State) (e : Err) : (Run.raised e t).FaultsUnwritten s := fun _ h => by cases h

theorem faults_primitive {r : Except Halt State} {s t : State}
    (h : ∀ f, r = .error (.fault f) → f.AtUnwritten s) : (primitive r t).FaultsUnwritten s := by
  intro f hf
  rcases r with (e | g) | u
  · cases hf
  · cases hf; exact h f rfl
  · cases hf

/-- A sequence faults in its first step, or after it, where IN and IN_LEN are still those of `s`. -/
theorem faults_andThen {r : Run} {k : State → Run} {s : State} (hr : r.FaultsUnwritten s)
    (hkept : ∀ u, r.leaves u → Kept s u) (hk : ∀ u, Kept s u → (k u).FaultsUnwritten u) :
    (r.andThen k).FaultsUnwritten s := by
  intro f hf
  rcases andThen_eq_stopped.mp hf with hf | ⟨u, hu, hf⟩
  · exact hr f hf
  · have h := hkept u (leaves_of_done hu)
    obtain ⟨a, e, ha, hn⟩ := hk u h f hf
    exact ⟨a, e, by rwa [State.inLenNat, ← h.inLen], by rw [← h.inBuf]; exact hn⟩

theorem faults_clearOut {r : Run} {s : State} (h : r.FaultsUnwritten s) :
    r.clearOutOnError.FaultsUnwritten s := fun f hf => h f (clearOut_eq_stopped.mp hf)

theorem inputBytes_fault {s : State} {f : Fault} (h : inputBytes s = .error (.fault f)) :
    f.AtUnwritten s := by
  rcases inputBytes_error h with ⟨h, -⟩ | ⟨a, ha, h, hn⟩
  · cases h
  · cases h; exact ⟨a, rfl, ha, hn⟩

theorem loadStream_fault {off : Nat} {s : State} {f : Fault} (h : loadStream off s = .error (.fault f)) :
    f.AtUnwritten s := by
  rcases loadStream_error h with ⟨h, -⟩ | ⟨h, -⟩ | ⟨a, -, ha, h, hn⟩
  · cases h
  · cases h
  · cases h; exact ⟨a, rfl, ha, hn⟩

theorem readHeader_fault {s : State} {f : Fault} (h : readHeader s = .error (.fault f)) :
    f.AtUnwritten s := by
  rcases readHeader_error.mp h with ⟨h, -⟩ | ⟨-, h⟩
  · cases h
  · rcases parseHeader_error h with h | ⟨a, ha, h, hn⟩
    · cases h
    · cases h; exact ⟨a, rfl, ha, hn⟩

theorem encodeSymbol_no_fault {b : Byte} {s : State} {f : Fault} :
    encodeSymbol b s ≠ .error (.fault f) := by
  intro h
  rcases encodeSymbol_error.mp h with ⟨h, -⟩ | ⟨c, -, h, -⟩ <;> cases h

theorem decodeOne_no_fault {s : State} {f : Fault} : decodeOne s ≠ .error (.fault f) := by
  intro h
  rcases decodeOne_error.mp h with ⟨h, -⟩ | ⟨h, -⟩ <;> cases h

theorem decodeAppend_no_fault {s : State} {f : Fault} : decodeAppend s ≠ .error (.fault f) := by
  intro h
  rcases decodeAppend_error.mp h with h | ⟨r, -, h, -⟩
  · exact decodeOne_no_fault h
  · cases h

theorem outAppend_no_fault {l : List Byte} {s : State} {f : Fault} : outAppend l s ≠ .error (.fault f) := by
  intro h
  cases (outAppend_error.mp h).1

theorem buildTree_no_fault {s : State} {f : Fault} : buildTree s ≠ .error (.fault f) := by
  intro h
  cases (buildTree_error.mp h).1

theorem kept_analyze {s t : State} (h : analyze s = .ok t) : Kept s t := by
  obtain ⟨l, -, rfl⟩ := analyze_ok.mp h
  exact kept_of_eq

theorem kept_buildTree {s t : State} (h : buildTree s = .ok t) : Kept s t := by
  obtain ⟨-, rfl⟩ := buildTree_ok.mp h
  exact kept_of_eq

theorem kept_encodeAt {a : Nat} {s t : State} (h : encodeAt a s = .ok t) : Kept s t := by
  obtain ⟨b, -, h⟩ := encodeAt_ok.mp h
  obtain ⟨c, -, -, rfl⟩ := encodeSymbol_ok.mp h
  exact kept_of_eq

theorem kept_decodeAppend {s t : State} (h : decodeAppend s = .ok t) : Kept s t := by
  obtain ⟨b, n, -, -, rfl⟩ := decodeAppend_ok.mp h
  exact kept_decode (l := [b])

/-- ENC_BLOCK's loop below IN_LEN (44_encdec.md R171). -/
theorem faults_encodeLoop {n a : Nat} {s : State} (h : a + n ≤ s.inLenNat) :
    (encodeLoop n a s).FaultsUnwritten s := by
  induction n generalizing a s with
  | zero => exact faults_done s s
  | succ n ih =>
    refine faults_andThen (faults_primitive fun f hf => ?_)
      (fun u hu => kept_primitive hu fun _ => kept_encodeAt) fun u hu => ih (by rw [State.inLenNat, hu.inLen, ← State.inLenNat]; omega)
    rcases encodeAt_error.mp hf with ⟨h', hn⟩ | ⟨b, -, h'⟩
    · cases h'; exact ⟨a, rfl, by omega, hn⟩
    · exact absurd h' encodeSymbol_no_fault

theorem faults_encodeBlock (s : State) : (encodeBlock s).FaultsUnwritten s := by
  unfold encodeBlock
  split
  · exact faults_raised s s _
  · exact faults_encodeLoop (by omega)

theorem faults_decodeLoop (k : Nat) (s : State) : (decodeLoop k s).FaultsUnwritten s := by
  induction k generalizing s with
  | zero => exact faults_done s s
  | succ k ih =>
    exact faults_andThen (faults_primitive fun f hf => absurd hf decodeAppend_no_fault)
      (fun u hu => kept_primitive hu fun _ => kept_decodeAppend) fun u _ => ih u

theorem faults_outAppend (l : List Byte) (s : State) : (primitive (outAppend l s) s).FaultsUnwritten s :=
  faults_primitive fun _ hf => absurd hf outAppend_no_fault

theorem faults_buildTree (s : State) : (primitive (buildTree s) s).FaultsUnwritten s :=
  faults_primitive fun _ hf => absurd hf buildTree_no_fault

theorem faults_analyze (s : State) : (primitive (analyze s) s).FaultsUnwritten s :=
  faults_primitive fun _ hf => inputBytes_fault (analyze_error.mp hf)

theorem faults_compressSteps (s : State) : (compressSteps s).FaultsUnwritten s := by
  unfold compressSteps
  split
  · exact faults_raised s s _
  refine faults_andThen (faults_analyze s) (fun u hu => kept_primitive hu fun _ => kept_analyze)
    fun s1 _ => ?_
  split
  · exact faults_done _ _
  refine faults_andThen (faults_buildTree s1) (fun u hu => kept_primitive hu fun _ => kept_buildTree)
    fun s2 _ => ?_
  refine faults_andThen (faults_done _ _) (fun u hu => hu ▸ kept_of_eq) fun s3 _ => ?_
  refine faults_andThen (faults_encodeBlock s3) (fun u => kept_encodeBlock) fun s4 _ => ?_
  refine faults_andThen (faults_outAppend _ s4) (fun u hu => kept_primitive hu fun _ => kept_outAppend)
    fun s5 _ => ?_
  exact faults_andThen (faults_outAppend _ s5) (fun u hu => kept_primitive hu fun _ => kept_outAppend)
    fun s6 _ => faults_done _ _

theorem faults_decompressSteps (s : State) : (decompressSteps s).FaultsUnwritten s := by
  unfold decompressSteps
  split
  · exact faults_raised s s _
  split
  · exact faults_done _ _
  refine faults_andThen (faults_primitive fun _ => readHeader_fault)
    (fun u hu => kept_primitive hu fun _ => kept_readHeader) fun s1 _ => ?_
  refine faults_andThen (faults_buildTree s1) (fun u hu => kept_primitive hu fun _ => kept_buildTree)
    fun s2 _ => ?_
  refine faults_andThen (faults_primitive fun _ => loadStream_fault)
    (fun u hu => kept_primitive hu fun _ => kept_loadStream) fun s3 _ => ?_
  exact faults_andThen (faults_decodeLoop _ s3) (fun u => kept_decodeLoop) fun s4 _ => faults_done _ _

/-- Every command faults only at an unwritten byte of its input. -/
theorem faults_runOf (i : Instr) (s : State) : (runOf i s).FaultsUnwritten s := by
  cases i with
  | nop => exact faults_done _ _
  | errClear => exact faults_done _ _
  | outClear => exact faults_done _ _
  | bsClear => exact faults_done _ _
  | bsWbit t => exact faults_primitive fun f h => by cases (appendBits_error.mp h).1
  | bsWbits cnt =>
    exact faults_primitive fun f h => by rcases writeBits_error.mp h with ⟨h, -⟩ | ⟨h, -⟩ <;> cases h
  | bsRbit => exact faults_primitive fun f h => by cases (readBit_error.mp h).1
  | bsRbits cnt =>
    exact faults_primitive fun f h => by rcases readBits_error.mp h with ⟨h, -⟩ | ⟨h, -⟩ <;> cases h
  | bsGetbuf => exact faults_outAppend _ s
  | bsLoad => exact faults_primitive fun _ => loadStream_fault
  | faAnalyze => exact faults_analyze s
  | faAccum =>
    refine faults_primitive fun f h => ?_
    rcases accumulate_error.mp h with h | ⟨l, -, h, -⟩
    · exact inputBytes_fault h
    · cases h
  | faRead b => exact faults_done _ _
  | faTotal => exact faults_done _ _
  | htBuild => exact faults_buildTree s
  | htCodes => exact faults_done _ _
  | ctLen b => exact faults_done _ _
  | ctWord b w => exact faults_done _ _
  | encSym b => exact faults_primitive fun _ h => absurd h encodeSymbol_no_fault
  | encBlock => exact faults_encodeBlock s
  | decSym => exact faults_primitive fun _ h => absurd (decodeSymbol_error.mp h) decodeOne_no_fault
  | decBlock =>
    simp only [runOf, decodeBlock]
    split
    · exact faults_decodeLoop _ s
    · exact faults_raised _ _ _
  | hdrWrite => exact faults_outAppend _ s
  | hdrParse => exact faults_primitive fun _ => readHeader_fault
  | codecCompress => exact faults_clearOut (faults_compressSteps { s with outLen := 0 })
  | codecDecompress => exact faults_clearOut (faults_decompressSteps { s with outLen := 0 })

/-- A command answers a next state or faults at an unwritten byte of its input. -/
theorem exec_next_or_fault (i : Instr) (s : State) :
    (∃ t, exec i s = .next t) ∨
    ∃ a, exec i s = .fault (.unwrittenInput a) ∧ a < s.inLenNat ∧ Mem.read s.inBuf a = Option.none := by
  rw [exec_eq_runOf]
  cases hr : runOf i s with
  | done t => exact .inl ⟨t, rfl⟩
  | raised e t => exact .inl ⟨_, rfl⟩
  | stopped f =>
    obtain ⟨a, rfl, ha, hn⟩ := faults_runOf i s f hr
    exact .inr ⟨a, rfl, ha, hn⟩

/-- With IN_LEN = 0 no command faults (10_state.md R42). -/
theorem exec_next_of_noInput (i : Instr) {s : State} (h : s.inLenNat = 0) : ∃ t, exec i s = .next t :=
  (exec_next_or_fault i s).resolve_right fun ⟨_, _, ha, _⟩ => absurd ha (by omega)

theorem executeCommand_next_of_noInput (v : Word) {s : State} (h : s.inLenNat = 0) :
    ∃ t, executeCommand v s = .next t := by
  unfold executeCommand
  split
  · split
    · exact exec_next_of_noInput _ h
    · exact ⟨s, rfl⟩
  · split
    · exact ⟨_, rfl⟩
    · exact exec_next_of_noInput _ h

/-- Settles O18: `exec_next_or_fault`, and after power-up IN_LEN is 0, so there is no such byte. -/
theorem onlyUnwrittenInputFaults : Obligations.OnlyUnwrittenInputFaults := by
  refine ⟨exec_next_or_fault, fun c i => exec_next_of_noInput i rfl, fun c v => ?_⟩
  rw [step_writeReg (by decide) (by decide) rfl]
  exact executeCommand_next_of_noInput v rfl

end Sys2Proof.Machine

namespace Sys2Proof.Machine

/-! ### Where a reader of IN faults (20_memory.md R51, 93_implementation_defined.md U4) -/

theorem inputBytes_unwritten {a : Nat} {s : State} (hc : s.inLenNat ≤ s.caps.inCap)
    (h : firstUnwritten 0 a s) : inputBytes s = .error (.fault (.unwrittenInput a)) := by
  obtain ⟨ho, ha, hn, hb⟩ := h
  rw [inputBytes, if_neg (Nat.not_lt.mpr hc)]
  exact inReadList_unwritten ho (by omega) hn hb

theorem loadStream_unwritten {off a : Nat} {s : State} (hc : s.inLenNat ≤ s.caps.inCap)
    (h : firstUnwritten off a s) (hf : 8 * (s.inLenNat - off) ≤ s.caps.bsCapBits) :
    loadStream off s = .error (.fault (.unwrittenInput a)) := by
  obtain ⟨ho, ha, hn, hb⟩ := h
  rw [loadStream, if_neg (by omega), if_neg (by omega), if_neg (by omega),
    inReadList_unwritten ho (by omega) hn hb]

theorem loadStream_overflow {off : Nat} {s : State} (hc : s.inLenNat ≤ s.caps.inCap)
    (ho : off ≤ s.inLenNat) (hf : s.caps.bsCapBits < 8 * (s.inLenNat - off)) :
    loadStream off s = .error (.err .capacityExceeded) := by
  rw [loadStream, if_neg (Nat.not_lt.mpr hc), if_neg (Nat.not_lt.mpr ho), if_pos hf]

/-- ENC_BLOCK reads up to the first unwritten byte when the bytes in front of it are encoded. -/
theorem encodeBlock_unwritten {s : State} {l : List Byte} (hc : s.inLenNat ≤ s.caps.inCap)
    (hh : holds s.inBuf 0 l) (h : firstUnwritten 0 l.length s) (hs : ∀ b ∈ l, (lookup s.ct b).isSome)
    (hf : s.bs.length + (encodeAll s.ct l).length ≤ s.caps.bsCapBits) :
    encodeBlock s = .stopped (.unwrittenInput l.length) := by
  obtain ⟨-, ha, hn, -⟩ := h
  obtain ⟨n, hk⟩ : ∃ n, s.inLenNat - l.length = n + 1 := ⟨s.inLenNat - l.length - 1, by omega⟩
  have hstop : encodeAt l.length { s with bs := s.bs ++ encodeAll s.ct l } =
      .error (.fault (.unwrittenInput l.length)) := encodeAt_error.mpr (.inl ⟨rfl, hn⟩)
  rw [encodeBlock, if_neg (Nat.not_lt.mpr hc), encodeLoop_append l _ _ _ hh (Nat.le_of_lt ha) hs hf, hk,
    Nat.zero_add, encodeLoop, hstop, primitive_fault, stopped_andThen]

/-- The entry loop faults at the first unwritten byte of the entry it comes to. -/
theorem parseEntries_unwritten {s : State} {k a x sum : Nat} {t : FreqTable} (hx : a ≤ x) (hk : x < a + 9)
    (hn : Mem.read s.inBuf x = Option.none) (hb : ∀ b, a ≤ b → b < x → (Mem.read s.inBuf b).isSome) :
    parseEntries s (k + 1) a t sum = .error (.fault (.unwrittenInput x)) := by
  rw [parseEntries]
  by_cases hxa : x = a
  · subst hxa
    rw [inRead_error.mpr ⟨rfl, hn⟩]
  · obtain ⟨b, hab⟩ := Option.isSome_iff_exists.mp (hb a (Nat.le_refl a) (by omega))
    rw [inRead_ok.mpr hab]
    simp only [inReadList_unwritten (off := a + 1) (n := 8) (by omega) (by omega) hn
      fun b h1 h2 => hb b (by omega) h2]

/-- `parse_header()` faults at the unwritten byte it comes to (45_codec.md R193; log entry 12). -/
theorem parseHeader_unwritten {a : Nat} {s : State} (h : headerStopsAt a s) :
    parseHeader s = .error (.fault (.unwrittenInput a)) := by
  obtain ⟨h4, ⟨ha4, ho, -, hn, hb⟩ | ⟨k, l, hk, hlen, hlk, hg, hh, ha9, ho, ha, hn, hb⟩⟩ := h
  · rw [parseHeader, if_neg (by omega), inReadList_unwritten ho (by omega) hn hb]
  · obtain ⟨hcount, hentries⟩ := holds_append.mp hh
    rw [length_leBytes, Nat.zero_add] at hentries
    obtain ⟨c1, c2⟩ := read_count (by omega) hcount
    obtain ⟨n, rfl⟩ : ∃ n, k = n + 1 + l.length := ⟨k - l.length - 1, by omega⟩
    have hloop : parseEntries s (n + 1 + l.length) 4 emptyFreq 0 = .error (.fault (.unwrittenInput a)) := by
      rw [parseEntries_append s l (n + 1) 4 0 emptyFreq hentries hg.1 hg.2.1
        (fun e _ => lookup_emptyFreq _) (by have := hg.2.2; omega)]
      exact parseEntries_unwritten ho (by omega) hn hb
    rw [parseHeader, if_neg (by omega), c1]
    simp only [c2, if_neg (Nat.not_lt.mpr hk), if_neg (Nat.not_lt.mpr hlen), hloop]

theorem readHeader_unwritten {a : Nat} {s : State} (hc : s.inLenNat ≤ s.caps.inCap)
    (h : headerStopsAt a s) : readHeader s = .error (.fault (.unwrittenInput a)) :=
  readHeader_error.mpr (.inr ⟨hc, parseHeader_unwritten h⟩)

/-- CODEC_COMPRESS faults in its first step, FA_ANALYZE (45_codec.md R196). -/
theorem compressSteps_unwritten {a : Nat} {s : State} (hc : s.inLenNat ≤ s.caps.inCap)
    (h : firstUnwritten 0 a s) : compressSteps s = .stopped (.unwrittenInput a) := by
  rw [compressSteps, if_neg (Nat.not_lt.mpr hc), analyze_error.mpr (inputBytes_unwritten hc h),
    primitive_fault, stopped_andThen]

/-! ### The steps of CODEC_DECOMPRESS (45_codec.md R197) -/

/-- The state once HDR_PARSE has accepted a header with the entries `l` and HT_BUILD has made its tree. -/
def afterBuild (l : List (Byte × Word)) (s : State) : State :=
  { s with
    ft := tableOf l
    res := BitVec.ofNat 64 (4 + 9 * l.length)
    tree := treeOf (tableOf l)
    ct := emptyCodes }

theorem decompressSteps_of_input {s : State} (hc : s.inLenNat ≤ s.caps.inCap) (h0 : s.inLenNat ≠ 0) :
    decompressSteps s = decompressSymbols s := by
  rw [decompressSteps, if_neg (Nat.not_lt.mpr hc), if_neg h0]

theorem readHeader_entryBytes {s : State} {l : List (Byte × Word)} (hc : s.inLenNat ≤ s.caps.inCap)
    (hg : goodEntries l) (hh : holds s.inBuf 0 (entryBytes l)) (hl : (entryBytes l).length ≤ s.inLenNat) :
    readHeader s = .ok { s with ft := tableOf l, res := BitVec.ofNat 64 (4 + 9 * l.length) } :=
  readHeader_ok.mpr ⟨hc, _, _, parseHeader_entryBytes hg hh hl, rfl⟩

theorem keys_tableOf_ne_nil {l : List (Byte × Word)} (hne : l ≠ []) (hg : goodEntries l) :
    keys (tableOf l) ≠ [] := by
  obtain ⟨e, he⟩ := List.exists_mem_of_ne_nil l hne
  exact List.ne_nil_of_mem ((mem_keys_tableOf hg).mpr (List.mem_map_of_mem he))

/-- A table with a key has a tree (43_tree.md R144). -/
theorem treeOf_ne_none {t : FreqTable} (h : keys t ≠ []) : treeOf t ≠ .none := by
  intro e
  have hleaves := (treeOf_spec h).1
  rw [e] at hleaves
  exact h (List.map_eq_nil_iff.mp hleaves.symm.eq_nil)

/-- A header with entries leads past HDR_PARSE and HT_BUILD to the load of the payload. -/
theorem decompressSteps_entryBytes {s : State} {l : List (Byte × Word)} (hc : s.inLenNat ≤ s.caps.inCap)
    (hne : l ≠ []) (hg : goodEntries l) (hh : holds s.inBuf 0 (entryBytes l))
    (hl : (entryBytes l).length ≤ s.inLenNat) :
    decompressSteps s =
      (primitive (loadStream (4 + 9 * l.length) (afterBuild l s)) (afterBuild l s)).andThen fun s3 =>
        (decodeLoop (l.map fun e => e.2.toNat).sum s3).andThen fun s4 => .done (resOutLen s4) := by
  have h256 := length_goodEntries hg
  have hres : (BitVec.ofNat 64 (4 + 9 * l.length)).toNat = 4 + 9 * l.length := by
    rw [BitVec.toNat_ofNat, Nat.mod_eq_of_lt (by omega)]
  have hbuild : buildTree { s with ft := tableOf l, res := BitVec.ofNat 64 (4 + 9 * l.length) } =
      .ok (afterBuild l s) := buildTree_ok.mpr ⟨keys_tableOf_ne_nil hne hg, rfl⟩
  rw [length_entryBytes] at hl
  rw [decompressSteps_of_input hc (by omega), decompressSymbols,
    readHeader_entryBytes hc hg hh (by rwa [length_entryBytes]), primitive_ok, done_andThen, hbuild,
    primitive_ok, done_andThen, hres, freqSum_tableOf hg.1]

/-- CODEC_DECOMPRESS ends where HDR_PARSE, its first step, fails. -/
theorem decompressSteps_header_error {s : State} {h : Halt} (hc : s.inLenNat ≤ s.caps.inCap)
    (h0 : s.inLenNat ≠ 0) (hr : readHeader s = .error h) : decompressSteps s = primitive (.error h) s := by
  rw [decompressSteps_of_input hc h0, decompressSymbols, hr]
  cases h <;> rfl

/-- A header with no entry gives HT_BUILD no key. -/
theorem decompressSteps_noEntry {s : State} (hc : s.inLenNat ≤ s.caps.inCap) (h4 : 4 ≤ s.inLenNat)
    (hh : holds s.inBuf 0 (leBytes 0 4)) :
    decompressSteps s = .raised .emptyFreqTable { s with ft := emptyFreq, res := 4#64 } := by
  have hr : readHeader s = .ok { s with ft := emptyFreq, res := 4#64 } :=
    readHeader_entryBytes (l := []) hc ⟨by simp, by simp, by simp⟩ hh h4
  have hb : buildTree { s with ft := emptyFreq, res := 4#64 } = .error (.err .emptyFreqTable) :=
    buildTree_error.mpr ⟨rfl, (keys_eq_nil_iff _).mpr lookup_emptyFreq⟩
  rw [decompressSteps_of_input hc (by omega), decompressSymbols, hr, primitive_ok, done_andThen, hb,
    primitive_err, raised_andThen]

/-- CODEC_DECOMPRESS ends where the load of the payload fails. -/
theorem decompressSteps_load_error {s : State} {l : List (Byte × Word)} {h : Halt}
    (hc : s.inLenNat ≤ s.caps.inCap) (hne : l ≠ []) (hg : goodEntries l)
    (hh : holds s.inBuf 0 (entryBytes l)) (hl : (entryBytes l).length ≤ s.inLenNat)
    (hr : loadStream (4 + 9 * l.length) (afterBuild l s) = .error h) :
    decompressSteps s = primitive (.error h) (afterBuild l s) := by
  rw [decompressSteps_entryBytes hc hne hg hh hl, hr]
  cases h <;> rfl

/-- CODEC_DECOMPRESS ends where its decode loop fails. -/
theorem decompressSteps_decode_error {s t : State} {l : List (Byte × Word)} {payload : List Byte} {e : Err}
    (hc : s.inLenNat ≤ s.caps.inCap) (hne : l ≠ []) (hg : goodEntries l)
    (hh : holds s.inBuf 0 (entryBytes l ++ payload)) (hlen : s.inLenNat = (entryBytes l ++ payload).length)
    (hfit : 8 * payload.length ≤ s.caps.bsCapBits)
    (hr : decodeLoop (l.map fun e => e.2.toNat).sum
      { afterBuild l s with bs := unpackBytes payload, bsRd := 0 } = .raised e t) :
    decompressSteps s = .raised e t := by
  obtain ⟨hhead, hpay⟩ := holds_append.mp hh
  rw [length_entryBytes, Nat.zero_add] at hpay
  rw [List.length_append, length_entryBytes] at hlen
  have hoff : 4 + 9 * l.length ≤ s.inLenNat := by omega
  have hn : s.inLenNat - (4 + 9 * l.length) = payload.length := by omega
  have hbytes : inReadList (afterBuild l s) (4 + 9 * l.length) (s.inLenNat - (4 + 9 * l.length)) =
      .ok payload := inReadList_ok.mpr ⟨hn.symm, hpay⟩
  have hload : loadStream (4 + 9 * l.length) (afterBuild l s) =
      .ok { afterBuild l s with bs := unpackBytes payload, bsRd := 0 } :=
    loadStream_ok.mpr ⟨hc, hoff, hn.symm ▸ hfit, payload, hbytes, rfl⟩
  rw [decompressSteps_entryBytes hc hne hg hhead (by rw [length_entryBytes]; omega), hload, primitive_ok,
    done_andThen, hr, raised_andThen]

/-- A step of CODEC_DECOMPRESS that raises an error ends it with OUT_LEN = 0 (60_exceptions.md R234). -/
theorem exec_codecDecompress_raised {s t : State} {e : Err}
    (h : decompressSteps { s with outLen := 0 } = .raised e t) :
    exec .codecDecompress s = .next { t with outLen := 0, err := e } := by
  rw [exec_eq_runOf, runOf, h]; rfl

theorem exec_codecDecompress_stopped {s : State} {f : Fault}
    (h : decompressSteps { s with outLen := 0 } = .stopped f) : exec .codecDecompress s = .fault f := by
  rw [exec_eq_runOf, runOf, h]; rfl

theorem exec_codecCompress_stopped {s : State} {f : Fault}
    (h : compressSteps { s with outLen := 0 } = .stopped f) : exec .codecCompress s = .fault f := by
  rw [exec_eq_runOf, runOf, h]; rfl

/-- A primitive command's fault is the command's answer. -/
theorem exec_fault_of_primitive {i : Instr} {r : Except Halt State} {s : State} {f : Fault}
    (hi : runOf i s = primitive r s) (hr : r = .error (.fault f)) : exec i s = .fault f := by
  rw [exec_eq_runOf, hi, hr]; rfl

/-- Settles O19: each reader of IN, at the step that reads. -/
theorem unwrittenInputStopsTheReader : Obligations.UnwrittenInputStopsTheReader := by
  intro s a hc
  refine ⟨fun h => ?_, fun h hf => ?_, fun l hl hh h hs hf => ?_, fun h => ?_, fun l hne hg hh h hf => ?_⟩
  · have hin := inputBytes_unwritten hc h
    refine ⟨exec_fault_of_primitive rfl (analyze_error.mpr hin),
      exec_fault_of_primitive rfl (accumulate_error.mpr (.inl hin)),
      exec_codecCompress_stopped (compressSteps_unwritten hc h)⟩
  · exact exec_fault_of_primitive rfl (loadStream_unwritten hc h hf)
  · subst hl
    rw [exec_eq_runOf, runOf, encodeBlock_unwritten hc hh h hs hf]; rfl
  · have h4 : 4 ≤ s.inLenNat := h.1
    exact ⟨exec_fault_of_primitive rfl (readHeader_unwritten hc h), exec_codecDecompress_stopped
      (decompressSteps_header_error (s := { s with outLen := 0 }) hc (by show s.inLenNat ≠ 0; omega)
        (readHeader_unwritten hc h))⟩
  · have hl := h.1.trans (Nat.le_of_lt h.2.1)
    rw [length_entryBytes] at h hf
    exact exec_codecDecompress_stopped
      (decompressSteps_load_error (s := { s with outLen := 0 }) hc hne hg hh hl
        (loadStream_unwritten hc h hf))

/-! ### HT_BUILD (43_tree.md R140 to R144) -/

/-- The root of a table with keys is the wrapper exactly for one key (43_tree.md R143). -/
theorem treeOf_wrap_iff {t : FreqTable} (h : keys t ≠ []) :
    (keys t).length = 1 ↔ ∃ f b g, treeOf t = .wrap f b g := by
  constructor
  · intro h1
    obtain ⟨b, hb⟩ := List.length_eq_one_iff.mp h1
    exact ⟨_, _, _, treeOf_one hb⟩
  · rintro ⟨f, b, g, hw⟩
    have hpos := List.length_pos_iff.mpr h
    by_contra h1
    obtain ⟨f', l, r, hf⟩ := treeOf_full (t := t) (by omega)
    rw [hw] at hf
    cases hf

/-- A full tree of `n` keys has `n - 1` nodes and is at most as deep (10_state.md R34 c). -/
theorem treeOf_nodes {t : FreqTable} {f : Nat} {l r : HTree} (h : keys t ≠ [])
    (e : treeOf t = .full f l r) :
    (HTree.node f l r).nodes = (keys t).length - 1 ∧ (HTree.node f l r).depth ≤ (keys t).length - 1 := by
  have hleaves : (HTree.node f l r).leaves.length = (keys t).length := by
    have hp := (treeOf_spec h).1.length_eq
    rwa [e, List.length_map] at hp
  have hnodes := nodes_add_one (.node f l r)
  have hdepth := depth_le_nodes (.node f l r)
  omega

/-- Settles O39: HT_BUILD stores `treeOf`, whose laws these are. -/
theorem buildMakesTheTreeOfTheTable : Obligations.BuildMakesTheTreeOfTheTable := by
  refine fun s => ⟨fun ⟨b, hb⟩ => ?_, fun h => ?_⟩
  · have hk : keys s.ft ≠ [] := List.ne_nil_of_mem (mem_keys.mpr hb)
    obtain ⟨hleaves, hfreq, hsums⟩ := treeOf_spec hk
    refine ⟨treeOf s.ft, emptyCodes, ?_, lookup_emptyCodes, hleaves, hsums, hfreq, treeOf_wrap_iff hk,
      fun h2 => ?_⟩
    · rw [exec_eq_runOf, runOf, buildTree_ok.mpr ⟨hk, rfl⟩]; rfl
    · obtain ⟨f, l, r, e⟩ := treeOf_full h2
      exact ⟨f, l, r, e, treeOf_nodes hk e⟩
  · rw [exec_eq_runOf, runOf, buildTree_error.mpr ⟨rfl, (keys_eq_nil_iff s.ft).mpr h⟩]; rfl

/-! ### Where CODEC_DECOMPRESS stops (45_codec.md R197, 60_exceptions.md R233, R234) -/

/-- HDR_PARSE answers an error only by failing. -/
theorem readHeader_of_exec {s : State} {e : Err} (hs : s.err = .none) (he : e ≠ .none)
    (h : exec .hdrParse s = .next { s with err := e }) : readHeader s = .error (.err e) := by
  have h' : (primitive (readHeader s) s).outcome = .next { s with err := e } := h
  rcases primitive_next.mp h' with hr | ⟨e', hr, ht⟩
  · have := (kept_readHeader hr).err
    exact absurd (this.trans hs) he
  · have : e = e' := congrArg State.err ht
    rw [this, hr]

/-- The decoding loop ends where one of its steps fails. -/
theorem decodeLoop_raised {k : Nat} {s : State} {e : Err} (h : decodeAppend s = .error (.err e)) :
    decodeLoop (k + 1) s = .raised e s := by
  rw [decodeLoop, h, primitive_err, raised_andThen]

/-- The symbols that decode and fit, and the one after them that fails (44_encdec.md R174). -/
theorem decodeLoop_fails {s : State} {bits : Bits} {out : List Byte} {k : Nat} {e : Err}
    (hne : s.tree ≠ .none) (hs : s.tree.spells bits out) (hp : bits <+: s.unread) (hk : out.length < k)
    (hcap : s.outLen + out.length ≤ s.caps.outCap)
    (he : e = .corruptPayload ∧ (∀ p b, s.tree.reads p b → ¬ p <+: s.unread.drop bits.length) ∨
      e = .capacityExceeded ∧ s.outLen + out.length = s.caps.outCap ∧
        ∃ p b, s.tree.reads p b ∧ p <+: s.unread.drop bits.length) :
    decodeLoop k s = .raised e { s with
      bsRd := s.bsRd + bits.length
      outLen := s.outLen + out.length
      outBuf := Mem.writeList s.outBuf s.outLen out } := by
  obtain ⟨ps, rfl, hps⟩ := hs
  obtain ⟨n, hn⟩ : ∃ n, k - out.length = n + 1 := ⟨k - out.length - 1, by omega⟩
  rw [decodeLoop_append ps out k s hps hp (Nat.le_of_lt hk) hcap, hn]
  refine decodeLoop_raised ?_
  rw [State.unread, List.drop_drop] at he
  rcases he with ⟨rfl, hr⟩ | ⟨rfl, hfull, p, b, hr, rest, hrest⟩
  · have hcut := traverseRoot_none_of_reads hr
    exact decodeAppend_error.mpr (.inl (decodeOne_error.mpr (.inr ⟨rfl, hne, hcut⟩)))
  · refine decodeAppend_error.mpr (.inr ⟨(b, p.length), ?_, rfl, by simp only; omega⟩)
    simp only [State.unread]
    rw [← hrest]
    exact traverseRoot_of_reads hr rest

/-- Settles O58: each clause names the first step that fails. -/
theorem decompressStopsAtTheFirstError : Obligations.DecompressStopsAtTheFirstError := by
  intro s hs hc
  refine ⟨fun h0 h => ?_, fun h4 hh => ?_, fun l hne hg hh hl hcap => ?_,
    fun l payload bits out e hne hg hh hlen hfit hspell hpre hlt hout he => ?_⟩
  · have hr := readHeader_of_exec (s := { s with outLen := 0 }) hs (by simp) h
    exact exec_codecDecompress_raised (t := { s with outLen := 0 })
      (decompressSteps_header_error (s := { s with outLen := 0 }) hc h0 hr)
  · exact exec_codecDecompress_raised (decompressSteps_noEntry (s := { s with outLen := 0 }) hc h4 hh)
  · have hload : loadStream (4 + 9 * l.length) (afterBuild l { s with outLen := 0 }) =
        .error (.err .capacityExceeded) :=
      loadStream_overflow hc (length_entryBytes l ▸ hl) (length_entryBytes l ▸ hcap)
    exact exec_codecDecompress_raised
      (decompressSteps_load_error (s := { s with outLen := 0 }) hc hne hg hh hl hload)
  · have hloop := decodeLoop_fails (e := e)
      (s := { afterBuild l { s with outLen := 0 } with bs := unpackBytes payload, bsRd := 0 })
      (k := (l.map fun x => x.2.toNat).sum) (treeOf_ne_none (keys_tableOf_ne_nil hne hg)) hspell hpre
      hlt ((Nat.zero_add _).trans_le hout)
      (by simpa [afterBuild, State.unread] using he)
    refine ⟨_, exec_codecDecompress_raised (decompressSteps_decode_error (s := { s with outLen := 0 })
      hc hne hg hh hlen hfit hloop), ?_, fun a ha => ?_⟩
    · simp [afterBuild]
    · exact Mem.read_writeList_above out s.outBuf ((Nat.zero_add _).trans_le ha)

end Sys2Proof.Machine

namespace Sys2Proof.Machine

/-! ### Accesses that repeat (20_memory.md R61) -/

/-- A register access that is not refused has the one defined form (20_memory.md R57, R62). -/
theorem registerAccess_of_step {s t : State} {rest : List HostAction} {n off : Nat} {v : Word}
    (h : s.host = .writeReg n off v :: rest ∨ s.host = .readReg n off :: rest) (hs : step s = .next t) :
    n = 8 ∧ off % 8 = 0 ∧ off < 0x100 := by
  have accepted (r : Refusal) (hr : registerAccess n off = some r) : False := by
    rw [step_register_refused hr h] at hs; cases hs
  by_cases hn : n = 8
  · subst hn
    by_cases ha : off % 8 = 0
    · exact ⟨rfl, ha, Nat.not_le.mp fun hw => accepted _ (registerAccess_outside ha hw)⟩
    · exact (accepted _ (registerAccess_unaligned ha)).elim
  · exact (accepted _ (registerAccess_width off hn)).elim

/-- An access of IN that is not refused lies below IN_CAP. -/
theorem input_lt_of_step {s t : State} {rest : List HostAction} {a : Nat} {x : Byte}
    (h : s.host = .writeIn a x :: rest ∨ s.host = .readIn a :: rest) (hs : step s = .next t) :
    a < s.caps.inCap :=
  Nat.not_le.mp fun ha => by rw [step_input_refused ha h] at hs; cases hs

/-- A read of OUT that is not refused lies below OUT_CAP. -/
theorem output_lt_of_step {s t : State} {rest : List HostAction} {a : Nat}
    (h : s.host = .readOut a :: rest) (hs : step s = .next t) : a < s.caps.outCap :=
  Nat.not_le.mp fun ha => by rw [step_output_refused ha h] at hs; cases hs

/-- A host read changes only the reply, and the same read again answers the same. -/
theorem hostRead_repeats {s t : State} {act : HostAction} {rest : List HostAction}
    (hact : (∃ n off, act = .readReg n off) ∨ (∃ a, act = .readIn a) ∨ (∃ a, act = .readOut a))
    (hh : s.host = act :: act :: rest) (hs : step s = .next t) :
    t = { s with host := act :: rest, reply := t.reply } ∧ step t = .next { t with host := rest } := by
  rcases hact with ⟨n, off, rfl⟩ | ⟨a, rfl⟩ | ⟨a, rfl⟩
  · obtain ⟨rfl, ha, hw⟩ := registerAccess_of_step (v := 0#64) (.inr hh) hs
    rw [step_readReg ha hw hh] at hs
    cases hs
    exact ⟨rfl, step_readReg ha hw rfl⟩
  · have ha := input_lt_of_step (x := 0#8) (.inr hh) hs
    rw [step_readIn ha hh] at hs
    cases hs
    exact ⟨rfl, step_readIn ha rfl⟩
  · have ha := output_lt_of_step hh hs
    rw [step_readOut ha hh] at hs
    cases hs
    exact ⟨rfl, step_readOut ha rfl⟩

/-- A defined register write but one to CMD, with its host action consumed. -/
theorem step_writeReg_not_cmd {s : State} {rest : List HostAction} {off : Nat} {v : Word}
    (ha : off % 8 = 0) (hw : off < 0x100) (h0 : off ≠ 0x00) (h : s.host = .writeReg 8 off v :: rest) :
    step s = .next { s with
      host := rest
      epoch := s.epoch + 1
      opnd := if off = 0x08 then v else s.opnd
      inLen := if off = 0x20 then v else s.inLen } := by
  rw [step_writeReg ha hw h, writeRegister_not_cmd v _ h0]

/-- Settles O12: a read and its repetition answer from the same block; a repeated write stores the value
that already stands there. -/
theorem hostReadsArePureAndWritesIdempotent : Obligations.HostReadsArePureAndWritesIdempotent := by
  refine ⟨fun s t act rest => hostRead_repeats, fun s t act rest hact hh hs => ?_⟩
  rcases hact with ⟨n, off, v, rfl, h0⟩ | ⟨a, x, rfl⟩
  · obtain ⟨rfl, ha, hw⟩ := registerAccess_of_step (.inl hh) hs
    rw [step_writeReg_not_cmd ha hw h0 hh] at hs
    cases hs
    refine ⟨rfl, ?_, ?_, nofun⟩
    · have stored (p : Prop) [Decidable p] (old : Word) :
          (if p then v else if p then v else old) = if p then v else old := by split <;> rfl
      rw [step_writeReg_not_cmd ha hw h0 rfl, stored, stored]
    · intro n off' v' e
      cases e
      exact ⟨rfl, fun h8 => if_neg h8, fun h20 => if_neg h20⟩
  · have ha := input_lt_of_step (.inl hh) hs
    rw [step_writeIn ha hh] at hs
    cases hs
    refine ⟨rfl, ?_, nofun, ?_⟩
    · exact Eq.trans (step_writeIn ha rfl) (by rw [Mem.write_write_same])
    · intro a' x' e
      cases e
      exact ⟨rfl, rfl, fun b hb => Mem.read_write_other s.inBuf x hb⟩

/-! ### The stream as bytes: BS_GET_BUFFER and BS_LOAD (41_bitstream.md R106, R107) -/

/-- A primitive command's result is the command's answer. -/
theorem exec_next_of_primitive {i : Instr} {r : Except Halt State} {s t : State}
    (hi : runOf i s = primitive r s) (hr : r = .ok t) : exec i s = .next t := by
  rw [exec_eq_runOf, hi, hr]; rfl

/-- A primitive command's error is a next state with only STATUS.ERR changed (60_exceptions.md R232). -/
theorem exec_err_of_primitive {i : Instr} {r : Except Halt State} {s : State} {e : Err}
    (hi : runOf i s = primitive r s) (hr : r = .error (.err e)) :
    exec i s = .next { s with err := e } := by
  rw [exec_eq_runOf, hi, hr]; rfl

/-- Settles O31: OUT gets `packBytes` of the stream, whose bits `getLsbD_packByte` names. -/
theorem getBufferPacksMsbFirst : Obligations.GetBufferPacksMsbFirst := by
  intro s
  refine ⟨fun hcap => ?_, fun hcap => exec_err_of_primitive rfl (getBuffer_error.mpr ⟨rfl, hcap⟩)⟩
  have hok := getBuffer_ok.mpr ⟨hcap, rfl⟩
  obtain ⟨hbelow, hnew⟩ := outAppend_read hok
  refine ⟨_, exec_next_of_primitive rfl hok, rfl, fun a ha => ?_, fun j hj => ?_⟩
  · rcases ha with ha | ha
    · exact hbelow a ha
    · exact Mem.read_writeList_above _ _ ((length_packBytes s.bs).symm ▸ ha)
  · have hj' : j < (packBytes s.bs).length := (length_packBytes s.bs).symm ▸ hj
    exact ⟨packByte s.bs j, getElem_packBytes s.bs j hj' ▸ hnew j hj',
      fun k hk => getLsbD_packByte s.bs j k hk⟩

theorem loadStream_outOfRange {off : Nat} {s : State} (h : s.caps.inCap < s.inLenNat ∨ s.inLenNat < off) :
    loadStream off s = .error (.err .outOfRange) := by
  rw [loadStream]
  rcases h with h | h
  · rw [if_pos h]
  · rw [if_pos h, ite_self]

/-- Settles O32: the stream becomes `unpackBytes` of the bytes read, whose bits `getElem_unpackBytes`
names. -/
theorem loadReplacesTheStream : Obligations.LoadReplacesTheStream := by
  intro s
  refine ⟨fun ⟨hcap, hwritten⟩ hoff hfit => ?_,
    fun h => exec_err_of_primitive rfl (loadStream_outOfRange h),
    fun hcap hoff hfit => exec_err_of_primitive rfl (loadStream_overflow hcap hoff hfit)⟩
  obtain ⟨l, hl⟩ := inReadList_of_written (n := s.inLenNat - s.opnd.toNat)
    fun b hb hb' => hwritten b hb (by omega)
  obtain ⟨hlen, hholds⟩ := inReadList_ok.mp hl
  have hload : loadStream s.opndNat s = .ok { s with bs := unpackBytes l, bsRd := 0 } :=
    loadStream_ok.mpr ⟨hcap, hoff, hfit, l, hl, rfl⟩
  have hbits : (unpackBytes l).length = 8 * (s.inLenNat - s.opnd.toNat) := by
    rw [length_unpackBytes, hlen]
  refine ⟨_, exec_next_of_primitive rfl hload, rfl, hbits, fun i hi => ?_⟩
  have hi' : i < (unpackBytes l).length := hbits.symm ▸ hi
  refine ⟨_, hholds (i / 8) (by omega), ?_⟩
  rw [List.getElem?_eq_getElem hi', getElem_unpackBytes]

end Sys2Proof.Machine

namespace Sys2Proof.Machine

/-! ### What the decoder answers (30_encoding.md R73) -/

/-- On a value whose high half is 0 and whose opcode is assigned, the mask test decides. -/
theorem decode_assigned {v : Word} {fmt : Format} {i : Instr} (hh : v.extractLsb' 32 32 = 0#32)
    (ho : opcodeMap (v.extractLsb' 0 8).toNat (fieldsOf v) = some (fmt, i)) :
    decode v = if v.extractLsb' 0 32 &&& fmt.mask = (v.extractLsb' 0 8).setWidth 32 then .ok i
      else .error .reservedBitSet := by
  rw [decode, if_neg (not_not.mpr hh), ho]
  exact ite_not ..

theorem decode_unassigned {v : Word} (hh : v.extractLsb' 32 32 = 0#32)
    (ho : opcodeMap (v.extractLsb' 0 8).toNat (fieldsOf v) = none) :
    decode v = .error .unassignedOpcode := by
  rw [decode, if_neg (not_not.mpr hh), ho]

theorem decode_highBitsSet {v : Word} (hh : v.extractLsb' 32 32 ≠ 0#32) :
    decode v = .error .highBitsSet := by
  rw [decode, if_pos hh]

/-- What a value that decodes passed; `decode_of_mask` is the converse. -/
theorem mask_of_decode {v : Word} {i : Instr} (h : decode v = .ok i) :
    v.extractLsb' 32 32 = 0#32 ∧
    ∃ fmt, opcodeMap (v.extractLsb' 0 8).toNat (fieldsOf v) = some (fmt, i) ∧
      v.extractLsb' 0 32 &&& fmt.mask = (v.extractLsb' 0 8).setWidth 32 := by
  by_cases hh : v.extractLsb' 32 32 = 0#32
  · cases ho : opcodeMap (v.extractLsb' 0 8).toNat (fieldsOf v) with
    | none => rw [decode_unassigned hh ho] at h; cases h
    | some p =>
      rw [decode_assigned hh ho] at h
      split at h
      · next hm => cases h; exact ⟨hh, p.1, rfl, hm⟩
      · cases h
  · rw [decode_highBitsSet hh] at h; cases h

/-! ### A value is the word of its own opcode and fields (30_encoding.md R72) -/

theorem formatWord_fieldsOf {v : Word} {fmt : Format} (hh : v.extractLsb' 32 32 = 0#32)
    (hm : v.extractLsb' 0 32 &&& fmt.mask = (v.extractLsb' 0 8).setWidth 32) :
    formatWord (v.extractLsb' 0 8) (fieldsOf v) fmt = v := by
  rw [mask_test_fields] at hm
  cases fmt with
  | N => exact wordN_fields hh hm
  | T => exact wordT_fields hh hm
  | C => exact wordC_fields hh hm
  | B => exact wordB_fields hh hm
  | W => exact wordW_fields hh hm

/-! ### Illegal values (30_encoding.md R76) -/

/-- With the high half 0 and an opcode of the format, a value is illegal when the format's mask test
fails. -/
theorem illegalValue_iff_of_format {v : Word} {fmt : Format} (hh : v.extractLsb' 32 32 = 0#32)
    (hop : (v.extractLsb' 0 8).toNat ∈ formatOpcodes fmt) :
    illegalValue v ↔ ¬ v.extractLsb' 0 32 &&& fmt.mask = (v.extractLsb' 0 8).setWidth 32 := by
  rw [mask_test_fields, illegalValue]
  generalize (v.extractLsb' 0 8).toNat = op at hop
  revert op
  cases fmt <;> simp [formatOpcodes, hh, -not_and, not_and_or]

/-- Settles O1: the format of the command's word gives its opcode, its fields and 0 elsewhere. -/
theorem decodeOfEncodeIsIdentity : Obligations.DecodeOfEncodeIsIdentity :=
  fun _ => decode_encode

/-- Settles O2: the mask test leaves only the opcode and the fields the encoder writes. -/
theorem decodedValueIsTheEncoding : Obligations.DecodedValueIsTheEncoding := by
  intro v i h
  obtain ⟨hh, fmt, ho, hm⟩ := mask_of_decode h
  obtain ⟨hwf, henc⟩ := opcodeMap_encode (BitVec.ofNat_toNat _ _).symm ho
    (BitVec.isLt _) (BitVec.isLt _)
  exact ⟨hwf, henc.trans (formatWord_fieldsOf hh hm)⟩

/-- Settles O3: the decoder's three tests, the last one format by format. -/
theorem illegalValuesAreThoseOfTheSpec : Obligations.IllegalValuesAreThoseOfTheSpec := by
  intro v
  by_cases hh : v.extractLsb' 32 32 = 0#32
  · cases ho : opcodeMap (v.extractLsb' 0 8).toNat (fieldsOf v) with
    | none => exact iff_of_true ⟨_, decode_unassigned hh ho⟩ (.inr (.inl (opcodeMap_none.mp ho)))
    | some p =>
      rw [illegalValue_iff_of_format hh (opcodeMap_format ho), decode_assigned hh ho]
      split
      · next hm => exact iff_of_false nofun (not_not.mpr hm)
      · next hm => exact iff_of_true ⟨_, rfl⟩ hm
  · exact iff_of_true ⟨_, decode_highBitsSet hh⟩ (.inl hh)

/-- Settles O4: the words are numerals, which the decoder runs on. -/
theorem spelledWordsDecode : Obligations.SpelledWordsDecode := by
  unfold Obligations.SpelledWordsDecode
  decide

/-! ### Command lines (30_encoding.md R78) -/

theorem asByte_toNat (b : Byte) : asByte b.toNat = some b := by
  rw [asByte, if_pos b.isLt, BitVec.ofNat_toNat, BitVec.setWidth_eq]

theorem toNat_of_asByte {v : Nat} {b : Byte} (h : asByte v = some b) : b.toNat = v := by
  unfold asByte at h
  split at h
  · next hv => cases h; exact Nat.mod_eq_of_lt hv
  · cases h

theorem readCommand_operands {i : Instr} (h : i.wellFormed = true) :
    readCommand (mnemonic i) (operands i) = some i := by
  cases i with
  | bsWbit t => cases t <;> rfl
  | bsWbits cnt => exact if_pos h
  | bsRbits cnt => exact if_pos h
  | faRead b => exact congrArg (Option.map Instr.faRead) (asByte_toNat b)
  | ctLen b => exact congrArg (Option.map Instr.ctLen) (asByte_toNat b)
  | encSym b => exact congrArg (Option.map Instr.encSym) (asByte_toNat b)
  | ctWord b w => exact (if_pos h).trans (congrArg _ (asByte_toNat b))
  | _ => rfl

/-- A command with one byte operand is read with the operand's value. -/
theorem toNat_of_map_asByte {v : Nat} {f : Byte → Instr} {i : Instr} (h : (asByte v).map f = some i) :
    ∃ b : Byte, b.toNat = v ∧ f b = i := by
  obtain ⟨b, hb, hf⟩ := Option.map_eq_some_iff.mp h
  exact ⟨b, toNat_of_asByte hb, hf⟩

theorem spells_of_readCommand {name : String} {ops : List Nat} {i : Instr}
    (h : readCommand name ops = some i) :
    mnemonic i = name ∧ operands i = ops ∧ i.wellFormed = true := by
  unfold readCommand at h
  split at h
  case h_5 t =>
    obtain ⟨ht, hi⟩ := Option.ite_none_right_eq_some.mp h
    cases hi
    obtain rfl | rfl : t = 0 ∨ t = 1 := by omega
    all_goals exact ⟨rfl, rfl, rfl⟩
  case h_6 | h_8 =>
    obtain ⟨hcnt, hi⟩ := Option.ite_none_right_eq_some.mp h
    cases hi
    exact ⟨rfl, rfl, hcnt⟩
  case h_13 | h_17 | h_19 =>
    obtain ⟨b, rfl, rfl⟩ := toNat_of_map_asByte h
    exact ⟨rfl, rfl, rfl⟩
  case h_18 =>
    obtain ⟨hw, hi⟩ := Option.ite_none_right_eq_some.mp h
    obtain ⟨b, rfl, rfl⟩ := toNat_of_map_asByte hi
    exact ⟨rfl, rfl, hw⟩
  case h_27 => cases h
  all_goals
    cases h
    exact ⟨rfl, rfl, rfl⟩

/-- Settles O5: the reader inverts `mnemonic` and `operands`, mnemonic by mnemonic. -/
theorem commandLinesSpellTheirCommands : Obligations.CommandLinesSpellTheirCommands :=
  ⟨fun _ => readCommand_operands, fun _ _ _ => spells_of_readCommand⟩

end Sys2Proof.Machine

namespace Sys2Proof.Machine

/-! ### The control commands and BS_CLEAR (40_control.md R90 to R92, 41_bitstream.md R101) -/

/-- A command whose run completes without an error answers the state it ends in. -/
theorem exec_next_of_done {i : Instr} {s t : State} (h : runOf i s = .done t) : exec i s = .next t :=
  exec_next.mpr (.inl h)

/-- Settles O27: the run of each of the four commands is one completed step, whose state `runOf` names. -/
theorem controlCommandsAndClear : Obligations.ControlCommandsAndClear := by
  intro s
  have nop : runOf .nop s = .done s := rfl
  have errClear : runOf .errClear s = .done { s with err := .none } := rfl
  have outClear : runOf .outClear s = .done { s with outLen := 0 } := rfl
  have bsClear : runOf .bsClear s = .done { s with bs := [], bsRd := 0 } := rfl
  exact ⟨exec_next_of_done nop, exec_next_of_done errClear, exec_next_of_done outClear,
    exec_next_of_done bsClear⟩

end Sys2Proof.Machine

namespace Sys2Proof.Machine

/-! ### Bits in and out of the stream (41_bitstream.md R102 to R105) -/

/-- The bits of a value and a count are `bits_msb` of the value (00_scope.md R10). -/
theorem pieceBits_inr (v : Word) (cnt : Nat) : pieceBits (.inr (v, cnt)) = bitsMsb v.toNat cnt :=
  (bitsMsb_eq_map v.toNat cnt).symm

/-- OPND[31:0] holds every bit that BS_WRITE_BITS can name. -/
theorem bitsMsb_opndValue {cnt : Nat} (s : State) (hcnt : cnt ≤ 32) :
    bitsMsb s.opndValue cnt = pieceBits (.inr (s.opnd, cnt)) := by
  rw [pieceBits_inr, bitsMsb_eq_map, bitsMsb_eq_map]
  refine List.map_congr_left fun k hk => ?_
  have hbit : cnt - 1 - k < 32 := by have := List.mem_range.mp hk; omega
  rw [State.opndValue, BitVec.extractLsb'_toNat, Nat.shiftRight_zero, Nat.testBit_mod_two_pow]
  simp [hbit]

theorem exec_bsWbit {t : Bool} {s : State} (hfit : s.bs.length + 1 ≤ s.caps.bsCapBits) :
    exec (.bsWbit t) s = .next { s with bs := s.bs ++ [t] } :=
  exec_next_of_primitive rfl (appendBits_ok.mpr ⟨hfit, rfl⟩)

theorem exec_bsWbits {cnt : Nat} {s : State} (hcnt : cnt ≤ 32)
    (hfit : s.bs.length + cnt ≤ s.caps.bsCapBits) :
    exec (.bsWbits cnt) s = .next { s with bs := s.bs ++ pieceBits (.inr (s.opnd, cnt)) } :=
  exec_next_of_primitive rfl (writeBits_ok.mpr ⟨hcnt, hfit, by rw [bitsMsb_opndValue s hcnt]⟩)

/-- What BS_READ_BITS leaves in RES for the bits `l` (41_bitstream.md R105). -/
def bitsWord (l : Bits) : Word := BitVec.ofNat 64 (valMsb l)

theorem exec_bsRbits {cnt : Nat} {s : State} (hcnt : cnt ≤ 32) (hfit : s.bsRd + cnt ≤ s.bs.length) :
    exec (.bsRbits cnt) s =
      .next { s with res := bitsWord (s.unread.take cnt), bsRd := s.bsRd + cnt } :=
  exec_next_of_primitive rfl (readBits_ok.mpr ⟨hcnt, hfit, rfl⟩)

/-- A bit of the next `cnt` unread bits is the bit of the stream that far past BS_RD. -/
theorem getD_take_unread {s : State} {cnt k : Nat} (hk : k < cnt) :
    (s.unread.take cnt).getD k false = s.bs.getD (s.bsRd + k) false := by
  rw [List.getD, List.getD, List.getElem?_take_of_lt hk, State.unread, List.getElem?_drop]

theorem length_take_unread {cnt : Nat} {s : State} (hfit : s.bsRd + cnt ≤ s.bs.length) :
    (s.unread.take cnt).length = cnt := by
  rw [List.length_take, State.unread, List.length_drop]; omega

/-- A word holds the value of up to 64 bits without loss. -/
theorem toNat_bitsWord {l : Bits} (hl : l.length ≤ 64) : (bitsWord l).toNat = valMsb l :=
  Nat.mod_eq_of_lt (Nat.lt_of_lt_of_le (valMsb_lt l) (Nat.pow_le_pow_right (by decide) hl))

theorem toNat_bitsWord_lt {l : Bits} (hl : l.length ≤ 64) : (bitsWord l).toNat < 2 ^ l.length :=
  toNat_bitsWord hl ▸ valMsb_lt l

/-- The bits of the word read are the bits read. -/
theorem pieceBits_bitsWord {l : Bits} (hl : l.length ≤ 64) : pieceBits (.inr (bitsWord l, l.length)) = l := by
  rw [pieceBits_inr, toNat_bitsWord hl, bitsMsb_valMsb]

theorem getLsbD_bitsWord {l : Bits} (hl : l.length ≤ 64) {k : Nat} (hk : k < l.length) :
    (bitsWord l).getLsbD (l.length - 1 - k) = l.getD k false := by
  have hi : l.length - 1 - (l.length - 1 - k) = k := by omega
  rw [BitVec.getLsbD, toNat_bitsWord hl, testBit_valMsb l _ (by omega), List.getD_eq_getElem _ _ hk]
  simp only [hi]

theorem getLsbD_bitsWord_above {l : Bits} (hl : l.length ≤ 64) {k : Nat} (hk : l.length ≤ k) :
    (bitsWord l).getLsbD k = false :=
  Nat.testBit_lt_two_pow
    (Nat.lt_of_lt_of_le (toNat_bitsWord_lt hl) (Nat.pow_le_pow_right (by decide) hk))

/-- Settles O28: `appendBits` and `readBit` in both their cases. -/
theorem singleBitWriteAndRead : Obligations.SingleBitWriteAndRead := by
  refine ⟨fun t s => ⟨exec_bsWbit,
    fun hfull => exec_err_of_primitive rfl (appendBits_error.mpr ⟨rfl, hfull⟩)⟩,
    fun s => ⟨fun hbit => exec_next_of_primitive rfl (readBit_ok.mpr ?_),
      fun hend => exec_err_of_primitive rfl (readBit_error.mpr ⟨rfl, hend.ge⟩)⟩⟩
  refine ⟨s.bs[s.bsRd], List.getElem?_eq_getElem hbit, ?_⟩
  cases s.bs[s.bsRd] <;> rfl

/-- Settles O29: `exec_bsWbits` where the bits fit, `writeBits_error` for the two errors in order. -/
theorem writeBitsAppendsTheLowBitsOfOpnd : Obligations.WriteBitsAppendsTheLowBitsOfOpnd := fun _ _ =>
  ⟨exec_bsWbits, fun hcnt => exec_err_of_primitive rfl (writeBits_error.mpr (.inl ⟨rfl, hcnt⟩)),
    fun hcnt hfull => exec_err_of_primitive rfl (writeBits_error.mpr (.inr ⟨rfl, hcnt, hfull⟩))⟩

/-- Settles O30: RES is `bitsWord` of the bits taken, whose bits `getLsbD_bitsWord` names. -/
theorem readBitsComposesMsbFirst : Obligations.ReadBitsComposesMsbFirst := by
  intro cnt s
  refine ⟨fun hcnt hfit => ⟨_, exec_bsRbits hcnt hfit, ?_⟩,
    fun hcnt => exec_err_of_primitive rfl (readBits_error.mpr (.inl ⟨rfl, hcnt⟩)),
    fun hcnt hshort => exec_err_of_primitive rfl (readBits_error.mpr (.inr ⟨rfl, hcnt, hshort⟩))⟩
  have hlen := length_take_unread hfit
  refine ⟨fun k hk => ?_, fun k hk => getLsbD_bitsWord_above (by omega) (by omega)⟩
  have hbit := getLsbD_bitsWord (l := s.unread.take cnt) (k := k) (by omega) (by omega)
  rwa [hlen, getD_take_unread hk] at hbit

/-! ### Bit sequences in any split (41_bitstream.md R108 b) -/

theorem succeeded_next {s : State} (h : s.err = .none) : succeeded (.next s) = some s := if_pos h

theorem writePieces_cons {p : Piece} {ps : List Piece} {s t : State} (h : writePiece p s = .next t)
    (ht : t.err = .none) : writePieces (p :: ps) s = writePieces ps t := by
  rw [writePieces, h, succeeded_next ht, Option.bind_some]

theorem readPieces_cons {c : Nat} {cs : List Nat} {s t u : State} {rs : List Word}
    (h : exec (.bsRbits c) s = .next t) (ht : t.err = .none) (hrest : readPieces cs t = some (rs, u)) :
    readPieces (c :: cs) s = some (t.res :: rs, u) := by
  rw [readPieces, h, succeeded_next ht, Option.bind_some, hrest, Option.map_some]

/-- Writing one piece appends its bits; OPND is left at the piece's value. -/
theorem writePiece_next {p : Piece} {s : State} (hcnt : ∀ v cnt, p = .inr (v, cnt) → cnt ≤ 32)
    (hfit : s.bs.length + (pieceBits p).length ≤ s.caps.bsCapBits) :
    ∃ v, writePiece p s = .next { s with opnd := v, bs := s.bs ++ pieceBits p } := by
  cases p with
  | inl t => exact ⟨s.opnd, exec_bsWbit hfit⟩
  | inr x =>
    obtain ⟨v, cnt⟩ := x
    rw [pieceBits_inr, length_bitsMsb] at hfit
    exact ⟨v, exec_bsWbits (s := { s with opnd := v }) (hcnt v cnt rfl) hfit⟩

/-- Writing pieces appends their bits one after the other. -/
theorem writePieces_appends {pieces : List Piece} {s : State} (herr : s.err = .none)
    (hcnt : ∀ v cnt, .inr (v, cnt) ∈ pieces → cnt ≤ 32)
    (hfit : s.bs.length + (pieces.flatMap pieceBits).length ≤ s.caps.bsCapBits) :
    ∃ v, writePieces pieces s = some { s with opnd := v, bs := s.bs ++ pieces.flatMap pieceBits } := by
  induction pieces generalizing s with
  | nil => exact ⟨s.opnd, by rw [List.flatMap_nil, List.append_nil]; rfl⟩
  | cons p ps ih =>
    rw [List.flatMap_cons, List.length_append] at hfit
    obtain ⟨v, hp⟩ := writePiece_next (p := p) (s := s)
      (fun v cnt h => hcnt v cnt (h ▸ List.mem_cons_self)) (by omega)
    have hfit' : (s.bs ++ pieceBits p).length + (ps.flatMap pieceBits).length ≤ s.caps.bsCapBits := by
      rw [List.length_append]; omega
    obtain ⟨w, hps⟩ := ih (s := { s with opnd := v, bs := s.bs ++ pieceBits p }) herr
      (fun v cnt h => hcnt v cnt (List.mem_cons_of_mem p h)) hfit'
    refine ⟨w, ?_⟩
    rw [writePieces_cons hp herr, hps, List.flatMap_cons, List.append_assoc]

/-- The words `rs` are `counts` wide and spell the bits `l` one after the other. -/
structure SpellsInTurn (rs : List Word) (counts : List Nat) (l : Bits) : Prop where
  length : rs.length = counts.length
  width : ∀ x ∈ rs.zip counts, x.1.toNat < 2 ^ x.2
  bits : ((rs.zip counts).flatMap fun x => pieceBits (.inr (x.1, x.2))) = l

theorem spellsInTurn_nil : SpellsInTurn [] [] [] := ⟨rfl, nofun, rfl⟩

theorem SpellsInTurn.cons {rs : List Word} {counts : List Nat} {l first : Bits}
    (h : SpellsInTurn rs counts l) (hfirst : first.length ≤ 64) :
    SpellsInTurn (bitsWord first :: rs) (first.length :: counts) (first ++ l) where
  length := congrArg Nat.succ h.length
  width := List.forall_mem_cons.mpr ⟨toNat_bitsWord_lt hfirst, h.width⟩
  bits := by rw [List.zip_cons_cons, List.flatMap_cons, h.bits, pieceBits_bitsWord hfirst]

/-- Reading at the counts given consumes the unread bits one after the other. -/
theorem readPieces_consumes {counts : List Nat} {s : State} (herr : s.err = .none)
    (hcnt : ∀ c ∈ counts, c ≤ 32) (hfit : s.bsRd + counts.sum ≤ s.bs.length) :
    ∃ rs v, readPieces counts s = some (rs, { s with res := v, bsRd := s.bsRd + counts.sum }) ∧
      SpellsInTurn rs counts (s.unread.take counts.sum) := by
  induction counts generalizing s with
  | nil => exact ⟨[], s.res, rfl, spellsInTurn_nil⟩
  | cons c cs ih =>
    obtain ⟨hc, hcs⟩ := List.forall_mem_cons.mp hcnt
    rw [List.sum_cons] at hfit
    have hfit' : s.bsRd + c ≤ s.bs.length := by omega
    obtain ⟨rs, v, hread, hspell⟩ := ih
      (s := { s with res := bitsWord (s.unread.take c), bsRd := s.bsRd + c }) herr hcs
      (Nat.add_assoc .. ▸ hfit)
    have hlen := length_take_unread hfit'
    refine ⟨bitsWord (s.unread.take c) :: rs, v, ?_, ?_⟩
    · rw [readPieces_cons (exec_bsRbits hc hfit') herr hread, List.sum_cons, Nat.add_assoc]
    · have hcons := hspell.cons (first := s.unread.take c) (by omega)
      rw [hlen] at hcons
      rwa [List.sum_cons, List.take_add, State.unread, List.drop_drop]

/-- Settles O33: the writes append the pieces' bits at BS_RD, and the reads take just those bits. -/
theorem splitWritesReadBackInAnySplit : Obligations.SplitWritesReadBackInAnySplit := by
  intro pieces counts s herr hrd hpieces hcounts hsum hfit
  obtain ⟨v, hwrite⟩ := writePieces_appends herr hpieces (hsum ▸ hfit)
  have hend : s.bsRd + counts.sum = (s.bs ++ pieces.flatMap pieceBits).length := by
    rw [List.length_append, hrd, hsum]
  obtain ⟨rs, w, hread, hspell⟩ := readPieces_consumes
    (s := { s with opnd := v, bs := s.bs ++ pieces.flatMap pieceBits }) herr hcounts hend.le
  refine ⟨_, _, rs, hwrite, rfl, hread, rfl, hend, hspell.length, hspell.width, ?_⟩
  rw [hspell.bits, State.unread, hrd, List.drop_left, hsum, List.take_length]

/-! ### The stream through OUT and IN (41_bitstream.md R108 c) -/

/-- A primitive command that ends with STATUS.ERR 0 has succeeded. -/
theorem ok_of_exec_next {i : Instr} {r : Except Halt State} {s t : State}
    (hi : runOf i s = primitive r s) (he : exec i s = .next t) (ht : t.err = .none) : r = .ok t := by
  have hreal := errorReal_runOf i s
  rw [hi] at hreal
  rw [exec_eq_runOf, hi, primitive_next] at he
  rcases he with hok | ⟨e, rfl, rfl⟩
  · exact hok
  · exact absurd ht hreal

/-- Settles O34: the bytes loaded are `packBytes` of the stream, which `unpackBytes_packBytes` undoes. -/
theorem getBufferThenLoadPads : Obligations.GetBufferThenLoadPads := by
  intro s t u _ hget ht hopnd hlen hcap hfit hcopy
  have hok := ok_of_exec_next rfl hget ht
  have hbytes : inReadList u 0 u.inLenNat = .ok (packBytes s.bs) := by
    refine inReadList_ok.mpr ⟨(length_packBytes s.bs).trans hlen.symm, fun k hk => ?_⟩
    rw [Nat.zero_add, hcopy k (by rwa [hlen, ← length_packBytes]), (outAppend_read hok).2 k hk]
  have hoff : u.opndNat = 0 := by rw [State.opndNat, hopnd]; rfl
  refine exec_next_of_primitive rfl (loadStream_ok.mpr ?_)
  rw [hoff, Nat.sub_zero]
  exact ⟨hcap, Nat.zero_le _, hfit, _, hbytes, by rw [unpackBytes_packBytes]⟩

end Sys2Proof.Machine

namespace Sys2Proof.Machine

/-! ### The frequency commands (42_frequency.md R130 to R133) -/

/-- A buffer that holds `l` at its start has as many bytes `b` there as `l`. -/
theorem occurrences_of_holds {m : Mem} {l : List Byte} (h : holds m 0 l) (b : Byte) :
    occurrences m b l.length = l.count b := by
  induction l using List.reverseRecOn with
  | nil => rfl
  | append_singleton l x ih =>
    obtain ⟨hinit, hlast⟩ := holds_append.mp h
    have hread : Mem.read m l.length = some x := by simpa using hlast 0 Nat.one_pos
    rw [List.length_append, List.length_singleton, occurrences, ih hinit, hread, List.count_append,
      List.count_singleton]
    simp only [Option.some.injEq, beq_iff_eq]

/-- Ready input is a byte list, and its occurrences in IN are those in the list. -/
theorem inputBytes_occurrences {s : State} (h : InputReady 0 s) :
    ∃ l, inputBytes s = .ok l ∧ l.length = s.inLenNat ∧
      ∀ b, occurrences s.inBuf b s.inLenNat = l.count b := by
  obtain ⟨l, hl⟩ := inputBytes_of_ready h
  obtain ⟨-, hlen, hholds⟩ := inputBytes_ok.mp hl
  exact ⟨l, hl, hlen, fun b => hlen ▸ occurrences_of_holds hholds b⟩

theorem inputBytes_outOfRange {s : State} (h : s.caps.inCap < s.inLenNat) :
    inputBytes s = .error (.err .outOfRange) := if_pos h

/-- The table that FA_ACCUM stores for the input `l` (42_frequency.md R131). -/
def addCounts (t : FreqTable) (l : List Byte) : FreqTable := storeCounts (countBytes (countsOf t) l)

theorem lookup_addCounts (t : FreqTable) (l : List Byte) (b : Byte) :
    lookup (addCounts t l) b = lookup t b + BitVec.ofNat 64 (l.count b) := by
  simp [addCounts, lookup_countBytes, BitVec.ofNat_add]

/-- Counts whose sum fits a u64 are added without loss. -/
theorem toNat_lookup_addCounts {t : FreqTable} {l : List Byte} (h : freqSum t + l.length ≤ 2 ^ 64 - 1)
    (b : Byte) : (lookup (addCounts t l) b).toNat = (lookup t b).toNat + l.count b := by
  have hentry := lookup_le_freqSum t b
  have hcount : l.count b ≤ l.length := List.count_le_length
  rw [lookup_addCounts, BitVec.toNat_add, BitVec.toNat_ofNat, Nat.add_mod_mod, Nat.mod_eq_of_lt (by omega)]

theorem toNat_lookup_freqOf {l : List Byte} (h : l.length ≤ 2 ^ 64 - 1) (b : Byte) :
    (lookup (freqOf l) b).toNat = l.count b := by
  have hcount : l.count b ≤ l.length := List.count_le_length
  rw [lookup_freqOf, BitVec.toNat_ofNat, Nat.mod_eq_of_lt (by omega)]

theorem exec_faAnalyze {s : State} {l : List Byte} (h : inputBytes s = .ok l) :
    exec .faAnalyze s = .next { s with ft := freqOf l } :=
  exec_next_of_primitive rfl (analyze_ok.mpr ⟨l, h, by rw [storeCounts_countBytes]⟩)

theorem exec_faAccum {s : State} {l : List Byte} (h : inputBytes s = .ok l)
    (hfit : freqSum s.ft + l.length ≤ 2 ^ 64 - 1) :
    exec .faAccum s = .next { s with ft := addCounts s.ft l } :=
  exec_next_of_primitive rfl (accumulate_ok.mpr ⟨l, h, hfit, rfl⟩)

/-- Settles O35: FA_ANALYZE stores `freqOf` of the bytes read, whose entries and sum are known. -/
theorem analyzeCountsTheInput : Obligations.AnalyzeCountsTheInput := by
  refine fun s => ⟨fun hready => ?_,
    fun hcap => exec_err_of_primitive rfl (analyze_error.mpr (inputBytes_outOfRange hcap))⟩
  obtain ⟨l, hl, hlen, hocc⟩ := inputBytes_occurrences hready
  have hfit := length_inputBytes hl
  exact ⟨_, exec_faAnalyze hl, rfl, fun b => (toNat_lookup_freqOf hfit b).trans (hocc b).symm,
    (freqSum_freqOf hfit).trans hlen⟩

/-- Settles O36: the length of the bytes read decides between `addCounts` and the refusal. -/
theorem accumulateAddsTheCounts : Obligations.AccumulateAddsTheCounts := by
  refine fun s => ⟨fun hready hfit => ?_,
    fun hcap => exec_err_of_primitive rfl (accumulate_error.mpr (.inl (inputBytes_outOfRange hcap))),
    fun hready hover => ?_⟩
  all_goals obtain ⟨l, hl, hlen, hocc⟩ := inputBytes_occurrences hready
  · rw [← hlen] at hfit
    exact ⟨_, exec_faAccum hl hfit, rfl, fun b => hocc b ▸ toNat_lookup_addCounts hfit b⟩
  · rw [← hlen] at hover
    exact exec_err_of_primitive rfl (accumulate_error.mpr (.inr ⟨l, hl, rfl, hover⟩))

theorem getElem?_eq_lookup {α : Type} (t : ByteTable α) (b : Byte) : t[b.toNat]? = some (lookup t b) :=
  Vector.getElem?_eq_getElem b.isLt

/-- The frequency sum, index by index. -/
theorem freqSum_eq_sum_range (t : FreqTable) :
    freqSum t = ((List.range 256).map fun k => (t[k]?.getD 0#64).toNat).sum := by
  rw [freqSum_eq, allBytes, List.map_map]
  refine congrArg List.sum (List.map_congr_left fun k hk => ?_)
  have hindex : (BitVec.ofNat 8 k).toNat = k := Nat.mod_eq_of_lt (List.mem_range.mp hk)
  have hentry := getElem?_eq_lookup t (BitVec.ofNat 8 k)
  rw [hindex] at hentry
  rw [hentry, Option.getD_some, Function.comp_apply]

/-- Settles O37: FA_READ is a `lookup`, and the invariant says that the sum fits RES. -/
theorem frequencyReads : Obligations.FrequencyReads := by
  refine ⟨fun b s => ⟨lookup s.ft b, exec_next_of_done rfl, (getElem?_eq_lookup s.ft b).symm⟩,
    fun s hinv => ⟨BitVec.ofNat 64 (freqSum s.ft), exec_next_of_done rfl, ?_⟩⟩
  have hfit := hinv.freq
  rw [← freqSum_eq_sum_range, BitVec.toNat_ofNat, Nat.mod_eq_of_lt (by omega)]

/-! ### Counting chunk by chunk (42_frequency.md R134) -/

/-- Adding the counts of two byte lists adds those of their concatenation. -/
theorem addCounts_append (t : FreqTable) (x y : List Byte) :
    addCounts (addCounts t x) y = addCounts t (x ++ y) :=
  table_ext fun b => by
    simp only [lookup_addCounts, List.count_append, BitVec.ofNat_add, BitVec.add_assoc]

theorem addCounts_freqOf (x y : List Byte) : addCounts (freqOf x) y = freqOf (x ++ y) :=
  table_ext fun b => by
    rw [lookup_addCounts, lookup_freqOf, lookup_freqOf, List.count_append, BitVec.ofNat_add]

theorem freqSum_addCounts {t : FreqTable} {l : List Byte} (h : freqSum t + l.length ≤ 2 ^ 64 - 1) :
    freqSum (addCounts t l) = freqSum t + l.length := by
  have hsum : (countBytes (countsOf t) l).toList.sum = freqSum t + l.length := by
    rw [sum_countBytes, ← freqSum_eq_sum_countsOf]
  rw [addCounts, freqSum_storeCounts (hsum ▸ h), hsum]

/-- A byte list put into IN is what the next command reads. -/
theorem inputBytes_withInput {l : List Byte} {s : State} (hcap : l.length ≤ s.caps.inCap)
    (hlen : l.length ≤ 2 ^ 64 - 1) : inputBytes (withInput l s) = .ok l := by
  have hinLen : (withInput l s).inLenNat = l.length := Nat.mod_eq_of_lt (by omega)
  exact inputBytes_ok.mpr ⟨hinLen.trans_le hcap, hinLen.symm, holds_writeList s.inBuf 0 l⟩

theorem accumulateChunks_cons {c : List Byte} {cs : List (List Byte)} {s t : State}
    (h : exec .faAccum (withInput c s) = .next t) (ht : t.err = .none) :
    accumulateChunks (c :: cs) s = accumulateChunks cs t := by
  rw [accumulateChunks, h, succeeded_next ht, Option.bind_some]

/-- FA_ACCUM on chunks whose counts fit adds the counts of their concatenation. -/
theorem accumulateChunks_addCounts {cs : List (List Byte)} {s : State} (herr : s.err = .none)
    (hcap : ∀ c ∈ cs, c.length ≤ s.caps.inCap)
    (hfit : freqSum s.ft + cs.flatten.length ≤ 2 ^ 64 - 1) :
    ∃ t, accumulateChunks cs s = some t ∧ t.ft = addCounts s.ft cs.flatten := by
  induction cs generalizing s with
  | nil => exact ⟨s, rfl, (storeCounts_countsOf s.ft).symm⟩
  | cons c cs ih =>
    obtain ⟨hc, hcs⟩ := List.forall_mem_cons.mp hcap
    rw [List.flatten_cons, List.length_append] at hfit
    have hfirst : freqSum s.ft + c.length ≤ 2 ^ 64 - 1 := by omega
    have hexec := exec_faAccum (inputBytes_withInput hc (by omega)) hfirst
    obtain ⟨t, hrest, hft⟩ := ih (s := { withInput c s with ft := addCounts s.ft c }) herr hcs
      (by rwa [freqSum_addCounts hfirst, Nat.add_assoc])
    exact ⟨t, (accumulateChunks_cons hexec herr).trans hrest, by
      rw [hft, addCounts_append, List.flatten_cons]⟩

/-- Settles O38: `accumulateChunks_addCounts`, from any table and from the one FA_ANALYZE stores. -/
theorem chunkedCountingMatchesTheWhole : Obligations.ChunkedCountingMatchesTheWhole := by
  refine ⟨fun cs s herr hcap hfit => ?_, fun c cs s herr hcap hlen => ?_⟩
  · obtain ⟨t, hrun, hft⟩ := accumulateChunks_addCounts herr hcap hfit
    exact ⟨t, hrun, fun b => hft ▸ toNat_lookup_addCounts hfit b⟩
  · obtain ⟨hc, hcs⟩ := List.forall_mem_cons.mp hcap
    rw [List.flatten_cons, List.length_append] at hlen
    have hfirst : c.length ≤ 2 ^ 64 - 1 := by omega
    obtain ⟨u, hrun, hft⟩ := accumulateChunks_addCounts (s := { withInput c s with ft := freqOf c })
      herr hcs (by rwa [freqSum_freqOf hfirst])
    exact ⟨_, u, exec_faAnalyze (inputBytes_withInput hc hfirst), hrun, by
      rw [hft, addCounts_freqOf, List.flatten_cons]⟩

end Sys2Proof.Machine

namespace Sys2Proof.Machine

/-! ### HT_BUILD's merge order (43_tree.md R140 to R142) -/

/-- `HTree.mergeOrdered` for a root: the wrapper has no two children to order. -/
def Root.mergeOrdered : Root → Prop
  | .none => True
  | .wrap _ _ _ => True
  | .full f l r => (HTree.node f l r).mergeOrdered

theorem mergeOrdered_toRoot {t : HTree} (h : t.mergeOrdered) : t.toRoot.mergeOrdered := by
  cases t with
  | leaf b f => trivial
  | node f l r => exact h

/-- Every merge keeps `BuildOrder`, so the tree of a table is ordered at every node. -/
theorem mergeOrdered_treeOf {t : FreqTable} (hk : keys t ≠ []) : (treeOf t).mergeOrdered := by
  obtain ⟨n, hn⟩ := Nat.exists_eq_succ_of_ne_zero (mt List.length_eq_zero_iff.mp hk)
  have hseed := buildOrder_seed t
  rw [treeOf]
  rw [hn] at hseed ⊢
  exact mergeLoop_induct (BuildOrder t) Root.mergeOrdered (buildOrder_step t)
    (fun seq x hx => mergeOrdered_toRoot (hx.merged x List.mem_cons_self)) n _ _
    (by rw [length_seedQueue, hn]) hseed

theorem toRoot_eq_full {t l r : HTree} {f : Nat} (h : t.toRoot = .full f l r) : t = .node f l r := by
  cases t with
  | leaf b g => cases h
  | node g x y => cases h; rfl

theorem keys_ne_nil_of_two_le {t : FreqTable} (h : 2 ≤ (keys t).length) : keys t ≠ [] := by
  intro hnil
  rw [hnil] at h
  exact absurd h (by decide)

theorem exec_htBuild {s : State} (hk : keys s.ft ≠ []) :
    exec .htBuild s = .next { s with tree := treeOf s.ft, ct := emptyCodes } :=
  exec_next_of_primitive rfl (buildTree_ok.mpr ⟨hk, rfl⟩)

/-- Settles O40: the loop's tree is one the seeds merge to, the merge relation has only one, and
`BuildOrder` holds before every merge. -/
theorem buildMergesInKeyOrder : Obligations.BuildMergesInKeyOrder := by
  intro s h
  rw [length_seeds] at h ⊢
  have hk := keys_ne_nil_of_two_le h
  obtain ⟨f, l, r, hfull⟩ := treeOf_full h
  obtain ⟨t, ht, hmerges⟩ := mergesTo_treeOf hk
  obtain rfl : t = .node f l r := toRoot_eq_full (ht.symm.trans hfull)
  have hordered := mergeOrdered_treeOf hk
  rw [hfull] at hordered
  exact ⟨f, l, r, hfull ▸ exec_htBuild hk, hmerges, fun t' ht' => ht'.unique hmerges (.refl _), hordered⟩

/-! ### HT_GEN_CODES on a built tree (43_tree.md R145, R146 a, b) -/

/-- Settles O41: CT becomes `codesOf` of the tree, whose entries are its paths. -/
theorem codesAreTheTreePaths : Obligations.CodesAreTheTreePaths :=
  fun s hn => ⟨codesOf s.tree, exec_next_of_done rfl, fun _ _ => lookup_codesOf hn⟩

/-- HT_BUILD and then HT_GEN_CODES on a table with keys leave its tree and the codes of that tree. -/
theorem tree_and_codes_of_exec {s t u : State} (hk : keys s.ft ≠ []) (hbuild : exec .htBuild s = .next t)
    (hcodes : exec .htCodes t = .next u) : t.tree = treeOf s.ft ∧ u.ct = codesOf (treeOf s.ft) := by
  rw [exec_htBuild hk] at hbuild
  cases hbuild
  rw [codes_next hcodes]
  exact ⟨rfl, rfl⟩

theorem lookup_codesOf_one {t : FreqTable} {b : Byte} (h : keys t = [b]) :
    lookup (codesOf (treeOf t)) b = some [false] := by
  rw [treeOf_one h, codesOf, lookup_update_same]

/-- Settles O42: `prefixFree_codesOf` and `codeLength_codesOf`, on the tree of the table. -/
theorem builtCodesArePrefixFree : Obligations.BuiltCodesArePrefixFree := by
  intro s t u ⟨b, hb⟩ hbuild hcodes
  have hk : keys s.ft ≠ [] := List.ne_nil_of_mem (mem_keys.mpr hb)
  rw [(tree_and_codes_of_exec hk hbuild hcodes).2]
  have hn := treeOf_symbols_nodup s.ft
  refine ⟨codesOf_treeOf_isSome s.ft, prefixFree_codesOf hn, fun h2 b p hp => ?_,
    fun b => lookup_codesOf_one⟩
  have hlen := codeLength_codesOf hn hp
  have hkeys := length_keys_le s.ft
  rw [length_symbols_treeOf] at hlen
  omega

/-! ### Kraft and the payload's length (43_tree.md R146 c, d) -/

/-- Settles O43: the sum over the keys is the one over the leaf depths, where Kraft's equality holds. -/
theorem builtCodesMeetKraft : Obligations.BuiltCodesMeetKraft := by
  refine fun s t u hbuild hcodes => ⟨fun h2 => ?_, fun h1 => ?_⟩
  · have hk := keys_ne_nil_of_two_le h2
    obtain ⟨f, l, r, hfull⟩ := treeOf_full h2
    have hdepth : (HTree.node f l r).depth ≤ 255 := by
      have hle := (treeOf_nodes hk hfull).2
      have hkeys := length_keys_le s.ft
      omega
    rw [(tree_and_codes_of_exec hk hbuild hcodes).2,
      sum_keys_depths hk hfull fun _ n => 2 ^ (255 - n), depths_kraft _ _ hdepth]
  · obtain ⟨b, hb⟩ := List.length_eq_one_iff.mp h1
    have hk : keys s.ft ≠ [] := hb ▸ List.cons_ne_nil b []
    rw [(tree_and_codes_of_exec hk hbuild hcodes).2, hb, List.map_singleton, List.sum_singleton,
      lookup_codesOf_one hb]
    rfl

/-- An encoding is as long as the codes of its bytes together. -/
theorem length_encodeAll (c : CodeTable) (l : List Byte) :
    (encodeAll c l).length = (l.map fun b => codeLength (lookup c b)).sum := by
  rw [encodeAll, List.length_flatMap]
  refine congrArg List.sum (List.map_congr_left fun b _ => ?_)
  cases lookup c b <;> rfl

/-- A sum over a byte list with the counts of a table is the sum over its keys, weighted by the counts. -/
theorem sum_map_of_counts {t : FreqTable} {l : List Byte} (h : ∀ b, l.count b = (lookup t b).toNat)
    (g : Byte → Nat) : (l.map g).sum = ((keys t).map fun b => (lookup t b).toNat * g b).sum := by
  have hkeys : l.toFinset = (keys t).toFinset := by
    ext b
    rw [List.mem_toFinset, List.mem_toFinset, mem_keys, ← List.count_pos_iff, h b, Nat.pos_iff_ne_zero,
      ne_eq, ne_eq, BitVec.toNat_eq (x := lookup t b)]
    rfl
  rw [Finset.sum_list_map_count, hkeys, List.sum_toFinset _ (keys_nodup t)]
  exact congrArg List.sum (List.map_congr_left fun b _ => by rw [h b, smul_eq_mul])

/-- Settles O44: the length is a sum by counts, and the depths weighted by frequency are the node
frequencies. -/
theorem payloadBitsAreTheNodeFrequencies : Obligations.PayloadBitsAreTheNodeFrequencies := by
  refine fun s t u hbuild hcodes => ⟨fun l hl => ?_, fun f l r hfull h2 => ?_, fun b hb => ?_⟩
  · rw [length_encodeAll, sum_map_of_counts hl]
  · have hk := keys_ne_nil_of_two_le h2
    obtain ⟨htree, hct⟩ := tree_and_codes_of_exec hk hbuild hcodes
    rw [htree] at hfull
    have hsums := (treeOf_spec hk).2.2
    rw [hfull] at hsums
    rw [hct, sum_keys_depths hk hfull fun g n => g * n, (depths_nodeFreqs _ hsums).1]
  · have hk : keys s.ft ≠ [] := hb ▸ List.cons_ne_nil b []
    rw [(tree_and_codes_of_exec hk hbuild hcodes).2, lookup_codesOf_one hb]
    exact Nat.mul_one _

/-! ### More frequent symbols (43_tree.md R146 e) -/

/-- A queue in key order lists an entry of lower key first. -/
theorem pair_sublist_of_before {q : List QEntry} (hq : InOrder q) {x y : QEntry} (hx : x ∈ q) (hy : y ∈ q)
    (h : x.before y = true) : [x, y].Sublist q := by
  have irrefl (z : QEntry) : ¬ z.before z = true := fun hz =>
    precedes_asymm (precedes_iff.mpr hz) (precedes_iff.mpr hz)
  induction q with
  | nil => cases hx
  | cons z q ih =>
    obtain ⟨hz, hq⟩ := List.pairwise_cons.mp hq
    rcases List.mem_cons.mp hx with rfl | hxq
    · have hyq : y ∈ q := (List.mem_cons.mp hy).resolve_left fun e => irrefl x (e ▸ h)
      exact .cons_cons x (List.singleton_sublist.mpr hyq)
    · have hyq : y ∈ q := (List.mem_cons.mp hy).resolve_left fun e =>
        irrefl x (before_trans h (e ▸ hz x hxq))
      exact .cons z (ih hq hxq hyq)

/-- A key's code is as long as the path its leaf ends at, when the merges are done. -/
theorem codeLength_eq_finalDepth {t : FreqTable} (h2 : 2 ≤ (keys t).length) {x : QEntry}
    (hx : x ∈ seedQueue t) {b : Byte} {f : Nat} (hleaf : x.tree = .leaf b f) :
    codeLength (lookup (codesOf (treeOf t)) b) =
      finalDepth (keys t).length (keys t).length (seedQueue t) x.seq := by
  obtain ⟨n, hn⟩ := Nat.exists_eq_add_of_le' (Nat.le_of_succ_le h2)
  obtain ⟨T, hloop, hpaths⟩ := finalDepth_path n (keys t).length (seedQueue t)
    (by rw [length_seedQueue, hn]) (queueKeys_seed t)
  rw [← hn] at hloop hpaths
  obtain ⟨g, l, r, hfull⟩ := treeOf_full h2
  obtain rfl := toRoot_eq_full (hloop.symm.trans hfull)
  obtain ⟨p, hp, hfollow⟩ := hpaths x hx
  have hcode : lookup (codesOf (treeOf t)) b = some p := by
    rw [lookup_codesOf (treeOf_symbols_nodup t), hfull]
    exact ⟨f, hleaf ▸ hfollow⟩
  rw [hcode, ← hp]
  rfl

/-- Settles O45: the less frequent key stands first in HT_BUILD's queue, and of two entries the earlier
one ends at least as deep. -/
theorem moreFrequentSymbolsGetShorterCodes : Obligations.MoreFrequentSymbolsGetShorterCodes := by
  intro s t u a b hbuild hcodes hb hlt
  have hkb : b ∈ keys s.ft := mem_keys.mpr hb
  have hka : a ∈ keys s.ft := mem_keys.mpr fun ha => by rw [ha] at hlt; exact absurd hlt (Nat.not_lt_zero _)
  have hab : a ≠ b := fun e => absurd hlt (e ▸ Nat.lt_irrefl _)
  have h2 : 2 ≤ (keys s.ft).length :=
    (List.subperm_of_subset (l₁ := [a, b]) (by simp [hab]) (by simp [hka, hkb])).length_le
  rw [(tree_and_codes_of_exec (keys_ne_nil_of_two_le h2) hbuild hcodes).2]
  obtain ⟨x, hx, hxleaf⟩ := seed_mem hka
  obtain ⟨y, hy, hyleaf⟩ := seed_mem hkb
  have hbefore : y.before x = true := before_iff.mpr (.inl (by rw [hxleaf, hyleaf]; exact hlt))
  have hqueue := queueKeys_seed s.ft
  rw [codeLength_eq_finalDepth h2 hx hxleaf, codeLength_eq_finalDepth h2 hy hyleaf]
  exact finalDepth_anti _ _ _ (length_seedQueue s.ft).le hqueue y x
    (pair_sublist_of_before hqueue.order hy hx hbefore)

/-! ### CT_LEN and CT_WORD (43_tree.md R147, R148) -/

/-- Code bit 64w + k stands at bit 63 - k of the word (43_tree.md R148). -/
theorem getLsbD_codeWord (c : Option Bits) (w : Nat) {k : Nat} (hk : k < 64) :
    (codeWord c w).getLsbD (63 - k) = codeBit c (64 * w + k) := by
  have hlen : ((List.range 64).map fun k => codeBit c (64 * w + k)).length = 64 := by
    rw [List.length_map, List.length_range]
  have hbit := getLsbD_bitsWord hlen.le (hlen.symm ▸ hk)
  rw [hlen, List.getD_eq_getElem _ _ (hlen.symm ▸ hk), List.getElem_map, List.getElem_range] at hbit
  exact hbit

theorem codeWord_none (w : Nat) : codeWord Option.none w = 0#64 := by
  refine BitVec.eq_of_getLsbD_eq fun i hi => ?_
  have hbit := getLsbD_codeWord Option.none w (k := 63 - i) (by omega)
  rw [show 63 - (63 - i) = i by omega] at hbit
  rw [hbit, BitVec.getLsbD_zero]
  rfl

/-- Settles O46: the invariant bounds a code's length, so RES holds it; a word's bits are
`getLsbD_codeWord`. -/
theorem codeTableReads : Obligations.CodeTableReads := by
  refine ⟨fun b s hinv => ⟨_, exec_next_of_done rfl, fun h => ?_, fun p h => ?_⟩,
    fun b w s => ⟨_, exec_next_of_done rfl, fun h => ?_, fun p h k hk => ?_⟩⟩
  · rw [h]; rfl
  · have hlen := (codeTableIsAlwaysAPrefixCode s hinv).2 b p h
    rw [h, codeLength, BitVec.toNat_ofNat, Nat.mod_eq_of_lt (by omega)]
  · rw [h, codeWord_none]
  · rw [h, getLsbD_codeWord _ w hk]; rfl

end Sys2Proof.Machine

namespace Sys2Proof.Machine

/-! ### Commands that end with and without an error (60_exceptions.md R233) -/

/-- A command whose run raises an error answers the state the run leaves, with STATUS.ERR written. -/
theorem exec_next_of_raised {i : Instr} {s t : State} {e : Err} (h : runOf i s = .raised e t) :
    exec i s = .next { t with err := e } :=
  exec_next.mpr (.inr ⟨e, t, h, rfl⟩)

/-- A command that ends with STATUS.ERR 0 has raised no error. -/
theorem done_of_exec_next {i : Instr} {s t : State} (h : exec i s = .next t) (ht : t.err = .none) :
    runOf i s = .done t := by
  rcases exec_next.mp h with hd | ⟨e, u, hr, rfl⟩
  · exact hd
  · have hreal := errorReal_runOf i s
    rw [hr] at hreal
    exact absurd ht hreal

/-- A command that starts with STATUS.ERR 0 and ends with an error has raised it. -/
theorem raised_of_exec_next {i : Instr} {s t : State} (hs : s.err = .none) (h : exec i s = .next t)
    (ht : t.err ≠ .none) : ∃ u, runOf i s = .raised t.err u ∧ t = { u with err := t.err } := by
  rcases exec_next.mp h with hd | ⟨e, u, hr, rfl⟩
  · exact absurd (err_of_done hd hs) ht
  · exact ⟨u, hr, rfl⟩

/-! ### ENC_SYMBOL and ENC_BLOCK (44_encdec.md R170, R171) -/

/-- Settles O47: `encodeSymbol` in its three cases. -/
theorem encodeSymbolAppendsTheCode : Obligations.EncodeSymbolAppendsTheCode := fun _ _ =>
  ⟨fun p hp hfit => exec_next_of_primitive rfl (encodeSymbol_ok.mpr ⟨p, hp, hfit, rfl⟩),
    fun hmiss => exec_err_of_primitive rfl (encodeSymbol_error.mpr (.inl ⟨rfl, hmiss⟩)),
    fun p hp hfull => exec_err_of_primitive rfl (encodeSymbol_error.mpr (.inr ⟨p, hp, rfl, hfull⟩))⟩

theorem encodeBlock_of_input {s : State} (hc : s.inLenNat ≤ s.caps.inCap) :
    encodeBlock s = encodeLoop s.inLenNat 0 s := if_neg (Nat.not_lt.mpr hc)

theorem encodeBlock_outOfRange {s : State} (hc : s.caps.inCap < s.inLenNat) :
    encodeBlock s = .raised .outOfRange s := if_pos hc

/-- ENC_BLOCK appends the codes of its whole input when all bytes have one and the codes fit. -/
theorem encodeBlock_append {s : State} {l : List Byte} (hh : holds s.inBuf 0 l)
    (hl : s.inLenNat = l.length) (hc : s.inLenNat ≤ s.caps.inCap)
    (hs : ∀ b ∈ l, (lookup s.ct b).isSome)
    (hf : s.bs.length + (encodeAll s.ct l).length ≤ s.caps.bsCapBits) :
    encodeBlock s = .done { s with bs := s.bs ++ encodeAll s.ct l } := by
  rw [encodeBlock_of_input hc, encodeLoop_append l _ _ _ hh hl.ge hs hf, hl, Nat.sub_self, encodeLoop]

/-- ENC_BLOCK stops at the byte `b` that fails, and keeps the codes of the bytes `l` in front of it. -/
theorem encodeBlock_fails {s : State} {l : List Byte} {b : Byte} {e : Err}
    (hh : holds s.inBuf 0 (l ++ [b])) (hl : l.length < s.inLenNat) (hc : s.inLenNat ≤ s.caps.inCap)
    (hs : ∀ c ∈ l, (lookup s.ct c).isSome)
    (hf : s.bs.length + (encodeAll s.ct l).length ≤ s.caps.bsCapBits)
    (he : encodeSymbol b { s with bs := s.bs ++ encodeAll s.ct l } = .error (.err e)) :
    encodeBlock s = .raised e { s with bs := s.bs ++ encodeAll s.ct l } := by
  obtain ⟨hfront, hlast⟩ := holds_append.mp hh
  obtain ⟨n, hn⟩ : ∃ n, s.inLenNat - l.length = n + 1 := ⟨s.inLenNat - l.length - 1, by omega⟩
  have hstop : encodeAt (0 + l.length) { s with bs := s.bs ++ encodeAll s.ct l } = .error (.err e) :=
    encodeAt_error.mpr (.inr ⟨b, (holds_cons.mp hlast).1, he⟩)
  rw [encodeBlock_of_input hc, encodeLoop_append l _ _ _ hfront hl.le hs hf, hn, encodeLoop, hstop,
    primitive_err, raised_andThen]

/-- Settles O48: `encodeBlock_append`, and `encodeBlock_fails` with the two errors of ENC_SYMBOL. -/
theorem encodeBlockAppendsInOrder : Obligations.EncodeBlockAppendsInOrder := by
  refine ⟨fun s l hh hl hc hs hf => exec_next_of_done (encodeBlock_append hh hl hc hs hf),
    fun s hc => exec_next_of_raised (encodeBlock_outOfRange hc),
    fun s l b hh hl hc hs hf => ⟨fun hmiss => ?_, fun p hp hfull => ?_⟩⟩
  · exact exec_next_of_raised (i := .encBlock)
      (encodeBlock_fails hh hl hc hs hf (encodeSymbol_error.mpr (.inl ⟨rfl, hmiss⟩)))
  · refine exec_next_of_raised (i := .encBlock)
      (encodeBlock_fails hh hl hc hs hf (encodeSymbol_error.mpr (.inr ⟨p, hp, rfl, ?_⟩)))
    rwa [State.bsWr, List.length_append]

/-! ### DEC_SYMBOL (44_encdec.md R172, R173) -/

/-- Bits at BS_RD that lead from the root to a leaf are the ones the traversal reads. -/
theorem traverseRoot_unread {s : State} {p : Bits} {b : Byte} (hr : s.tree.reads p b)
    (hp : p <+: s.unread) : traverseRoot s.tree s.unread = some (b, p.length) := by
  obtain ⟨rest, hrest⟩ := hp
  rw [← hrest]
  exact traverseRoot_of_reads hr rest

/-- Settles O49: `traverseRoot` decides the first three clauses, the depth of the tree the fourth. -/
theorem decodeSymbolFollowsTheTree : Obligations.DecodeSymbolFollowsTheTree := by
  intro s
  refine ⟨fun hnone => ?_, fun p b hr hp => ?_, fun hne hcut => ?_, fun f l r htree hdepth => ?_,
    fun f c g x rest htree _ => ?_⟩
  · exact exec_err_of_primitive rfl (decodeSymbol_error.mpr (decodeOne_error.mpr (.inl ⟨rfl, hnone⟩)))
  · exact exec_next_of_primitive rfl
      (decodeSymbol_ok.mpr ⟨b, p.length, traverseRoot_unread hr hp, rfl⟩)
  · exact exec_err_of_primitive rfl (decodeSymbol_error.mpr
      (decodeOne_error.mpr (.inr ⟨rfl, hne, traverseRoot_none_of_reads hcut⟩)))
  · obtain ⟨b, n, hread⟩ := traverse_of_depth hdepth
    have hroot : traverseRoot s.tree (s.bs.drop s.bsRd) = some (b, n) := htree ▸ hread
    exact ⟨_, b, reads_of_traverseRoot hroot, List.take_prefix _ _⟩
  · rw [htree]
    exact ⟨rfl, rfl⟩

/-! ### DEC_BLOCK (44_encdec.md R174) -/

theorem decodeBlock_of_tree {s : State} (hne : s.tree ≠ .none) :
    decodeBlock s = decodeLoop s.opndNat s := if_pos (tv_iff.mpr hne)

theorem decodeBlock_noTree {s : State} (h : s.tree = .none) : decodeBlock s = .raised .noTree s :=
  if_neg fun htv => tv_iff.mp htv h

/-- `s` after the symbols `out` were decoded from `n` bits (44_encdec.md R174). -/
def afterDecode (n : Nat) (out : List Byte) (s : State) : State :=
  { s with
    bsRd := s.bsRd + n
    outLen := s.outLen + out.length
    outBuf := Mem.writeList s.outBuf s.outLen out }

/-- DEC_BLOCK appends the symbols that the bits at BS_RD spell when there are OPND of them and they fit. -/
theorem decodeBlock_append {s : State} {bits : Bits} {out : List Byte} (hne : s.tree ≠ .none)
    (hs : s.tree.spells bits out) (hp : bits <+: s.unread) (hk : s.opndNat = out.length)
    (hcap : s.outLen + out.length ≤ s.caps.outCap) :
    decodeBlock s = .done (afterDecode bits.length out s) := by
  obtain ⟨ps, rfl, hps⟩ := hs
  rw [decodeBlock_of_tree hne, decodeLoop_append ps out _ s hps hp hk.ge hcap, hk, Nat.sub_self,
    decodeLoop, afterDecode]

/-- Settles O50: `decodeBlock_append`, whose writes stay inside the addresses of the new symbols. -/
theorem decodeBlockAppendsTheSymbols : Obligations.DecodeBlockAppendsTheSymbols := by
  intro s bits out hne hs hp hk hcap
  refine ⟨_, exec_next_of_done (decodeBlock_append hne hs hp hk hcap), rfl, holds_writeList _ _ _, ?_⟩
  rintro a (hbelow | habove)
  · exact Mem.read_writeList_below out s.outBuf hbelow
  · exact Mem.read_writeList_above out s.outBuf habove

/-- A DEC_BLOCK that fails after the symbols `out` answers their effects and the error. -/
theorem exec_decBlock_raised {s : State} {bits : Bits} {out : List Byte} {e : Err}
    (h : decodeBlock s = .raised e (afterDecode bits.length out s)) :
    ∃ t, exec .decBlock s = .next t ∧
      t = { s with
        bsRd := s.bsRd + bits.length
        outLen := s.outLen + out.length
        outBuf := t.outBuf
        err := e } ∧
      holds t.outBuf s.outLen out :=
  ⟨_, exec_next_of_raised h, rfl, holds_writeList _ _ _⟩

/-- Settles O51: `decodeLoop_fails` with each of its two errors. -/
theorem decodeBlockStopsAtTheFailingSymbol : Obligations.DecodeBlockStopsAtTheFailingSymbol := by
  refine ⟨fun s h => exec_next_of_raised (decodeBlock_noTree h), fun s bits out hne hs hp hk hcap => ?_⟩
  have hloop := decodeBlock_of_tree hne
  refine ⟨fun hcut => exec_decBlock_raised (hloop.trans ?_),
    fun p b hr hpre hfull => exec_decBlock_raised (hloop.trans ?_)⟩
  · exact decodeLoop_fails hne hs hp hk hcap (.inl ⟨rfl, hcut⟩)
  · exact decodeLoop_fails hne hs hp hk hcap (.inr ⟨rfl, hfull, p, b, hr, hpre⟩)

/-! ### Encoding then decoding (44_encdec.md R175 a) -/

/-- When ENC_BLOCK ends without an error, its input lay in IN, every byte of it had a code, and all codes
were appended. -/
theorem encodeBlock_done {s t : State} {l : List Byte} (hh : holds s.inBuf 0 l)
    (hl : s.inLenNat = l.length) (h : encodeBlock s = .done t) :
    (∀ b ∈ l, (lookup s.ct b).isSome) ∧ t = { s with bs := s.bs ++ encodeAll s.ct l } := by
  by_cases hc : s.inLenNat ≤ s.caps.inCap
  · rw [encodeBlock_of_input hc, hl] at h
    exact encodeLoop_done l 0 s t hh h
  · rw [encodeBlock_outOfRange (Nat.lt_of_not_le hc)] at h
    cases h

/-- Settles O52: the bits that ENC_BLOCK appended spell its input, so DEC_BLOCK appends it to OUT. -/
theorem decodeUndoesEncode : Obligations.DecodeUndoesEncode := by
  intro s t u l hinv hne hcodes hs hh hl henc ht hu hcap
  obtain ⟨hcoded, rfl⟩ := encodeBlock_done hh hl (done_of_exec_next henc ht)
  subst hu
  obtain ⟨hnodup, -⟩ := hinv.tree
  have hspell : s.tree.spells (encodeAll s.ct l) l := by
    rw [hcodes] at hcoded ⊢
    exact spells_encodeAll hnodup l hcoded
  have hunread : (s.bs ++ encodeAll s.ct l).drop s.bs.length = encodeAll s.ct l := List.drop_left
  refine ⟨_, exec_next_of_done (decodeBlock_append hne hspell ?_ hl hcap), hs, ?_, rfl, rfl,
    holds_writeList _ _ _⟩
  · exact ⟨[], (List.append_nil _).trans hunread.symm⟩
  · exact List.length_append.symm

/-! ### What a failed block or composite command leaves (60_exceptions.md R233, R234) -/

/-- A failed composite command leaves OUT_LEN = 0. -/
theorem outLen_of_composite_raised {i : Instr} {s u : State} {e : Err} (hc : isComposite i = true)
    (h : runOf i s = .raised e u) : u.outLen = 0 := by
  have cleared {r : Run} (hr : r.clearOutOnError = .raised e u) : u.outLen = 0 := by
    obtain ⟨v, -, rfl⟩ := clearOut_eq_raised.mp hr
    rfl
  cases i
  case codecCompress | codecDecompress => exact cleared h
  all_goals cases hc

/-- Settles O22: `raised_of_exec_next` gives the run's error, and `encodeLoop_stops` and
`decodeLoop_stops` say where the two loops raise theirs. -/
theorem failedCompositeClearsOutLen : Obligations.FailedCompositeClearsOutLen := by
  intro i s t hs h ht
  obtain ⟨u, hr, hu⟩ := raised_of_exec_next hs h ht
  have hleaves := leaves_of_raised hr
  rw [hu]
  refine ⟨fun hc => ?_, fun hc => ?_, fun hi => ?_, fun hi hc => ?_, fun hi hne => ?_⟩
  · exact (outLen_of_composite_raised hc hr :)
  · have hout : i ≠ .outClear := fun hi => by subst hi; cases hr
    exact (out_appends_runOf hleaves hout hc).1
  · exact raisesWithRes_runOf (by simp [hi]) s _ u hr
  · subst hi
    obtain ⟨l, b, hlt, hh, hcoded, rfl, -, hstop⟩ :=
      encodeLoop_stops _ _ _ _ _ ((encodeBlock_of_input hc).symm.trans hr)
    exact ⟨l, b, hh, hlt, hcoded, rfl, hstop⟩
  · subst hi
    obtain ⟨bits, out, hspell, hpre, hlt, rfl, hstop⟩ :=
      decodeLoop_stops _ _ _ _ hne ((decodeBlock_of_tree hne).symm.trans hr)
    exact ⟨bits, out, hspell, hpre, hlt, rfl, holds_writeList _ _ _,
      fun a ha => Mem.read_writeList_below out s.outBuf ha, hstop⟩

end Sys2Proof.Machine

namespace Sys2Proof.Machine

/-! ### HDR_WRITE (45_codec.md R190 to R192) -/

/-- A buffer that holds a byte list reads as it, position by position. -/
theorem read_of_holds {m : Mem} {a k : Nat} {l : List Byte} {x : Byte} (h : holds m a l)
    (hk : l[k]? = some x) : Mem.read m (a + k) = some x := by
  obtain ⟨hlt, rfl⟩ := List.getElem?_eq_some_iff.mp hk
  exact h k hlt

theorem getElem?_header_count (t : FreqTable) {m : Nat} (hm : m < 4) :
    (header t)[m]? = some (BitVec.ofNat 8 ((keys t).length / 2 ^ (8 * m))) := by
  rw [header, List.getElem?_append_left (by rwa [length_leBytes]), getElem?_leBytes hm]

theorem getElem?_header_entry (t : FreqTable) {j m : Nat} (hj : j < (keys t).length) (hm : m < 9) :
    (header t)[4 + 9 * j + m]? = (headerEntry t (keys t)[j])[m]? := by
  rw [header, List.getElem?_append_right (by rw [length_leBytes]; omega), length_leBytes,
    show 4 + 9 * j + m - 4 = 9 * j + m by omega,
    getElem?_flatMap_nine (length_headerEntry t) (keys t) hj hm]

/-- Byte `m` of a frequency in a header entry (45_codec.md R190, 20_memory.md R56). -/
theorem getElem?_headerEntry_freq (t : FreqTable) (b : Byte) {m : Nat} (hm : m < 8) :
    (headerEntry t b)[m + 1]? = some ((lookup t b).extractLsb' (8 * m) 8) := by
  rw [headerEntry, List.getElem?_cons_succ, getElem?_leBytes hm, BitVec.extractLsb',
    Nat.shiftRight_eq_div_pow]

theorem writeHeader_ok {s t : State} :
    writeHeader s = .ok t ↔ s.outLen + (4 + 9 * (keys s.ft).length) ≤ s.caps.outCap ∧
      t = { s with
        outBuf := Mem.writeList s.outBuf s.outLen (header s.ft)
        outLen := s.outLen + (4 + 9 * (keys s.ft).length) } := by
  rw [writeHeader, outAppend_ok, length_header]

theorem writeHeader_error {s : State} {h : Halt} :
    writeHeader s = .error h ↔
      h = .err .capacityExceeded ∧ s.caps.outCap < s.outLen + (4 + 9 * (keys s.ft).length) := by
  rw [writeHeader, outAppend_error, length_header]

/-- Settles O53: OUT gets `header` of the table, whose bytes the `getElem?` lemmas name. -/
theorem writeHeaderSerialisesTheTable : Obligations.WriteHeaderSerialisesTheTable := by
  intro s
  refine ⟨fun hcap => ?_, fun hcap => exec_err_of_primitive rfl (writeHeader_error.mpr ⟨rfl, hcap⟩)⟩
  have hok := writeHeader_ok.mpr ⟨hcap, rfl⟩
  obtain ⟨hbelow, hnew⟩ := outAppend_read hok
  refine ⟨_, exec_next_of_primitive rfl hok, rfl, fun a ha => ?_,
    fun m hm => read_of_holds hnew (getElem?_header_count s.ft hm),
    fun j hj => ⟨read_of_holds hnew (getElem?_header_entry s.ft hj (m := 0) (by decide)), fun m hm => ?_⟩⟩
  · rcases ha with ha | ha
    · exact hbelow a ha
    · exact Mem.read_writeList_above _ _ ((length_header s.ft).symm ▸ ha)
  · have hbyte := getElem?_header_entry s.ft hj (m := m + 1) (by omega)
    rw [getElem?_headerEntry_freq s.ft _ hm, show 4 + 9 * j + (m + 1) = 5 + 9 * j + m by omega] at hbyte
    exact read_of_holds hnew hbyte

/-! ### HDR_PARSE (45_codec.md R193, R194) -/

/-- Settles O54: the parser's table is `tableOf` of the entries, and a written header lists the keys'. -/
theorem parseHeaderReadsTheTable : Obligations.ParseHeaderReadsTheTable := by
  refine ⟨fun s l hg hh hl hc => ?_, fun s T hsum hh hl hc => ?_⟩
  · exact ⟨tableOf l, exec_next_of_primitive rfl (readHeader_entryBytes hc hg hh hl), lookup_tableOf l hg.1⟩
  · exact exec_next_of_primitive rfl
      (readHeader_ok.mpr ⟨hc, T, _, parseHeader_header hsum hh hl, rfl⟩)

theorem exec_hdrParse_malformed {s : State} (hc : s.inLenNat ≤ s.caps.inCap)
    (h : parseHeader s = .error (.err .malformedHeader)) :
    exec .hdrParse s = .next { s with err := .malformedHeader } :=
  exec_err_of_primitive rfl (readHeader_error.mpr (.inr ⟨hc, h⟩))

/-- A count above 256, or one that asks for more bytes than IN_LEN, is malformed. -/
theorem parseHeader_badCount {s : State} {k : Nat} (h4 : 4 ≤ s.inLenNat) (hk : k < 2 ^ 32)
    (hh : holds s.inBuf 0 (leBytes k 4)) (hbad : 256 < k ∨ s.inLenNat < 4 + 9 * k) :
    parseHeader s = .error (.err .malformedHeader) := by
  obtain ⟨hread, hval⟩ := read_count hk hh
  rw [parseHeader, if_neg (Nat.not_lt.mpr h4), hread]
  simp only [hval]
  rcases hbad with h | h
  · rw [if_pos h]
  · rw [if_pos h, ite_self]

/-- An entry with frequency 0, with a byte that has an entry, or with a frequency that takes the sum
above u64 is malformed. -/
theorem parseEntries_badEntry {s : State} {k a sum : Nat} {t : FreqTable} {e : Byte × Word}
    (hh : holds s.inBuf a (entry e))
    (hbad : e.2 = 0#64 ∨ lookup t e.1 ≠ 0#64 ∨ 2 ^ 64 - 1 < sum + e.2.toNat) :
    parseEntries s (k + 1) a t sum = .error (.err .malformedHeader) := by
  obtain ⟨hbyte, hfreq, hval⟩ := read_entry hh
  rw [parseEntries, hbyte]
  simp only [hfreq, hval]
  rcases hbad with h | h | h
  · rw [if_pos (by rw [h]; rfl)]
  · rw [if_pos h, ite_self]
  · rw [if_pos h, ite_self, ite_self]

/-- Good entries and then a bad one: the parser rejects the header at that entry. -/
theorem parseHeader_badEntry {s : State} {k : Nat} {l : List (Byte × Word)} {e : Byte × Word}
    (hlt : l.length < k) (hk : k ≤ 256) (hlen : 4 + 9 * k ≤ s.inLenNat) (hg : goodEntries l)
    (hh : holds s.inBuf 0 (leBytes k 4 ++ (l ++ [e]).flatMap entry))
    (hbad : e.2 = 0#64 ∨ lookup (tableOf l) e.1 ≠ 0#64 ∨
      2 ^ 64 - 1 < (l.map fun e => e.2.toNat).sum + e.2.toNat) :
    parseHeader s = .error (.err .malformedHeader) := by
  obtain ⟨hcount, hrest⟩ := holds_append.mp hh
  rw [length_leBytes, Nat.zero_add, List.flatMap_append, List.flatMap_singleton] at hrest
  obtain ⟨hentries, hlast⟩ := holds_append.mp hrest
  rw [length_flatMap_nine length_entry] at hlast
  obtain ⟨hread, hval⟩ := read_count (by omega) hcount
  obtain ⟨hnodup, hpos, hsum⟩ := hg
  obtain ⟨n, rfl⟩ : ∃ n, k = n + 1 + l.length := ⟨k - l.length - 1, by omega⟩
  have hloop : parseEntries s (n + 1 + l.length) 4 emptyFreq 0 = .error (.err .malformedHeader) := by
    rw [parseEntries_append s l (n + 1) 4 0 emptyFreq hentries hnodup hpos
      (fun e _ => lookup_emptyFreq e.1) ((Nat.zero_add _).trans_le hsum), addEntries_empty hnodup,
      Nat.zero_add]
    exact parseEntries_badEntry hlast hbad
  rw [parseHeader, if_neg (by omega), hread]
  simp only [hval, if_neg (Nat.not_lt.mpr hk), if_neg (Nat.not_lt.mpr hlen), hloop]

/-- Settles O55: one lemma for what is wrong with the count, one for what is wrong with an entry. -/
theorem parseHeaderRejectsMalformedHeaders : Obligations.ParseHeaderRejectsMalformedHeaders := by
  refine fun s => ⟨fun hc => exec_err_of_primitive rfl (readHeader_error.mpr (.inl ⟨rfl, hc⟩)),
    fun hc h4 => exec_hdrParse_malformed hc (if_pos h4),
    fun k hc h4 hk hh hbad => exec_hdrParse_malformed hc (parseHeader_badCount h4 hk hh hbad),
    fun k l b f hc hlt hk hlen hg hh hbad => ?_⟩
  have hentry : b ∈ l.map Prod.fst → lookup (tableOf l) b ≠ 0#64 := fun hb =>
    mem_keys.mp ((mem_keys_tableOf hg).mpr hb)
  exact exec_hdrParse_malformed hc
    (parseHeader_badEntry (e := (b, f)) hlt hk hlen hg hh (hbad.imp_right (Or.imp_left hentry)))

end Sys2Proof.Machine

namespace Sys2Proof.Machine

/-! ### CODEC_COMPRESS (45_codec.md R195, R196) -/

/-- `s` with the table, tree and codes of the input `l`, and a stream of `bits` read from its start: the
state that CODEC_COMPRESS runs ENC_BLOCK in, and leaves with it. -/
def withCodesOf (l : List Byte) (bits : Bits) (s : State) : State :=
  { s with
    ft := freqOf l
    tree := treeOf (freqOf l)
    ct := codesOf (treeOf (freqOf l))
    bs := bits
    bsRd := 0 }

/-- The last steps of CODEC_COMPRESS: the header, the payload, and RES. -/
def writeContainer (s : State) : Run :=
  (primitive (writeHeader s) s).andThen fun s5 =>
  (primitive (getBuffer s5) s5).andThen fun s6 =>
  .done (resOutLen s6)

/-- `s` once the byte list `c` was written to an empty OUT. -/
def withOutput (c : List Byte) (s : State) : State :=
  { s with outBuf := Mem.writeList s.outBuf 0 c, outLen := c.length }

theorem keys_freqOf_ne_nil {l : List Byte} (hne : l ≠ []) (hl : l.length ≤ 2 ^ 64 - 1) :
    keys (freqOf l) ≠ [] := by
  obtain ⟨b, hb⟩ := List.exists_mem_of_ne_nil l hne
  exact List.ne_nil_of_mem ((mem_keys_freqOf hl).mpr hb)

theorem freqOf_nil : freqOf [] = emptyFreq :=
  table_ext fun b => by rw [lookup_freqOf, lookup_emptyFreq]; rfl

theorem keys_emptyFreq : keys emptyFreq = [] := (keys_eq_nil_iff _).mpr lookup_emptyFreq

/-- An input whose length stands in IN_LEN has counts that fit a u64. -/
theorem length_le_of_inLen {s : State} {l : List Byte} (hl : s.inLenNat = l.length) :
    l.length ≤ 2 ^ 64 - 1 :=
  hl ▸ Nat.le_pred_of_lt s.inLen.isLt

/-- FA_ANALYZE on an input that lies in IN. -/
theorem analyze_input {s : State} {l : List Byte} (hh : holds s.inBuf 0 l) (hl : s.inLenNat = l.length)
    (hc : s.inLenNat ≤ s.caps.inCap) : analyze s = .ok { s with ft := freqOf l } :=
  analyze_ok.mpr ⟨l, inputBytes_ok.mpr ⟨hc, hl.symm, hh⟩, by rw [storeCounts_countBytes]⟩

theorem compressSteps_outOfRange {s : State} (hc : s.caps.inCap < s.inLenNat) :
    compressSteps s = .raised .outOfRange s := if_pos hc

theorem compressSteps_empty {s : State} (h0 : s.inLenNat = 0) :
    compressSteps s = .done { s with ft := emptyFreq, res := 0#64 } := by
  have hc : s.inLenNat ≤ s.caps.inCap := h0 ▸ Nat.zero_le _
  rw [compressSteps, if_neg (Nat.not_lt.mpr hc), analyze_input (l := []) nofun h0 hc, primitive_ok,
    done_andThen]
  simp only [freqOf_nil, keys_emptyFreq]

/-- A container that fits an empty OUT is written whole. -/
theorem writeContainer_done {s : State} {c : List Byte} (h0 : s.outLen = 0)
    (hcont : header s.ft ++ packBytes s.bs = c) (hcap : c.length ≤ s.caps.outCap) :
    writeContainer s = .done (resOutLen (withOutput c s)) := by
  subst hcont
  rw [List.length_append] at hcap
  have hhead : writeHeader s = .ok (withOutput (header s.ft) s) :=
    outAppend_ok.mpr ⟨by omega, by rw [h0, Nat.zero_add]; rfl⟩
  have hpay : getBuffer (withOutput (header s.ft) s) =
      .ok (withOutput (header s.ft ++ packBytes s.bs) s) :=
    outAppend_ok.mpr ⟨hcap, by
      rw [withOutput, ← Mem.writeList_append, Nat.zero_add, List.length_append]; rfl⟩
  rw [writeContainer, hhead, primitive_ok, done_andThen, hpay, primitive_ok, done_andThen]

/-- A container that does not fit an empty OUT stops at its header, which then writes nothing, or at its
payload. -/
theorem writeContainer_full {s : State} {c : List Byte} (h0 : s.outLen = 0)
    (hcont : header s.ft ++ packBytes s.bs = c) (hcap : s.caps.outCap < c.length) :
    ∃ m n, writeContainer s = .raised .capacityExceeded { s with outBuf := m, outLen := n } ∧
      ∀ a, (header s.ft).length ≤ a → Mem.read m a = Mem.read s.outBuf a := by
  subst hcont
  rw [List.length_append] at hcap
  by_cases hfit : (header s.ft).length ≤ s.caps.outCap
  · have hhead : writeHeader s = .ok (withOutput (header s.ft) s) :=
      outAppend_ok.mpr ⟨by omega, by rw [h0, Nat.zero_add]; rfl⟩
    have hpay : getBuffer (withOutput (header s.ft) s) = .error (.err .capacityExceeded) :=
      outAppend_error.mpr ⟨rfl, hcap⟩
    refine ⟨Mem.writeList s.outBuf 0 (header s.ft), (header s.ft).length, ?_,
      fun a ha => Mem.read_writeList_above _ _ ((Nat.zero_add _).trans_le ha)⟩
    rw [writeContainer, hhead, primitive_ok, done_andThen, hpay]; rfl
  · have hhead : writeHeader s = .error (.err .capacityExceeded) := outAppend_error.mpr ⟨rfl, by omega⟩
    refine ⟨s.outBuf, s.outLen, ?_, fun a _ => rfl⟩
    rw [writeContainer, hhead, primitive_err, raised_andThen]

section
variable {s : State} {l : List Byte} (hne : l ≠ []) (hh : holds s.inBuf 0 l)
  (hl : s.inLenNat = l.length) (hc : s.inLenNat ≤ s.caps.inCap)
include hne hh hl hc

/-- Input that is not empty leads past FA_ANALYZE, HT_BUILD, HT_GEN_CODES and BS_CLEAR to ENC_BLOCK. -/
theorem compressSteps_input :
    compressSteps s = (encodeBlock (withCodesOf l [] s)).andThen writeContainer := by
  have hk := keys_freqOf_ne_nil hne (length_le_of_inLen hl)
  have hbuild : buildTree { s with ft := freqOf l } =
      .ok { s with ft := freqOf l, tree := treeOf (freqOf l), ct := emptyCodes } :=
    buildTree_ok.mpr ⟨hk, rfl⟩
  rw [compressSteps, if_neg (Nat.not_lt.mpr hc), analyze_input hh hl hc, primitive_ok, done_andThen]
  split
  · next h => exact absurd h hk
  · rw [compressSymbols, hbuild]; rfl

/-- A payload that fits BS leads on to the container. -/
theorem compressSteps_payload (hfit : (payloadBits l).length ≤ s.caps.bsCapBits) :
    compressSteps s = writeContainer (withCodesOf l (payloadBits l) s) := by
  rw [compressSteps_input hne hh hl hc, encodeBlock_append (s := withCodesOf l [] s) hh hl hc
    (fun _ hb => code_of_mem (length_le_of_inLen hl) hb) ((Nat.zero_add _).trans_le hfit), done_andThen]
  rfl

/-- A payload that does not fit BS stops at the first byte whose code does not fit. -/
theorem compressSteps_payload_full (hfull : s.caps.bsCapBits < (payloadBits l).length) :
    ∃ (front : List Byte) (b : Byte) (rest : List Byte), l = front ++ b :: rest ∧
      (encodeAll (codesOf (treeOf (freqOf l))) front).length ≤ s.caps.bsCapBits ∧
      s.caps.bsCapBits < (encodeAll (codesOf (treeOf (freqOf l))) (front ++ [b])).length ∧
      compressSteps s = .raised .capacityExceeded
        (withCodesOf l (encodeAll (codesOf (treeOf (freqOf l))) front) s) := by
  obtain ⟨front, b, rest, hsplit, hfront, hnext, hloop⟩ := encodeLoop_full l 0 (withCodesOf l [] s) hh
    (fun _ hb => code_of_mem (length_le_of_inLen hl) hb) (Nat.zero_le _)
    (hfull.trans_eq (Nat.zero_add _).symm)
  have hblock : encodeBlock (withCodesOf l [] s) = encodeLoop l.length 0 (withCodesOf l [] s) :=
    hl ▸ encodeBlock_of_input hc
  refine ⟨front, b, rest, hsplit, (Nat.zero_add _).ge.trans hfront, hnext.trans_eq (Nat.zero_add _), ?_⟩
  rw [compressSteps_input hne hh hl hc, hblock, hloop, raised_andThen]
  rfl

end

theorem exec_codecCompress_done {s t : State} (h : compressSteps { s with outLen := 0 } = .done t) :
    exec .codecCompress s = .next t :=
  exec_next_of_done (i := .codecCompress) (clearOut_eq_done.mpr h)

/-- A step of CODEC_COMPRESS that raises an error ends it with OUT_LEN = 0 (60_exceptions.md R234). -/
theorem exec_codecCompress_raised {s t : State} {e : Err}
    (h : compressSteps { s with outLen := 0 } = .raised e t) :
    exec .codecCompress s = .next { t with outLen := 0, err := e } :=
  exec_next_of_raised (i := .codecCompress) (clearOut_eq_raised.mpr ⟨t, h, rfl⟩)

/-- Settles O56: the payload fits BS or ENC_BLOCK stops in it, and then the container fits OUT or
`writeContainer` stops in it. -/
theorem compressWritesTheContainer : Obligations.CompressWritesTheContainer := by
  refine ⟨fun s l hne hh hl hc => ⟨fun hbs hout => ?_, fun hbs => ?_, fun hbs hout => ?_⟩,
    fun s h0 => exec_codecCompress_done (compressSteps_empty (s := { s with outLen := 0 }) h0),
    fun s hc => exec_codecCompress_raised (t := { s with outLen := 0 }) (compressSteps_outOfRange hc)⟩
  · have hsteps := compressSteps_payload (s := { s with outLen := 0 }) hne hh hl hc hbs
    have hwrite := writeContainer_done
      (s := withCodesOf l (payloadBits l) { s with outLen := 0 }) (c := container l) rfl rfl hout
    exact ⟨_, exec_codecCompress_done (hsteps.trans hwrite), rfl, holds_writeList _ _ _,
      fun a ha => Mem.read_writeList_above (container l) s.outBuf ((Nat.zero_add _).trans_le ha)⟩
  · obtain ⟨front, b, rest, hsplit, hfront, hnext, hsteps⟩ :=
      compressSteps_payload_full (s := { s with outLen := 0 }) hne hh hl hc hbs
    exact ⟨front, b, rest, hsplit, hfront, hnext, exec_codecCompress_raised hsteps⟩
  · have hsteps := compressSteps_payload (s := { s with outLen := 0 }) hne hh hl hc hbs
    obtain ⟨m, n, hwrite, habove⟩ := writeContainer_full
      (s := withCodesOf l (payloadBits l) { s with outLen := 0 }) (c := container l) rfl rfl hout
    exact ⟨_, exec_codecCompress_raised (hsteps.trans hwrite), rfl, habove⟩

/-! ### CODEC_DECOMPRESS (45_codec.md R197, R199 a) -/

/-- The state in which CODEC_DECOMPRESS comes to its decode loop: the header's table and tree, and the
payload in the stream. -/
def afterLoad (l : List (Byte × Word)) (payload : List Byte) (s : State) : State :=
  { afterBuild l s with bs := unpackBytes payload, bsRd := 0 }

/-- A header with entries and a payload that fits BS lead to the decode loop. -/
theorem decompressSteps_payload {s : State} {l : List (Byte × Word)} {payload : List Byte}
    (hc : s.inLenNat ≤ s.caps.inCap) (hne : l ≠ []) (hg : goodEntries l)
    (hh : holds s.inBuf 0 (entryBytes l ++ payload)) (hlen : s.inLenNat = (entryBytes l ++ payload).length)
    (hfit : 8 * payload.length ≤ s.caps.bsCapBits) :
    decompressSteps s = (decodeLoop (l.map fun e => e.2.toNat).sum (afterLoad l payload s)).andThen
      fun s4 => .done (resOutLen s4) := by
  obtain ⟨hhead, hpay⟩ := holds_append.mp hh
  rw [length_entryBytes, Nat.zero_add] at hpay
  rw [List.length_append, length_entryBytes] at hlen
  have hrest : payload.length = s.inLenNat - (4 + 9 * l.length) := by omega
  have hload : loadStream (4 + 9 * l.length) (afterBuild l s) = .ok (afterLoad l payload s) :=
    loadStream_ok.mpr ⟨hc, by show _ ≤ s.inLenNat; omega, hrest ▸ hfit, payload,
      inReadList_ok.mpr ⟨hrest, hpay⟩, rfl⟩
  rw [decompressSteps_entryBytes hc hne hg hhead (by rw [length_entryBytes]; omega), hload, primitive_ok,
    done_andThen]

/-- The decode loop on bits that spell as many symbols as it decodes. -/
theorem decodeLoop_spells {s : State} {bits : Bits} {out : List Byte} (hs : s.tree.spells bits out)
    (hp : bits <+: s.unread) (hcap : s.outLen + out.length ≤ s.caps.outCap) :
    decodeLoop out.length s = .done (afterDecode bits.length out s) := by
  obtain ⟨ps, rfl, hps⟩ := hs
  rw [decodeLoop_append ps out _ s hps hp (Nat.le_refl _) hcap, Nat.sub_self, decodeLoop, afterDecode]

theorem decompressSteps_outOfRange {s : State} (hc : s.caps.inCap < s.inLenNat) :
    decompressSteps s = .raised .outOfRange s := if_pos hc

theorem decompressSteps_empty {s : State} (h0 : s.inLenNat = 0) :
    decompressSteps s = .done { s with res := 0#64 } := by
  rw [decompressSteps, if_neg (by omega), if_pos h0]

theorem exec_codecDecompress_done {s t : State} (h : decompressSteps { s with outLen := 0 } = .done t) :
    exec .codecDecompress s = .next t :=
  exec_next_of_done (i := .codecDecompress) (clearOut_eq_done.mpr h)

/-- Settles O57: the payload is loaded, and the decode loop takes exactly the bits that spell `out`. -/
theorem decompressDecodesTheContainer : Obligations.DecompressDecodesTheContainer := by
  refine ⟨fun s l payload bits out hne hg hh hlen hc hfit hspell hpre hsum hcap => ?_,
    fun s h0 => exec_codecDecompress_done (decompressSteps_empty (s := { s with outLen := 0 }) h0),
    fun s hc => exec_codecDecompress_raised (t := { s with outLen := 0 }) (decompressSteps_outOfRange hc)⟩
  have hsteps := decompressSteps_payload (s := { s with outLen := 0 }) hc hne hg hh hlen hfit
  have hloop := decodeLoop_spells (s := afterLoad l payload { s with outLen := 0 }) hspell hpre
    ((Nat.zero_add _).trans_le hcap)
  rw [← hsum, hloop, done_andThen] at hsteps
  refine ⟨_, exec_codecDecompress_done hsteps, ?_, holds_writeList _ _ _,
    fun a ha => Mem.read_writeList_above out s.outBuf ((Nat.zero_add _).trans_le ha)⟩
  simp [afterDecode, afterLoad, afterBuild, resOutLen]

/-! ### The container as a header and a payload (45_codec.md R190) -/

/-- The entries that HDR_WRITE lists for a table (45_codec.md R191). -/
def writtenEntries (t : FreqTable) : List (Byte × Word) := (keys t).map fun b => (b, lookup t b)

theorem length_writtenEntries (t : FreqTable) : (writtenEntries t).length = (keys t).length :=
  List.length_map _

theorem container_eq_entryBytes (l : List Byte) :
    container l = entryBytes (writtenEntries (freqOf l)) ++ packBytes (payloadBits l) :=
  congrArg (· ++ _) (header_eq_entryBytes (freqOf l))

theorem sum_writtenEntries (t : FreqTable) :
    ((writtenEntries t).map fun e => e.2.toNat).sum = freqSum t := by
  rw [writtenEntries, List.map_map]
  exact sum_keys t

section
variable {l : List Byte} (hne : l ≠ []) (hl : l.length ≤ 2 ^ 64 - 1)
include hl

theorem goodEntries_writtenEntries : goodEntries (writtenEntries (freqOf l)) :=
  goodEntries_keys ((freqSum_freqOf hl).trans_le hl)

theorem sum_writtenEntries_freqOf :
    ((writtenEntries (freqOf l)).map fun e => e.2.toNat).sum = l.length :=
  (sum_writtenEntries _).trans (freqSum_freqOf hl)

/-- The payload bits decode to the input in the input's own tree (45_codec.md R198). -/
theorem spells_payloadBits : (treeOf (freqOf l)).spells (payloadBits l) l :=
  spells_encodeAll (treeOf_symbols_nodup _) l fun _ => code_of_mem hl

include hne

theorem writtenEntries_ne_nil : writtenEntries (freqOf l) ≠ [] :=
  mt List.map_eq_nil_iff.mp (keys_freqOf_ne_nil hne hl)

/-- A payload has at least one bit: its first symbol takes one. -/
theorem payloadBits_ne_nil : payloadBits l ≠ [] := by
  intro hnil
  obtain ⟨ps, hps, hreads⟩ := hnil ▸ spells_payloadBits hl
  cases hreads with
  | nil => exact hne rfl
  | @cons p b ps l hp _ =>
    have hpos := (traverseRoot_length (traverseRoot_of_reads hp [])).2
    rw [List.length_pos_iff] at hpos
    exact hpos (List.append_eq_nil_iff.mp hps).1

end

/-! ### Round trip (45_codec.md R198) -/

/-- A compression that ends with STATUS.ERR 0 has written the container of its input. -/
theorem container_of_exec_codecCompress {s t : State} {l : List Byte} (hne : l ≠ [])
    (hh : holds s.inBuf 0 l) (hl : s.inLenNat = l.length) (hc : s.inLenNat ≤ s.caps.inCap)
    (hexec : exec .codecCompress s = .next t) (ht : t.err = .none) :
    t.ft = freqOf l ∧ t.tree = treeOf (freqOf l) ∧ t.outLen = (container l).length ∧
      holds t.outBuf 0 (container l) := by
  obtain ⟨hfit, hbsFull, houtFull⟩ := compressWritesTheContainer.1 s l hne hh hl hc
  have hresult {u : State} (hu : exec .codecCompress s = .next u) : t = u :=
    Host.Outcome.next.inj (hexec.symm.trans hu)
  rcases Nat.lt_or_ge s.caps.bsCapBits (payloadBits l).length with hbs | hbs
  · obtain ⟨front, b, rest, -, -, -, hu⟩ := hbsFull hbs
    rw [hresult hu] at ht
    cases ht
  rcases Nat.lt_or_ge s.caps.outCap (container l).length with hout | hout
  · obtain ⟨u, hu, hfields, -⟩ := houtFull hbs hout
    rw [hresult hu, hfields] at ht
    cases ht
  · obtain ⟨u, hu, hfields, hheld, -⟩ := hfit hbs hout
    rw [hresult hu]
    exact ⟨congrArg State.ft hfields, congrArg State.tree hfields, congrArg State.outLen hfields, hheld⟩

/-- Decompressing the container of `l` gives `l` back, with the table and the tree of compression. -/
theorem exec_codecDecompress_container {u : State} {l : List Byte} (hne : l ≠ [])
    (hl : l.length ≤ 2 ^ 64 - 1) (hh : holds u.inBuf 0 (container l))
    (hlen : u.inLenNat = (container l).length) (hc : u.inLenNat ≤ u.caps.inCap)
    (hfit : 8 * (packBytes (payloadBits l)).length ≤ u.caps.bsCapBits) (hcap : l.length ≤ u.caps.outCap) :
    ∃ v, exec .codecDecompress u = .next v ∧ v.err = u.err ∧ v.outLen = l.length ∧
      v.res = BitVec.ofNat 64 l.length ∧ holds v.outBuf 0 l ∧ v.tree = treeOf (freqOf l) ∧
      v.ft = freqOf l := by
  have htable : tableOf (writtenEntries (freqOf l)) = freqOf l := tableOf_keys _
  rw [container_eq_entryBytes] at hh hlen
  have hpre : payloadBits l <+: unpackBytes (packBytes (payloadBits l)) := by
    rw [unpackBytes_packBytes]
    exact List.prefix_append _ _
  obtain ⟨v, hv, hfields, hheld, -⟩ := decompressDecodesTheContainer.1 u (writtenEntries (freqOf l))
    (packBytes (payloadBits l)) (payloadBits l) l (writtenEntries_ne_nil hne hl)
    (goodEntries_writtenEntries hl) hh hlen hc hfit (htable.symm ▸ spells_payloadBits hl) hpre
    (sum_writtenEntries_freqOf hl).symm hcap
  rw [htable] at hfields
  exact ⟨v, hv, (congrArg State.err hfields :), congrArg State.outLen hfields,
    congrArg State.res hfields, hheld, congrArg State.tree hfields, congrArg State.ft hfields⟩

/-- Settles O59: `container_of_exec_codecCompress`, then `exec_codecDecompress_container`. -/
theorem decompressUndoesCompress : Obligations.DecompressUndoesCompress := by
  intro s t u _ hready hexec ht hul huc hcopy hbs hcap
  obtain ⟨l, hl⟩ := inputBytes_of_ready hready
  obtain ⟨hc, hlen, hh⟩ := inputBytes_ok.mp hl
  have hres : s.inLen = BitVec.ofNat 64 l.length := by
    rw [hlen, State.inLenNat, BitVec.ofNat_toNat, BitVec.setWidth_eq]
  rcases eq_or_ne l [] with rfl | hne
  · have h0 : s.inLenNat = 0 := hlen.symm
    cases hexec.symm.trans (compressWritesTheContainer.2.1 s h0)
    refine ⟨_, decompressDecodesTheContainer.2.1 u hul, rfl, h0.symm, hres.symm, fun a ha => ?_,
      fun h => absurd h0 h⟩
    exact absurd ha (h0 ▸ Nat.not_lt_zero a)
  · obtain ⟨hft, htree, hout, hheld⟩ := container_of_exec_codecCompress hne hh hlen.symm hc hexec ht
    have hpayload : t.outLen - (4 + 9 * (keys t.ft).length) = (packBytes (payloadBits l)).length := by
      rw [hout, hft, container, List.length_append, length_header, Nat.add_sub_cancel_left]
    have hin : holds u.inBuf 0 (container l) := fun k hk => by
      rw [Nat.zero_add, hcopy k (hout ▸ hk), ← hheld k hk, Nat.zero_add]
    obtain ⟨v, hv, herr, hvlen, hvres, hvout, hvtree, hvft⟩ := exec_codecDecompress_container hne
      (length_le_of_inLen hlen.symm) hin (hul.trans hout) huc (hpayload ▸ hbs) (hlen ▸ hcap)
    refine ⟨v, hv, herr, hvlen.trans hlen, hvres.trans hres.symm, fun a ha => ?_,
      fun _ => ⟨hvtree.trans htree.symm, hvft.trans hft.symm⟩⟩
    have ha' : a < l.length := hlen ▸ ha
    rw [← Nat.zero_add a, hvout a ha', hh a ha']

/-! ### Truncation (45_codec.md R199 b) -/

/-- The bytes of a stream but the last hold only bits of the stream, no padding. -/
theorem unpackBytes_dropLast_prefix (bits : Bits) : unpackBytes (packBytes bits).dropLast <+: bits := by
  obtain ⟨last, hlast⟩ := List.dropLast_prefix (packBytes bits)
  have hpre : unpackBytes (packBytes bits).dropLast <+: unpackBytes (packBytes bits) := by
    rw [← congrArg unpackBytes hlast, unpackBytes_append]
    exact List.prefix_append _ _
  rw [unpackBytes_packBytes] at hpre
  refine List.prefix_of_prefix_length_le hpre (List.prefix_append _ _) ?_
  rw [length_unpackBytes, List.length_dropLast, length_packBytes]
  omega

/-- Without its last byte a stream has lost a bit. -/
theorem length_unpackBytes_dropLast_lt {bits : Bits} (hne : bits ≠ []) :
    (unpackBytes (packBytes bits).dropLast).length < bits.length := by
  have hpos := List.length_pos_iff.mpr hne
  rw [length_unpackBytes, List.length_dropLast, length_packBytes]
  omega

theorem packBytes_ne_nil {bits : Bits} (hne : bits ≠ []) : packBytes bits ≠ [] := by
  have hpos := List.length_pos_iff.mpr hne
  rw [← List.length_pos_iff, length_packBytes]
  omega

/-- The decode loop on the payload of `l` without its last byte runs out of bits. -/
theorem decodeLoop_truncated {s : State} {l : List Byte} (hne : l ≠ []) (hl : l.length ≤ 2 ^ 64 - 1)
    (htree : s.tree = treeOf (freqOf l)) (hbits : s.unread = unpackBytes (packBytes (payloadBits l)).dropLast)
    (hcap : s.outLen + l.length ≤ s.caps.outCap) :
    ∃ t, decodeLoop l.length s = .raised .corruptPayload t ∧ t.res = s.res := by
  have hcut := decodeLoop_cut l s
  rw [htree, hbits] at hcut
  obtain ⟨t, hloop, hleaves⟩ := hcut (treeOf_symbols_nodup _) (fun _ => code_of_mem hl)
    (unpackBytes_dropLast_prefix (payloadBits l))
    (length_unpackBytes_dropLast_lt (payloadBits_ne_nil hne hl)) hcap
  obtain ⟨n, out, rfl⟩ := decodeLoop_leaves hleaves
  exact ⟨_, hloop, rfl⟩

/-- Settles O60: the header parses, and the truncated payload stops the decode loop. -/
theorem truncatedContainerIsCorrupt : Obligations.TruncatedContainerIsCorrupt := by
  intro u l hne hl hh hlen hc hfit hcap
  have hdrop : (container l).dropLast =
      entryBytes (writtenEntries (freqOf l)) ++ (packBytes (payloadBits l)).dropLast := by
    rw [container_eq_entryBytes,
      List.dropLast_append_of_ne_nil (packBytes_ne_nil (payloadBits_ne_nil hne hl))]
  rw [← List.length_dropLast, hdrop] at hlen
  rw [hdrop] at hh
  have hbs : 8 * (packBytes (payloadBits l)).dropLast.length ≤ u.caps.bsCapBits := by
    rw [List.length_dropLast]
    omega
  obtain ⟨t, hloop, hres⟩ := decodeLoop_truncated
    (s := afterLoad (writtenEntries (freqOf l)) (packBytes (payloadBits l)).dropLast { u with outLen := 0 })
    hne hl (congrArg treeOf (tableOf_keys (freqOf l))) rfl ((Nat.zero_add _).trans_le hcap)
  rw [← sum_writtenEntries_freqOf hl] at hloop
  refine ⟨_, exec_codecDecompress_raised (decompressSteps_decode_error (s := { u with outLen := 0 }) hc
    (writtenEntries_ne_nil hne hl) (goodEntries_writtenEntries hl) hh hlen hbs hloop), rfl, rfl, ?_⟩
  rw [length_header, ← length_writtenEntries]
  exact hres

end Sys2Proof.Machine

namespace Sys2Proof.Machine

/-! ### A value written to CMD that runs no other command (60_exceptions.md R227, R235, R236) -/

/-- The value 1 is ERR_CLEAR, with or without an error pending (40_control.md R91). -/
theorem executeCommand_one (s : State) : executeCommand 1#64 s = .next s.clearError := by
  by_cases he : s.err = .none
  · exact executeCommand_ok he (decode_encode (i := .errClear) rfl)
  · rw [executeCommand, if_pos he, if_pos rfl]; rfl

/-- With an error pending every value but 1 is dropped. -/
theorem executeCommand_dropped {v : Word} {s : State} (he : s.err ≠ .none) (hv : v ≠ 1#64) :
    executeCommand v s = .next s := by
  rw [executeCommand, if_pos he, if_neg hv]

/-- With no error pending a value that does not decode raises ILLEGAL_COMMAND. -/
theorem executeCommand_illegal {v : Word} {r : Illegal} {s : State} (he : s.err = .none)
    (hd : decode v = .error r) : executeCommand v s = .next (s.raiseError .illegalCommand) := by
  simp only [executeCommand, he, hd, ne_eq, not_true_eq_false, if_false]; rfl

theorem step_errClear {s : State} {rest : List HostAction} (h : s.host = .writeReg 8 0x00 1#64 :: rest) :
    step s = .next { s with host := rest, epoch := s.epoch + 1, err := .none } := by
  rw [step_writeReg (by decide) (by decide) h]
  exact executeCommand_one _

theorem step_dropped {s : State} {rest : List HostAction} {v : Word} (he : s.err ≠ .none)
    (hv : v ≠ 1#64) (h : s.host = .writeReg 8 0x00 v :: rest) :
    step s = .next { s with host := rest, epoch := s.epoch + 1 } := by
  rw [step_writeReg (by decide) (by decide) h]
  exact executeCommand_dropped he hv

/-- Settles O9: the illegal values are those that do not decode, and the command that raises the error
has done nothing else. -/
theorem illegalCommandChangesOnlyErr : Obligations.IllegalCommandChangesOnlyErr := by
  intro s rest v he hv h
  obtain ⟨r, hd⟩ := (illegalValuesAreThoseOfTheSpec v).mpr hv
  rw [step_writeReg (by decide) (by decide) h]
  exact executeCommand_illegal he hd

/-! ### The sticky error (60_exceptions.md R235, R236) -/

/-- Settles O7: `step_dropped` for CMD; the step of each other access does not look at STATUS.ERR. -/
theorem pendingErrorDropsCommands : Obligations.PendingErrorDropsCommands := by
  intro s rest he
  refine ⟨fun v => step_dropped he, fun v h => ?_, fun v h => ?_, fun a x ha h => ?_,
    fun off => step_readReg, fun a x ha hx h => ?_, fun a x ha hlen hx h => ?_⟩
  · exact step_writeReg_not_cmd (by decide) (by decide) (by decide) h
  · exact step_writeReg_not_cmd (by decide) (by decide) (by decide) h
  · exact ⟨_, step_writeIn ha h, rfl, Mem.read_write_same _ _ _, fun b => Mem.read_write_other _ _⟩
  · rw [step_readIn ha h, hostReadIn_written hx]
  · rw [step_readOut ha h, hostReadOut_written hlen hx]

/-- A host access that is neither the reset nor a write to CMD leaves STATUS.ERR. -/
theorem err_of_step_access {s t : State} {act : HostAction} {rest : List HostAction}
    (h : s.host = act :: rest) (hreset : act ≠ .reset) (hcmd : ∀ v, act ≠ .writeReg 8 0x00 v)
    (hs : step s = .next t) : t.err = s.err := by
  cases act with
  | reset => exact absurd rfl hreset
  | writeReg n off v =>
    obtain ⟨rfl, ha, hw⟩ := registerAccess_of_step (.inl h) hs
    have h0 : off ≠ 0x00 := fun e => hcmd v (e ▸ rfl)
    rw [step_writeReg_not_cmd ha hw h0 h] at hs
    cases hs; rfl
  | readReg n off =>
    obtain ⟨rfl, ha, hw⟩ := registerAccess_of_step (v := 0#64) (.inr h) hs
    rw [step_readReg ha hw h] at hs
    cases hs; rfl
  | writeIn a x =>
    rw [step_writeIn (input_lt_of_step (.inl h) hs) h] at hs
    cases hs; rfl
  | readIn a =>
    rw [step_readIn (input_lt_of_step (x := 0#8) (.inr h) hs) h] at hs
    cases hs; rfl
  | readOut a =>
    rw [step_readOut (output_lt_of_step h hs) h] at hs
    cases hs; rfl
  | other => rw [step_of_host h] at hs; cases hs

/-- Settles O8: idling, the dropped commands and `err_of_step_access` leave a pending error; ERR_CLEAR
and the reset remain. -/
theorem onlyErrClearAndResetClearAnError : Obligations.OnlyErrClearAndResetClearAnError := by
  refine ⟨fun s rest => step_errClear, fun s t he hs hne => ?_⟩
  match hh : s.host with
  | [] =>
    have hidle : step s = .next s := by simp only [step, hostStep, hh]
    rw [hidle] at hs
    cases hs
    exact absurd rfl hne
  | act :: rest =>
    by_cases hreset : act = .reset
    · subst hreset
      rw [step_of_host hh] at hs
      cases hs
      exact ⟨rfl, rest, .inr rfl⟩
    by_cases hcmd : ∃ v, act = .writeReg 8 0x00 v
    · obtain ⟨v, rfl⟩ := hcmd
      by_cases hv : v = 1#64
      · subst hv
        rw [step_errClear hh] at hs
        cases hs
        exact ⟨rfl, rest, .inl rfl⟩
      · rw [step_dropped he hv hh] at hs
        cases hs
        exact absurd rfl hne
    · exact absurd (err_of_step_access hh hreset (not_exists.mp hcmd) hs) hne

/-! ### Primitive commands (60_exceptions.md R232) -/

/-- A primitive command raises its error in the state it started from. -/
theorem state_of_primitive_raised {i : Instr} {s u : State} {e : Err} (hp : isSequence i = false)
    (h : runOf i s = .raised e u) : u = s := by
  cases i
  case encBlock | decBlock | codecCompress | codecDecompress => cases hp
  case nop | errClear | outClear | bsClear | faRead | faTotal | htCodes | ctLen | ctWord => cases h
  case bsWbit | bsWbits | bsRbit | bsRbits | bsGetbuf | bsLoad | faAnalyze | faAccum | htBuild | encSym
      | decSym | hdrWrite | hdrParse => exact (primitive_eq_raised.mp h).2

/-- Settles O21: the run has raised the error, in the state it started from. -/
theorem primitiveErrorsAreAtomic : Obligations.PrimitiveErrorsAreAtomic := by
  intro i s t hp hs h ht
  obtain ⟨u, hr, hu⟩ := raised_of_exec_next hs h ht
  rwa [state_of_primitive_raised hp hr] at hu

end Sys2Proof.Machine

namespace Sys2Proof.Machine

/-! ### Reset (70_reset_and_hazards.md R250, R251) -/

/-- A reset at the head of the host's actions is taken in every state, an error pending or not. -/
theorem step_reset {s : State} {rest : List HostAction} (h : s.host = .reset :: rest) :
    step s = .next (resetAction { s with host := rest }).tick := by
  rw [step_of_host h, perform]

/-- Settles O14: after a reset by the rules of `resetAction`, where ERR and TREE give STATUS; after power-up
by the fields' values. -/
theorem resetRestoresTheResetValues : Obligations.ResetRestoresTheResetValues := by
  refine ⟨fun s rest h => ⟨_, step_reset h, ?_⟩, fun c => ?_⟩
  · have hstatus : (resetAction { s with host := rest }).tick.status = 0#64 := status_eq_zero rfl rfl
    simp [hstatus]
  · exact ⟨rfl, rfl, status_eq_zero rfl rfl, rfl, rfl, rfl, rfl, lookup_emptyFreq, rfl, lookup_emptyCodes,
      Mem.read_nil⟩

end Sys2Proof.Machine
